-- ==== Sys2Proof/Word.lean ====
section
/-! DEFINITION. The words of the two blocks (00_scope.md R5, R6, R7) under the spec's own names. All numbers are unsigned. -/

namespace Sys2Proof

/-- A data symbol or a byte of a stream (`SYM_W` = 8, R5). -/
abbrev Byte := BitVec 8

/-- A node address (`NODE_AW` = 10, R5). -/
abbrev NodeAddr := BitVec 10

/-- A node word (`NODE_W` = 21, R81). -/
abbrev NodeWord := BitVec 21

/-- A leaf value or a code index (`VAL_W` = 9, R6). -/
abbrev Val := BitVec 9

/-- A code length (`LEN_W` = 9, R85). -/
abbrev Len := BitVec 9

/-- The code field of a code entry (`MAXLEN` = 256 bits, R85). -/
abbrev CodeField := BitVec 256

/-- A code entry (`ENTRY_W` = 266, R85). -/
abbrev Entry := BitVec 266

/-- A status code (3 bits, R89). -/
abbrev StatusCode := BitVec 3

end Sys2Proof
end

