-- ==== Sys2Proof/Config.lean ====
section
/-! DEFINITION. The parameters of R5 and the free values: what the spec leaves open and says a model must draw. -/

namespace Sys2Proof.Config

/-- `EOS` = 256: the `Val` of the end-of-stream sentinel (R5, R6). -/
def eosVal : Val := 256

/-- `ROOT` = 0: the node address of the tree root (R5, R63). -/
def root : NodeAddr := 0

/-- `NODE_DEPTH` = 1024: words in the node memory (R5). -/
def nodeDepth : Nat := 1024

/-- `CODE_N` = 257: entries of the code memory (R5, R52). -/
def codeN : Nat := 257

/-- `MAXLEN` = 256: the longest code in bits (R5). -/
def maxLen : Nat := 256

/-- `N_NODES_MAX` = 513: most nodes of a tree with distinct leaf values (R5, R116). -/
def nNodesMax : Nat := 513

/-- FREE VALUE: what a word of `NODE` that the host has not written holds (R252, U7; log 3). -/
opaque unwrittenNode : NodeAddr → NodeWord

/-- FREE VALUE: what an entry of `CODE` that the host has not written holds (R252, U7; log 3). -/
opaque unwrittenCode : Val → Entry

/-- FREE VALUE: which block the environment clocks in a step for which State lists no event (R237; log 8). -/
opaque freeClocksDecoder : Nat → Bool

/-- FREE VALUE: the decoder's input vector in such a step (R237, R87; log 8). -/
opaque freeDin : Nat → BitVec 6

/-- FREE VALUE: the encoder's input vector in such a step (R237, R88; log 8). -/
opaque freeEin : Nat → BitVec 13

/-- FREE VALUE: the decoder's `out_data` while its `out_valid` is 0 (R25, D34; log 11). -/
opaque freeDecOutData : Nat → Byte

/-- FREE VALUE: the encoder's `out_data` while its `out_valid` is 0 (R31, D34; log 11). -/
opaque freeEncOutData : Nat → Byte

end Sys2Proof.Config
end

