-- ==== Sys2Proof/Syntax.lean ====
section
/-! DEFINITION. What the two blocks execute: one constructor per row of spec/opcode_table.json (R93), and the FSM states and
input pins by which R87 and R88 select a step. -/

namespace Sys2Proof

/-- The decoder's FSM states (R21); the code 3 is never reached and has no constructor (U13; log 2). -/
inductive DState where
  | idle
  | run
  | done
  deriving DecidableEq, Repr

/-- The encoder's FSM states (R26); the codes 5 to 7 are never reached and have no constructor (U13; log 2). -/
inductive EState where
  | idle
  | fetch
  | shift
  | flush
  | done
  deriving DecidableEq, Repr

/-- The decoder's input pins in one step: `DIN = {rst, start, bit_valid, bit_eof, bit_data, out_ready}` (R87). -/
structure DecPins where
  rst : Bool
  start : Bool
  bitValid : Bool
  bitEof : Bool
  bitData : Bool
  outReady : Bool
  deriving DecidableEq, Repr

/-- The encoder's input pins in one step: `EIN = {rst, start, in_valid, in_eof, out_ready, in_data[7:0]}` (R88). -/
structure EncPins where
  rst : Bool
  start : Bool
  inValid : Bool
  inEof : Bool
  outReady : Bool
  inData : Byte
  deriving DecidableEq, Repr

/-- Decoder pins all 0. -/
def DecPins.low : DecPins :=
  { rst := false, start := false, bitValid := false, bitEof := false, bitData := false, outReady := false }

/-- Encoder pins all 0. -/
def EncPins.low : EncPins :=
  { rst := false, start := false, inValid := false, inEof := false, outReady := false, inData := 0 }

/-- The kinds of a node word (R82). -/
inductive NodeKind where
  | int
  | sym
  | eos
  | bad
  deriving DecidableEq, Repr

/-- The kinds of a code entry (R85): `C-NONE`, `C-CODE`, `C-BAD`. -/
inductive EntryKind where
  | none
  | code
  | bad
  deriving DecidableEq, Repr

/-- One constructor per row of spec/opcode_table.json. The word rows carry the fields of their word; a step row carries no
operand, because the operands of a step are what it reads from the state and the pins (R131 to R142, R171 to R185). -/
inductive Instr where
  /-- WORD.INT (R81, R82): an Internal node. -/
  | wordInt (left right : NodeAddr)
  /-- WORD.SYM (R81, R82): a Leaf with a byte symbol. -/
  | wordSym (byte : Byte)
  /-- WORD.EOS (R82): the Leaf with the sentinel. -/
  | wordEos
  /-- WORD.BAD (R82, R90): a reserved node word, with its bits 19:9 and 8:0. -/
  | wordBad (reserved : BitVec 11) (val : Val)
  /-- C-NONE (R85): no entry; the other fields are kept and not looked at (U12). -/
  | cNone (len : Len) (code : CodeField)
  /-- C-CODE (R85): an entry with a length of 0 to 255. -/
  | cCode (len : Len) (code : CodeField)
  /-- C-CODE.256 (R85): an entry with length 256. -/
  | cCode256 (code : CodeField)
  /-- C-BAD (R85, R90): an entry with a reserved length. -/
  | cBad (len : Len) (code : CodeField)
  /-- DEC.RESET (R87 line 1, R250). -/
  | decReset
  /-- DEC.START (R87 line 2, R131). -/
  | decStart
  /-- DEC.HOLD (R87 line 3, R142). -/
  | decHold
  /-- INT.B0 (R87 line 4, R133). -/
  | intB0
  /-- INT.B1 (R87 line 5, R134). -/
  | intB1
  /-- INT.END0 (R87 line 6, R135). -/
  | intEnd0
  /-- INT.END1 (R87 line 7, R136). -/
  | intEnd1
  /-- INT.WAIT (R87 line 8, R137). -/
  | intWait
  /-- SYM.OUT (R87 line 9, R138). -/
  | symOut
  /-- SYM.WAIT (R87 line 10, R139). -/
  | symWait
  /-- EOS (R87 line 11, R140). -/
  | eos
  /-- BAD (R87 line 12, R141). -/
  | bad
  /-- ENC.RESET (R88 line 1, R250). -/
  | encReset
  /-- ENC.START (R88 line 2, R171). -/
  | encStart
  /-- ENC.HOLD (R88 line 3, R185). -/
  | encHold
  /-- SYM.OK (R88 line 4, R172). -/
  | symOk
  /-- SYM.MISSING (R88 line 5, R173). -/
  | symMissing
  /-- SYM.BADLEN (R88 line 6, R174). -/
  | symBadlen
  /-- END.OK (R88 line 7, R175). -/
  | endOk
  /-- END.MISSING (R88 line 8, R176). -/
  | endMissing
  /-- END.BADLEN (R88 line 9, R174). -/
  | endBadlen
  /-- FETCH.WAIT (R88 line 10, R177). -/
  | fetchWait
  /-- SHIFT.BIT (R88 line 11, R178). -/
  | shiftBit
  /-- SHIFT.BYTE (R88 line 12, R179). -/
  | shiftByte
  /-- SHIFT.WAIT (R88 line 13, R180). -/
  | shiftWait
  /-- SHIFT.NEXT (R88 line 14, R181). -/
  | shiftNext
  /-- SHIFT.LAST (R88 line 15, R181). -/
  | shiftLast
  /-- FLUSH.BYTE (R88 line 16, R182). -/
  | flushByte
  /-- FLUSH.NONE (R88 line 17, R183). -/
  | flushNone
  /-- FLUSH.WAIT (R88 line 18, R184). -/
  | flushWait
  deriving DecidableEq, Repr

end Sys2Proof
end

