-- ==== Sys2Proof/WellFormed.lean ====
section
/-! DEFINITION. Which terms of `Instr` are words the spec's encodings can hold (R81, R82, R85). -/

namespace Sys2Proof

/-- A reserved node word: bit 9 or above set under the leaf flag, or a `val` above 256 (R82, R90). -/
def Instr.wordBadOk (reserved : BitVec 11) (val : Val) : Bool :=
  reserved != 0 || Nat.blt 256 val.toNat

/-- A length of the row `C-CODE`: 0 to 255 (R85). -/
def Instr.cCodeOk (len : Len) : Bool := Nat.ble len.toNat 255

/-- A reserved length: 257 to 511 (R85, R90). -/
def Instr.cBadOk (len : Len) : Bool := Nat.blt 256 len.toNat

/-- The well-formed instructions: every field at a value its row's encoding admits. -/
def Instr.wellFormed : Instr → Bool
  | .wordInt _ _ => true
  | .wordSym _ => true
  | .wordEos => true
  | .wordBad reserved val => Instr.wordBadOk reserved val
  | .cNone _ _ => true
  | .cCode len _ => Instr.cCodeOk len
  | .cCode256 _ => true
  | .cBad len _ => Instr.cBadOk len
  | .decReset => true
  | .decStart => true
  | .decHold => true
  | .intB0 => true
  | .intB1 => true
  | .intEnd0 => true
  | .intEnd1 => true
  | .intWait => true
  | .symOut => true
  | .symWait => true
  | .eos => true
  | .bad => true
  | .encReset => true
  | .encStart => true
  | .encHold => true
  | .symOk => true
  | .symMissing => true
  | .symBadlen => true
  | .endOk => true
  | .endMissing => true
  | .endBadlen => true
  | .fetchWait => true
  | .shiftBit => true
  | .shiftByte => true
  | .shiftWait => true
  | .shiftNext => true
  | .shiftLast => true
  | .flushByte => true
  | .flushNone => true
  | .flushWait => true

end Sys2Proof
end

