-- ==== Sys2Proof/Decode.lean ====
section
/-! DEFINITION. From bits to instructions (R82, R85, R87, R88) and back; the tables of R82, R85, R87 and R88 as lists of rows. -/

namespace Sys2Proof

/-! ## Node words (R81 to R84) -/

/-- The leaf flag `w[20]` (R81). -/
def leafFlag (w : NodeWord) : Bool := w.getLsbD 20

/-- `left = w[19:10]` of an Internal node (R81). -/
def leftOf (w : NodeWord) : NodeAddr := w.extractLsb' 10 10

/-- `right = w[9:0]` of an Internal node (R81). -/
def rightOf (w : NodeWord) : NodeAddr := w.extractLsb' 0 10

/-- The reserved field `w[19:9]` of a Leaf (R81). -/
def reservedOf (w : NodeWord) : BitVec 11 := w.extractLsb' 9 11

/-- `val = w[8:0]` of a Leaf (R81). -/
def valOf (w : NodeWord) : Val := w.extractLsb' 0 9

/-- The byte `w[7:0]` of a `SYM` leaf (R84). -/
def byteOf (w : NodeWord) : Byte := w.extractLsb' 0 8

/-- `Classify(w)` by the conditions of R82. -/
def classify (w : NodeWord) : NodeKind :=
  if leafFlag w = false then .int
  else if w.extractLsb' 8 12 = 0#12 then .sym
  else if w = 0x100100#21 then .eos
  else .bad

/-- The word row of a node word with its fields (R82). -/
def decodeNode (w : NodeWord) : Instr :=
  match classify w with
  | .int => .wordInt (leftOf w) (rightOf w)
  | .sym => .wordSym (byteOf w)
  | .eos => .wordEos
  | .bad => .wordBad (reservedOf w) (valOf w)

/-! ## Code entries (R85, R86) -/

/-- `valid = e[265]` (R85). -/
def entryValid (e : Entry) : Bool := e.getLsbD 265

/-- `len = e[264:256]` (R85). -/
def entryLen (e : Entry) : Len := e.extractLsb' 256 9

/-- `code = e[255:0]` (R85). -/
def entryCode (e : Entry) : CodeField := e.extractLsb' 0 256

/-- The header `e[265:256] = {valid, len}` (R85). -/
def entryHeader (e : Entry) : BitVec 10 := e.extractLsb' 256 10

/-- `ClassifyEntry(e)` by the conditions of R85. -/
def classifyEntry (e : Entry) : EntryKind :=
  if entryValid e = false then .none
  else if (entryLen e).toNat ≤ 256 then .code
  else .bad

/-- The word row of a code entry with its fields (R85). -/
def decodeEntry (e : Entry) : Instr :=
  match classifyEntry e with
  | .none => .cNone (entryLen e) (entryCode e)
  | .code => if (entryLen e).toNat = 256 then .cCode256 (entryCode e) else .cCode (entryLen e) (entryCode e)
  | .bad => .cBad (entryLen e) (entryCode e)

/-! ## Input vectors (R87, R88) -/

/-- The pins of a decoder input vector: `rst` is bit 5, `out_ready` bit 0 (R87). -/
def DecPins.ofVec (v : BitVec 6) : DecPins :=
  { rst := v.getLsbD 5, start := v.getLsbD 4, bitValid := v.getLsbD 3, bitEof := v.getLsbD 2, bitData := v.getLsbD 1,
    outReady := v.getLsbD 0 }

/-- The decoder input vector of the pins (R87). -/
def DecPins.toVec (p : DecPins) : BitVec 6 :=
  BitVec.ofBoolListBE [p.rst, p.start, p.bitValid, p.bitEof, p.bitData, p.outReady]

/-- The pins of an encoder input vector: `rst` is bit 12, `in_data` bits 7 to 0 (R88). -/
def EncPins.ofVec (v : BitVec 13) : EncPins :=
  { rst := v.getLsbD 12, start := v.getLsbD 11, inValid := v.getLsbD 10, inEof := v.getLsbD 9, outReady := v.getLsbD 8,
    inData := v.extractLsb' 0 8 }

/-- The encoder input vector of the pins (R88). -/
def EncPins.toVec (p : EncPins) : BitVec 13 :=
  (BitVec.ofBoolListBE [p.rst, p.start, p.inValid, p.inEof, p.outReady] : BitVec 5) ++ p.inData

/-! ## Step selection (R87, R88) -/

/-- What the selection of a decoder step looks at (R87): registers, the node word at `node`, the pins. -/
structure DecView where
  dstate : DState
  mid : Bool
  word : NodeWord
  pins : DecPins
  deriving DecidableEq, Repr

/-- What the selection of an encoder step looks at (R88): registers, the entries `es` (of the byte on the pins) and `ee`
(of the sentinel), the pins. -/
structure EncView where
  estate : EState
  cur : Val
  rem : Len
  cnt : BitVec 3
  symEntry : Entry
  eosEntry : Entry
  pins : EncPins
  deriving DecidableEq, Repr

/-- The decoder step of R87: the first line that applies. -/
def selectDec (v : DecView) : Instr :=
  if v.pins.rst then .decReset
  else match v.dstate with
    | .idle => if v.pins.start then .decStart else .decHold
    | .done => if v.pins.start then .decStart else .decHold
    | .run =>
      match classify v.word with
      | .int =>
        if v.pins.bitValid then (if v.pins.bitData then .intB1 else .intB0)
        else if v.pins.bitEof then (if v.mid then .intEnd1 else .intEnd0)
        else .intWait
      | .sym => if v.pins.outReady then .symOut else .symWait
      | .eos => .eos
      | .bad => .bad

/-- The encoder step of R88: the first line that applies. -/
def selectEnc (v : EncView) : Instr :=
  if v.pins.rst then .encReset
  else match v.estate with
    | .idle => if v.pins.start then .encStart else .encHold
    | .done => if v.pins.start then .encStart else .encHold
    | .fetch =>
      if v.pins.inValid then
        match classifyEntry v.symEntry with
        | .code => .symOk
        | .none => .symMissing
        | .bad => .symBadlen
      else if v.pins.inEof then
        match classifyEntry v.eosEntry with
        | .code => .endOk
        | .none => .endMissing
        | .bad => .endBadlen
      else .fetchWait
    | .shift =>
      if v.rem = 0 then (if v.cur = Config.eosVal then .shiftLast else .shiftNext)
      else if v.cnt = 7 then (if v.pins.outReady then .shiftByte else .shiftWait)
      else .shiftBit
    | .flush =>
      if v.cnt = 0 then .flushNone
      else if v.pins.outReady then .flushByte else .flushWait

/-! ## Decoding -/

/-- What has a binary form and is executed (R80): a node word, a code entry, or what selects a step of a block. -/
inductive Fetched where
  | node (w : NodeWord)
  | entry (e : Entry)
  | dec (v : DecView)
  | enc (v : EncView)
  deriving DecidableEq, Repr

/-- The instruction of what was fetched. Total: every word has a kind (R82, R85) and every view a line (R87, R88). -/
def decode : Fetched → Instr
  | .node w => decodeNode w
  | .entry e => decodeEntry e
  | .dec v => selectDec v
  | .enc v => selectEnc v

/-- Why a row of bits is no instruction. -/
inductive DecodeError where
  /-- No row of the table has this many bits. -/
  | noSuchWidth (nbits : Nat)
  /-- A bit is set above the word's own width. -/
  | bitsAboveWord (nbits w : Nat)
  deriving DecidableEq, Repr

/-- A decoder view in IDLE: the input vector alone then selects the step (R87 lines 1 to 3). -/
def DecView.idleWith (p : DecPins) : DecView := { dstate := .idle, mid := false, word := 0, pins := p }

/-- An encoder view in IDLE (R88 lines 1 to 3). -/
def EncView.idleWith (p : EncPins) : EncView :=
  { estate := .idle, cur := 0, rem := 0, cnt := 0, symEntry := 0, eosEntry := 0, pins := p }

/-- The entry with this header and a code field of 0 (R85). -/
def entryOfHeader (h : BitVec 10) : Entry := h ++ (0 : CodeField)

/-- Bits as spec/opcode_table.json numbers them, by the row's whole bytes: 3 bytes a node word (21 bits), 2 bytes the header
`e[265:256]` of a code entry (10 bits) or an encoder input vector (13 bits, told by a bit above 9), 34 bytes a whole code
entry (266 bits), 1 byte a decoder input vector (6 bits) (R93; log 13). -/
def fetchedOfBits (nbits w : Nat) : Except DecodeError Fetched :=
  if nbits = 24 then
    if w < 2 ^ 21 then .ok (.node (BitVec.ofNat 21 w)) else .error (.bitsAboveWord nbits w)
  else if nbits = 16 then
    if w < 2 ^ 10 then .ok (.entry (entryOfHeader (BitVec.ofNat 10 w)))
    else if w < 2 ^ 13 then .ok (.enc (EncView.idleWith (EncPins.ofVec (BitVec.ofNat 13 w))))
    else .error (.bitsAboveWord nbits w)
  else if nbits = 272 then
    if w < 2 ^ 266 then .ok (.entry (BitVec.ofNat 266 w)) else .error (.bitsAboveWord nbits w)
  else if nbits = 8 then
    if w < 2 ^ 6 then .ok (.dec (DecView.idleWith (DecPins.ofVec (BitVec.ofNat 6 w)))) else .error (.bitsAboveWord nbits w)
  else .error (.noSuchWidth nbits)

/-- The instruction of a row of bits, or the name of what is wrong with it. -/
def decodeBits (nbits w : Nat) : Except DecodeError Instr :=
  match fetchedOfBits nbits w with
  | .ok f => .ok (decode f)
  | .error r => .error r

/-- The instruction the decoder reads from a row of bits of spec/opcode_table.json. -/
def decodeTableWord (nbits w : Nat) : Option Instr :=
  match decodeBits nbits w with
  | .ok i => some i
  | .error _ => none

/-! ## Encoding -/

/-- `{leaf = 0, left, right}` (R81). -/
def encodeInt (left right : NodeAddr) : NodeWord := 0#1 ++ left ++ right

/-- `{leaf = 1, reserved, val}` (R81). -/
def encodeLeaf (reserved : BitVec 11) (val : Val) : NodeWord := 1#1 ++ reserved ++ val

/-- `{valid, len, code}` (R85). -/
def encodeEntry (valid : Bool) (len : Len) (code : CodeField) : Entry := BitVec.ofBool valid ++ len ++ code

/-- A decoder view in RUN with the vector `match` of a line of R87. -/
def DecView.runWith (mid : Bool) (w : NodeWord) (din : BitVec 6) : DecView :=
  { dstate := .run, mid := mid, word := w, pins := DecPins.ofVec din }

/-- An encoder view in FETCH with one entry for the byte and one for the sentinel and the vector `match` of a line of R88. -/
def EncView.fetchWith (es ee : Entry) (ein : BitVec 13) : EncView :=
  { estate := .fetch, cur := 0, rem := 0, cnt := 0, symEntry := es, eosEntry := ee, pins := EncPins.ofVec ein }

/-- An encoder view in SHIFT or FLUSH (R88 lines 11 to 18). -/
def EncView.busyWith (st : EState) (cur : Val) (rem : Len) (cnt : BitVec 3) (ein : BitVec 13) : EncView :=
  { estate := st, cur := cur, rem := rem, cnt := cnt, symEntry := 0, eosEntry := 0, pins := EncPins.ofVec ein }

/-- What a well-formed instruction is fetched as: its word (R81, R85), or the state condition, memory word and vector of its
line of R87 or R88 with every bit the line does not look at 0. -/
def encode : Instr → Fetched
  | .wordInt left right => .node (encodeInt left right)
  | .wordSym byte => .node (encodeLeaf 0 (byte.setWidth 9))
  | .wordEos => .node 0x100100
  | .wordBad reserved val => .node (encodeLeaf reserved val)
  | .cNone len code => .entry (encodeEntry false len code)
  | .cCode len code => .entry (encodeEntry true len code)
  | .cCode256 code => .entry (encodeEntry true 256 code)
  | .cBad len code => .entry (encodeEntry true len code)
  | .decReset => .dec (DecView.idleWith (DecPins.ofVec 0x20))
  | .decStart => .dec (DecView.idleWith (DecPins.ofVec 0x10))
  | .decHold => .dec (DecView.idleWith (DecPins.ofVec 0x00))
  | .intB0 => .dec (DecView.runWith false 0x000000 0x08)
  | .intB1 => .dec (DecView.runWith false 0x000000 0x0A)
  | .intEnd0 => .dec (DecView.runWith false 0x000000 0x04)
  | .intEnd1 => .dec (DecView.runWith true 0x000000 0x04)
  | .intWait => .dec (DecView.runWith false 0x000000 0x00)
  | .symOut => .dec (DecView.runWith false 0x100000 0x01)
  | .symWait => .dec (DecView.runWith false 0x100000 0x00)
  | .eos => .dec (DecView.runWith false 0x100100 0x00)
  | .bad => .dec (DecView.runWith false 0x100101 0x00)
  | .encReset => .enc (EncView.idleWith (EncPins.ofVec 0x1000))
  | .encStart => .enc (EncView.idleWith (EncPins.ofVec 0x0800))
  | .encHold => .enc (EncView.idleWith (EncPins.ofVec 0x0000))
  | .symOk => .enc (EncView.fetchWith (entryOfHeader 0x200) 0 0x0400)
  | .symMissing => .enc (EncView.fetchWith (entryOfHeader 0x000) 0 0x0400)
  | .symBadlen => .enc (EncView.fetchWith (entryOfHeader 0x301) 0 0x0400)
  | .endOk => .enc (EncView.fetchWith 0 (entryOfHeader 0x200) 0x0200)
  | .endMissing => .enc (EncView.fetchWith 0 (entryOfHeader 0x000) 0x0200)
  | .endBadlen => .enc (EncView.fetchWith 0 (entryOfHeader 0x301) 0x0200)
  | .fetchWait => .enc (EncView.fetchWith 0 0 0x0000)
  | .shiftBit => .enc (EncView.busyWith .shift 0 1 0 0x0000)
  | .shiftByte => .enc (EncView.busyWith .shift 0 1 7 0x0100)
  | .shiftWait => .enc (EncView.busyWith .shift 0 1 7 0x0000)
  | .shiftNext => .enc (EncView.busyWith .shift 0 0 0 0x0000)
  | .shiftLast => .enc (EncView.busyWith .shift 256 0 0 0x0000)
  | .flushByte => .enc (EncView.busyWith .flush 256 0 1 0x0100)
  | .flushNone => .enc (EncView.busyWith .flush 256 0 0 0x0000)
  | .flushWait => .enc (EncView.busyWith .flush 256 0 1 0x0000)

/-! ## The spec's tables, row by row -/

/-- Mask and match of the rows of R82, in the order they are tried. -/
def nodeRows : List (NodeKind × NodeWord × NodeWord) :=
  [(.int, 0x100000, 0x000000), (.sym, 0x1FFF00, 0x100000), (.eos, 0x1FFFFF, 0x100100), (.bad, 0x100000, 0x100000)]

/-- Mask and match on the header of the rows of R85, in the order they are tried. -/
def entryRows : List (EntryKind × BitVec 10 × BitVec 10) :=
  [(.none, 0x200, 0x000), (.code, 0x300, 0x200), (.code, 0x3FF, 0x300), (.bad, 0x300, 0x300)]

/-- The first row whose masked bits equal its match. -/
def firstRow {α : Type} {n : Nat} (rows : List (α × BitVec n × BitVec n)) (w : BitVec n) : Option α :=
  (rows.find? (fun r => w &&& r.2.1 == r.2.2)).map (·.1)

/-- A line of R87: states before, `mid` where the line names it, node-word kind where it is read, mask and match on `DIN`. -/
structure DecLine where
  states : List DState
  mid : Option Bool
  kind : Option NodeKind
  mask : BitVec 6
  pattern : BitVec 6
  step : Instr
  deriving DecidableEq, Repr

/-- The line's condition holds of a view. -/
def DecLine.applies (l : DecLine) (v : DecView) : Bool :=
  l.states.contains v.dstate && (l.mid == none || l.mid == some v.mid) && (l.kind == none || l.kind == some (classify v.word)) &&
    (v.pins.toVec &&& l.mask == l.pattern)

/-- The table of R87, lines 1 to 12. -/
def decLines : List DecLine :=
  [⟨[.idle, .run, .done], none, none, 0x20, 0x20, .decReset⟩,
   ⟨[.idle, .done], none, none, 0x30, 0x10, .decStart⟩,
   ⟨[.idle, .done], none, none, 0x30, 0x00, .decHold⟩,
   ⟨[.run], none, some .int, 0x2A, 0x08, .intB0⟩,
   ⟨[.run], none, some .int, 0x2A, 0x0A, .intB1⟩,
   ⟨[.run], some false, some .int, 0x2C, 0x04, .intEnd0⟩,
   ⟨[.run], some true, some .int, 0x2C, 0x04, .intEnd1⟩,
   ⟨[.run], none, some .int, 0x2C, 0x00, .intWait⟩,
   ⟨[.run], none, some .sym, 0x21, 0x01, .symOut⟩,
   ⟨[.run], none, some .sym, 0x21, 0x00, .symWait⟩,
   ⟨[.run], none, some .eos, 0x20, 0x00, .eos⟩,
   ⟨[.run], none, some .bad, 0x20, 0x00, .bad⟩]

/-- What a line of R88 asks of the registers and the memory. -/
inductive EncCond where
  | none
  | symKind (k : EntryKind)
  | eosKind (k : EntryKind)
  | bitsLeft (cntIs7 : Bool)
  | codeDone (curIsEos : Bool)
  | pending (some : Bool)
  deriving DecidableEq, Repr

/-- A condition of R88 on registers and memory holds of a view. -/
def EncCond.holds : EncCond → EncView → Bool
  | .none, _ => true
  | .symKind k, v => classifyEntry v.symEntry == k
  | .eosKind k, v => classifyEntry v.eosEntry == k
  | .bitsLeft full, v => v.rem != 0 && (v.cnt == 7) == full
  | .codeDone last, v => v.rem == 0 && (v.cur == Config.eosVal) == last
  | .pending p, v => (v.cnt != 0) == p

/-- A line of R88: states before, condition on registers and memory, mask and match on `EIN`. -/
structure EncLine where
  states : List EState
  cond : EncCond
  mask : BitVec 13
  pattern : BitVec 13
  step : Instr
  deriving DecidableEq, Repr

/-- The line's condition holds of a view. -/
def EncLine.applies (l : EncLine) (v : EncView) : Bool :=
  l.states.contains v.estate && l.cond.holds v && (v.pins.toVec &&& l.mask == l.pattern)

/-- The table of R88, lines 1 to 18. -/
def encLines : List EncLine :=
  [⟨[.idle, .fetch, .shift, .flush, .done], .none, 0x1000, 0x1000, .encReset⟩,
   ⟨[.idle, .done], .none, 0x1800, 0x0800, .encStart⟩,
   ⟨[.idle, .done], .none, 0x1800, 0x0000, .encHold⟩,
   ⟨[.fetch], .symKind .code, 0x1400, 0x0400, .symOk⟩,
   ⟨[.fetch], .symKind .none, 0x1400, 0x0400, .symMissing⟩,
   ⟨[.fetch], .symKind .bad, 0x1400, 0x0400, .symBadlen⟩,
   ⟨[.fetch], .eosKind .code, 0x1600, 0x0200, .endOk⟩,
   ⟨[.fetch], .eosKind .none, 0x1600, 0x0200, .endMissing⟩,
   ⟨[.fetch], .eosKind .bad, 0x1600, 0x0200, .endBadlen⟩,
   ⟨[.fetch], .none, 0x1600, 0x0000, .fetchWait⟩,
   ⟨[.shift], .bitsLeft false, 0x1000, 0x0000, .shiftBit⟩,
   ⟨[.shift], .bitsLeft true, 0x1100, 0x0100, .shiftByte⟩,
   ⟨[.shift], .bitsLeft true, 0x1100, 0x0000, .shiftWait⟩,
   ⟨[.shift], .codeDone false, 0x1000, 0x0000, .shiftNext⟩,
   ⟨[.shift], .codeDone true, 0x1000, 0x0000, .shiftLast⟩,
   ⟨[.flush], .pending true, 0x1100, 0x0100, .flushByte⟩,
   ⟨[.flush], .pending false, 0x1000, 0x0000, .flushNone⟩,
   ⟨[.flush], .pending true, 0x1100, 0x0000, .flushWait⟩]

end Sys2Proof
end

