-- ==== Sys2Proof/Machine/State.lean ====
section
/-! DEFINITION. The state of the two blocks, their memories and their environment as plain data (R20, R21, R26, R33, R50),
the events of the environment, the reasons to stop, and the state after reset. -/

namespace Sys2Proof.Machine

/-- The four registers of `huffman_decoder` (R21). -/
structure DecRegs where
  dstate : DState
  node : NodeAddr
  mid : Bool
  dstatus : StatusCode
  deriving DecidableEq, Repr

/-- The seven registers of `huffman_encoder` (R26). -/
structure EncRegs where
  estate : EState
  cur : Val
  rem : Len
  acc : Byte
  cnt : BitVec 3
  estatus : StatusCode
  errSym : Val
  deriving DecidableEq, Repr

/-- A memory of `n`-bit words (R50): the words the host has written, as (address, word) pairs, addresses strictly rising. -/
abbrev Memory (n : Nat) := List (Nat × BitVec n)

/-- What the environment does next (R237, R64): it gives one block a clock edge with these values on its input pins, or it
writes one word of a memory. -/
inductive Event where
  | decClock (pins : DecPins)
  | encClock (pins : EncPins)
  | writeNode (addr : NodeAddr) (word : NodeWord)
  | writeCode (index : Val) (entry : Entry)
  deriving DecidableEq, Repr

/-- Everything the spec gives the two blocks, and the model's own record of the environment (log 8, log 9). -/
structure State where
  /-- The decoder's registers (R21). -/
  dec : DecRegs
  /-- The encoder's registers (R26). -/
  enc : EncRegs
  /-- `NODE` (R51): the words written; an unlisted one reads as a free value (log 3). -/
  nodeMem : Memory 21
  /-- `CODE` (R52): the entries written; an unlisted one reads as a free value (log 3). -/
  codeMem : Memory 266
  /-- The decoder's input pins in the step being run (R87; the model's own field). -/
  din : DecPins
  /-- The encoder's input pins in the step being run (R88; the model's own field). -/
  ein : EncPins
  /-- What the environment does next, first at the head (R237; the model's own field). -/
  events : List Event
  /-- The bits the decoder has accepted, oldest first (R65 (a); the model's own field). -/
  bitsIn : List Bool
  /-- The bytes the decoder has put out, oldest first (R65 (b); the model's own field). -/
  decOut : List Byte
  /-- The bytes the encoder has accepted, oldest first (the model's own field). -/
  symsIn : List Byte
  /-- The bytes the encoder has put out, oldest first (R65 (b); the model's own field). -/
  encOut : List Byte
  /-- Steps taken, from which the free values are drawn (the model's own field). -/
  tick : Nat
  deriving DecidableEq, Repr

/-- The reasons to stop with a fault. Both are SAFE: no run from reset meets them. -/
inductive Fault where
  /-- An access to `CODE` at an index of 257 to 511, which need not exist (R52): raised by SHIFT.BIT and SHIFT.BYTE with
  `cur` above 256, which no run from reset reaches, and by a host write there. SAFE (log 4). -/
  | codeIndexAbsent (index : Val)
  /-- A code bit above `code[255]`: raised by SHIFT.BIT and SHIFT.BYTE with `rem` above 256, which is never reached and has
  no meaning (R34). SAFE (log 5). -/
  | codeBitAbsent (rem : Len)
  deriving DecidableEq, Repr

/-- The reasons to give no meaning. All are SAFE. -/
inductive Refusal where
  /-- An instruction with no meaning in this model; no arm of exec answers so. SAFE. -/
  | notModelled (mnemonic : String)
  /-- exec was asked for a step in a state and on pins for which R87 or R88 selects another; step never asks so. SAFE (log 6). -/
  | stepNotSelected
  /-- The host wrote a memory while its block was busy, which has no meaning (R64, R254, U6): raised by step on such an event.
  SAFE (log 7). -/
  | memoryChangedInRun
  deriving DecidableEq, Repr

/-- The decoder's reset values (R33). -/
def DecRegs.reset : DecRegs := { dstate := .idle, node := 0, mid := false, dstatus := 0 }

/-- The encoder's reset values (R33). -/
def EncRegs.reset : EncRegs := { estate := .idle, cur := 0, rem := 0, acc := 0, cnt := 0, estatus := 0, errSym := 0 }

/-- The machine right after both blocks were reset (R33, R252): registers at their reset values, no memory word written,
and the model's own fields empty (DESIGN CHOICE, log 9). -/
def State.reset : State :=
  { dec := DecRegs.reset, enc := EncRegs.reset, nodeMem := [], codeMem := [], din := DecPins.low, ein := EncPins.low,
    events := [], bitsIn := [], decOut := [], symsIn := [], encOut := [], tick := 0 }

end Sys2Proof.Machine
end

