-- ==== Sys2Proof/Machine/Ops.lean ====
section
/-! DEFINITION. The shared operations: the two memories, the streams, `raise` (R11, R230) and the way out of it (R232). -/

namespace Sys2Proof.Machine

/-! ## Memory -/

/-- The word written at an address, if the host has written one. -/
def Memory.get? {n : Nat} (m : Memory n) (a : Nat) : Option (BitVec n) :=
  match m with
  | [] => none
  | (k, w) :: rest => if k = a then some w else Memory.get? rest a

/-- A host write of one word: keeps the addresses strictly rising. -/
def Memory.set {n : Nat} (m : Memory n) (a : Nat) (w : BitVec n) : Memory n :=
  match m with
  | [] => [(a, w)]
  | (k, x) :: rest =>
    if a < k then (a, w) :: (k, x) :: rest
    else if a = k then (a, w) :: rest
    else (k, x) :: Memory.set rest a w

/-- Every address is above `lo` and below `depth`, and they rise strictly. -/
def Memory.risingFrom {n : Nat} (depth lo : Nat) (m : Memory n) : Bool :=
  match m with
  | [] => true
  | (k, _) :: rest => Nat.ble lo k && Nat.blt k depth && Memory.risingFrom depth (k + 1) rest

/-- The canonical form: addresses strictly rising and within the memory. An unlisted address is one the host has not
written, so no listed word can equal what it reads as, and equal memories are equal lists (log 3, log 19). -/
def Memory.wf {n : Nat} (depth : Nat) (m : Memory n) : Bool := Memory.risingFrom depth 0 m

/-- `MemRead(NODE, a)` (R9): the word written there, else a free value (R252, U7). -/
def State.nodeAt (s : State) (a : NodeAddr) : NodeWord :=
  (Memory.get? s.nodeMem a.toNat).getD (Config.unwrittenNode a)

/-- `MemRead(CODE, i)` (R9): the entry written there, else a free value (R252, U7). Only asked for `i` up to 256. -/
def State.codeAt (s : State) (i : Val) : Entry :=
  (Memory.get? s.codeMem i.toNat).getD (Config.unwrittenCode i)

/-- The node word the decoder executes in RUN (R132). -/
def State.nodeWord (s : State) : NodeWord := s.nodeAt s.dec.node

/-- A host write of one node word (R253). -/
def State.setNode (a : NodeAddr) (w : NodeWord) (s : State) : State :=
  { s with nodeMem := Memory.set s.nodeMem a.toNat w }

/-- A host write of one code entry (R253). -/
def State.setCode (i : Val) (e : Entry) (s : State) : State :=
  { s with codeMem := Memory.set s.codeMem i.toNat e }

/-! ## Registers and pins -/

/-- The decoder's registers replaced. -/
def State.setDec (d : DecRegs) (s : State) : State := { s with dec := d }

/-- The encoder's registers replaced. -/
def State.setEnc (e : EncRegs) (s : State) : State := { s with enc := e }

/-- The environment drives the decoder's pins. -/
def State.driveDec (p : DecPins) (s : State) : State := { s with din := p }

/-- The environment drives the encoder's pins. -/
def State.driveEnc (p : EncPins) (s : State) : State := { s with ein := p }

/-- What R87 looks at in this state. -/
def State.decView (s : State) : DecView :=
  { dstate := s.dec.dstate, mid := s.dec.mid, word := s.nodeWord, pins := s.din }

/-- What R88 looks at in this state: `es` is the entry of `zext_9(in_data)`, `ee` that of 256. -/
def State.encView (s : State) : EncView :=
  { estate := s.enc.estate, cur := s.enc.cur, rem := s.enc.rem, cnt := s.enc.cnt,
    symEntry := s.codeAt (s.ein.inData.setWidth 9), eosEntry := s.codeAt Config.eosVal, pins := s.ein }

/-- A decoder step has its effect where R87 selects it, and no meaning elsewhere (log 6). -/
def onDecLine (i : Instr) (s : State) (effect : Host.Outcome State Fault Refusal) : Host.Outcome State Fault Refusal :=
  if selectDec s.decView = i then effect else .refused .stepNotSelected

/-- An encoder step has its effect where R88 selects it, and no meaning elsewhere (log 6). -/
def onEncLine (i : Instr) (s : State) (effect : Host.Outcome State Fault Refusal) : Host.Outcome State Fault Refusal :=
  if selectEnc s.encView = i then effect else .refused .stepNotSelected

/-! ## Streams -/

/-- The decoder accepts a bit (R10 `BitIn`). -/
def State.takeBit (b : Bool) (s : State) : State := { s with bitsIn := s.bitsIn ++ [b] }

/-- The decoder's sink takes a byte (R10 `ByteOut`). -/
def State.putDecByte (v : Byte) (s : State) : State := { s with decOut := s.decOut ++ [v] }

/-- The encoder accepts a symbol (R10 `SymIn`). -/
def State.takeSym (v : Byte) (s : State) : State := { s with symsIn := s.symsIn ++ [v] }

/-- The encoder's sink takes a byte (R10 `ByteOut`). -/
def State.putEncByte (v : Byte) (s : State) : State := { s with encOut := s.encOut ++ [v] }

/-! ## Ending a run (R11, R230, R140, R182) and beginning one (R131, R171, R232) -/

/-- The decoder's run ends with a code: FSM state DONE, the code in `dstatus`, nothing else (R230; R140 for `OK`). -/
def State.endDec (code : StatusCode) (s : State) : State :=
  s.setDec { s.dec with dstate := .done, dstatus := code }

/-- `raise <Condition>(v)` in the encoder: DONE, the code in `estatus`, `v` in `err_sym`, nothing else (R11, R230). -/
def State.raiseEnc (code : StatusCode) (v : Val) (s : State) : State :=
  s.setEnc { s.enc with estate := .done, estatus := code, errSym := v }

/-- The encoder's run ends normally: DONE and the code (R182, R183). -/
def State.endEnc (code : StatusCode) (s : State) : State :=
  s.setEnc { s.enc with estate := .done, estatus := code }

/-- The only way out of DONE but reset: an accepted `start` (R232, R131). -/
def State.startDec (s : State) : State :=
  s.setDec { dstate := .run, node := Config.root, mid := false, dstatus := 0 }

/-- The only way out of DONE but reset: an accepted `start` (R232, R171). -/
def State.startEnc (s : State) : State :=
  s.setEnc { estate := .fetch, cur := 0, rem := 0, acc := 0, cnt := 0, estatus := 0, errSym := 0 }

/-! ## The moves of the decoder (R22) and of the encoder (R27, R28) -/

/-- `node <- child; mid <- 1` after a bit (R133, R134). -/
def State.goChild (child : NodeAddr) (s : State) : State :=
  s.setDec { s.dec with node := child, mid := true }

/-- `node <- ROOT; mid <- 0` after a byte (R138). -/
def State.goRoot (s : State) : State :=
  s.setDec { s.dec with node := Config.root, mid := false }

/-- `cur <- v; rem <- len; estate <- SHIFT` (R172, R175). -/
def State.loadCode (v : Val) (len : Len) (s : State) : State :=
  s.setEnc { s.enc with estate := .shift, cur := v, rem := len }

/-- The FSM state of the encoder alone is written (R181). -/
def State.goEnc (st : EState) (s : State) : State :=
  s.setEnc { s.enc with estate := st }

end Sys2Proof.Machine
end

