-- ==== Sys2Proof/Machine/Operands.lean ====
section
/-! DEFINITION. The operand forms: child by bit (R83), leaf byte (R84), index of a byte (R88), next code bit (R27, R86), the
accumulator with one bit written (R178) and the byte it completes (R179). -/

namespace Sys2Proof.Machine

/-- `Child(w, b)` (R83): left for 0, right for 1; a plain node address. -/
def child (w : NodeWord) (b : Bool) : NodeAddr := if b then rightOf w else leftOf w

/-- `zext_9` of a byte: the index of its code entry (R88). -/
def symIndex (b : Byte) : Val := b.setWidth 9

/-- `CodeBits(e)` (R86): `[e[n-1], …, e[0]]` for `n = len`. -/
def codeBits (e : Entry) : List Bool :=
  (List.range (entryLen e).toNat).map (fun j => e.getLsbD ((entryLen e).toNat - 1 - j))

/-- `e[rem-1]` of the entry at `cur`, as it stands on the wires (R27, R31). -/
def State.nextBit (s : State) : Bool := (s.codeAt s.enc.cur).getLsbD (s.enc.rem.toNat - 1)

/-- The code bit a step writes (R178, R179): absent where `CODE` has no such entry (R52) or the code field no such bit (R34). -/
def State.fetchBit (s : State) : Except Fault Bool :=
  if 256 < s.enc.cur.toNat then .error (.codeIndexAbsent s.enc.cur)
  else if 256 < s.enc.rem.toNat then .error (.codeBitAbsent s.enc.rem)
  else .ok s.nextBit

/-- `acc[7-cnt] <- b`, the other bits keep their values (R178). -/
def accWith (acc : Byte) (cnt : BitVec 3) (b : Bool) : Byte :=
  let m : Byte := (1 : Byte) <<< (7 - cnt.toNat)
  if b then acc ||| m else acc &&& ~~~m

/-- `{acc[7:1], b}` (R179). -/
def accByte (acc : Byte) (b : Bool) : Byte := (acc.extractLsb' 1 7 : BitVec 7) ++ BitVec.ofBool b

/-- `acc[7-cnt] <- b; cnt <- cnt + 1; rem <- rem - 1` (R178). -/
def State.pushBit (b : Bool) (s : State) : State :=
  s.setEnc { s.enc with acc := accWith s.enc.acc s.enc.cnt b, cnt := s.enc.cnt + 1, rem := s.enc.rem - 1 }

/-- `acc <- 0; cnt <- 0; rem <- rem - 1` (R179). -/
def State.byteDone (s : State) : State :=
  s.setEnc { s.enc with acc := 0, cnt := 0, rem := s.enc.rem - 1 }

/-- `acc <- 0; cnt <- 0` (R182). -/
def State.clearWriter (s : State) : State :=
  s.setEnc { s.enc with acc := 0, cnt := 0 }

end Sys2Proof.Machine
end

