-- ==== Sys2Proof/Machine/Flags.lean ====
section
/-! DEFINITION. The status codes (R89), the codes of the FSM states (R21, R26), and the outputs of the two blocks (R25, R31),
each a function of the state before the step and of the memory word that state addresses. -/

namespace Sys2Proof.Machine

/-- `NONE` (R89). -/
def stNone : StatusCode := 0
/-- `OK` (R89). -/
def stOk : StatusCode := 1
/-- `END_NO_EOS` (R89). -/
def stEndNoEos : StatusCode := 2
/-- `TRUNCATED` (R89). -/
def stTruncated : StatusCode := 3
/-- `BAD_NODE` (R89). -/
def stBadNode : StatusCode := 4
/-- `UNENCODABLE` (R89). -/
def stUnencodable : StatusCode := 5
/-- `BAD_ENTRY` (R89). -/
def stBadEntry : StatusCode := 6

/-- The code of `dstate` (R21). -/
def dstateCode : DState → BitVec 2
  | .idle => 0
  | .run => 1
  | .done => 2

/-- The code of `estate` (R26). -/
def estateCode : EState → BitVec 3
  | .idle => 0
  | .fetch => 1
  | .shift => 2
  | .flush => 3
  | .done => 4

/-- The `err` column of R89. -/
def statusErr (c : StatusCode) : Bool :=
  c == stTruncated || c == stBadNode || c == stUnencodable || c == stBadEntry

/-! ## Decoder outputs (R25) -/

/-- `busy` (R25). -/
def State.decBusy (s : State) : Bool := s.dec.dstate == .run
/-- `done` (R25). -/
def State.decDone (s : State) : Bool := s.dec.dstate == .done
/-- `status` (R25). -/
def State.decStatus (s : State) : StatusCode := s.dec.dstatus
/-- `err` (R25). -/
def State.decErr (s : State) : Bool := s.dec.dstatus == stTruncated || s.dec.dstatus == stBadNode
/-- `bit_ready` (R25). -/
def State.bitReady (s : State) : Bool := s.dec.dstate == .run && classify s.nodeWord == .int
/-- `out_valid` of the decoder (R25). -/
def State.decOutValid (s : State) : Bool := s.dec.dstate == .run && classify s.nodeWord == .sym
/-- `out_data` of the decoder (R25): a free value while `out_valid` is 0 (log 11). -/
def State.decOutData (s : State) : Byte :=
  if s.decOutValid then byteOf s.nodeWord else Config.freeDecOutData s.tick

/-! ## Encoder outputs (R31) -/

/-- `busy` (R31). -/
def State.encBusy (s : State) : Bool := s.enc.estate == .fetch || s.enc.estate == .shift || s.enc.estate == .flush
/-- `done` (R31). -/
def State.encDone (s : State) : Bool := s.enc.estate == .done
/-- `status` (R31). -/
def State.encStatus (s : State) : StatusCode := s.enc.estatus
/-- `err` (R31). -/
def State.encErr (s : State) : Bool := s.enc.estatus == stUnencodable || s.enc.estatus == stBadEntry
/-- `err_sym` (R31). -/
def State.encErrSym (s : State) : Val := s.enc.errSym
/-- `in_ready` (R31). -/
def State.inReady (s : State) : Bool := s.enc.estate == .fetch
/-- The encoder is in SHIFT with a byte complete (R31). -/
def State.shiftFull (s : State) : Bool := s.enc.estate == .shift && s.enc.rem != 0 && s.enc.cnt == 7
/-- The encoder is in FLUSH with bits pending (R31). -/
def State.flushFull (s : State) : Bool := s.enc.estate == .flush && s.enc.cnt != 0
/-- `out_valid` of the encoder (R31). -/
def State.encOutValid (s : State) : Bool := s.shiftFull || s.flushFull
/-- `out_data` of the encoder (R31): a free value while `out_valid` is 0 (log 11). -/
def State.encOutData (s : State) : Byte :=
  if s.shiftFull then accByte s.enc.acc s.nextBit
  else if s.flushFull then s.enc.acc
  else Config.freeEncOutData s.tick

end Sys2Proof.Machine
end

