-- ==== Sys2Proof/Machine/NodeWords.lean ====
section
/-! DEFINITION. The four node-word kinds as the decoder executes them (R80 (a), R82, R132): what one step in RUN does with
such a word under the pins of the step (R87 lines 4 to 12; log 17). -/

namespace Sys2Proof.Machine

/-- The decoder executes a word only in RUN and with `rst = 0` (R87). -/
def inRun (s : State) (effect : Host.Outcome State Fault Refusal) : Host.Outcome State Fault Refusal :=
  if s.dec.dstate = .run ∧ s.din.rst = false then effect else .refused .stepNotSelected

/-- WORD.INT: take the bit offered and go to a child, or end on exhaustion, or wait (R133 to R137). -/
def execWordInt (left right : NodeAddr) (s : State) : Host.Outcome State Fault Refusal :=
  inRun s
    (if s.din.bitValid then .next ((s.takeBit s.din.bitData).goChild (if s.din.bitData then right else left))
     else if s.din.bitEof then .next (s.endDec (if s.dec.mid then stTruncated else stEndNoEos))
     else .next s)

/-- WORD.SYM: put the byte out and go to the root, or wait for the sink (R138, R139). -/
def execWordSym (byte : Byte) (s : State) : Host.Outcome State Fault Refusal :=
  inRun s (if s.din.outReady then .next ((s.putDecByte byte).goRoot) else .next s)

/-- WORD.EOS: the sentinel ends the run with `OK` (R140). -/
def execWordEos (s : State) : Host.Outcome State Fault Refusal :=
  inRun s (.next (s.endDec stOk))

/-- WORD.BAD: a reserved word ends the run with `BAD_NODE`, whatever its fields (R141, R90). -/
def execWordBad (_reserved : BitVec 11) (_val : Val) (s : State) : Host.Outcome State Fault Refusal :=
  inRun s (.next (s.endDec stBadNode))

end Sys2Proof.Machine
end

