-- ==== Sys2Proof/Machine/CodeEntries.lean ====
section
/-! DEFINITION. The code-entry kinds as the encoder looks them up in FETCH (R80 (b), R85): what one step in FETCH does when
the entry it looks up is this one (R88 lines 4 to 10; log 17). -/

namespace Sys2Proof.Machine

/-- The encoder looks an entry up only in FETCH and with `rst = 0` (R88). -/
def inFetch (s : State) (effect : Host.Outcome State Fault Refusal) : Host.Outcome State Fault Refusal :=
  if s.enc.estate = .fetch ∧ s.ein.rst = false then effect else .refused .stepNotSelected

/-- A lookup in FETCH: of a symbol offered, else of the sentinel on exhaustion, else none (R88, R229). -/
def lookup (s : State) (found : Val → State → State) : Host.Outcome State Fault Refusal :=
  inFetch s
    (if s.ein.inValid then .next (found (symIndex s.ein.inData) (s.takeSym s.ein.inData))
     else if s.ein.inEof then .next (found Config.eosVal s)
     else .next s)

/-- C-NONE: the value looked up is unencodable (R173, R176); the other fields are not looked at. -/
def execCNone (_len : Len) (_code : CodeField) (s : State) : Host.Outcome State Fault Refusal :=
  lookup s (fun v t => t.raiseEnc stUnencodable v)

/-- C-CODE: the code is loaded (R172, R175). -/
def execCCode (len : Len) (_code : CodeField) (s : State) : Host.Outcome State Fault Refusal :=
  lookup s (fun v t => t.loadCode v len)

/-- C-CODE.256: a code of 256 bits is loaded (R172, R175). -/
def execCCode256 (_code : CodeField) (s : State) : Host.Outcome State Fault Refusal :=
  lookup s (fun v t => t.loadCode v 256)

/-- C-BAD: the entry has a reserved length (R174). -/
def execCBad (_len : Len) (_code : CodeField) (s : State) : Host.Outcome State Fault Refusal :=
  lookup s (fun v t => t.raiseEnc stBadEntry v)

end Sys2Proof.Machine
end

