-- ==== Sys2Proof/Machine/DecoderSteps.lean ====
section
/-! DEFINITION. The twelve steps of `huffman_decoder` (R87), one definition per row, each under its rule of 41_decoder.md. -/

namespace Sys2Proof.Machine

/-- DEC.RESET: every register of the decoder takes its reset value; nothing is transferred (R250). -/
def execDecReset (s : State) : Host.Outcome State Fault Refusal :=
  onDecLine .decReset s (.next (s.setDec DecRegs.reset))

/-- DEC.START: a run begins at ROOT with status NONE (R131). -/
def execDecStart (s : State) : Host.Outcome State Fault Refusal :=
  onDecLine .decStart s (.next s.startDec)

/-- DEC.HOLD: no register is written (R142). -/
def execDecHold (s : State) : Host.Outcome State Fault Refusal :=
  onDecLine .decHold s (.next s)

/-- INT.B0: the bit 0 is taken; go left (R133). -/
def execIntB0 (s : State) : Host.Outcome State Fault Refusal :=
  onDecLine .intB0 s (.next ((s.takeBit false).goChild (child s.nodeWord false)))

/-- INT.B1: the bit 1 is taken; go right (R134). -/
def execIntB1 (s : State) : Host.Outcome State Fault Refusal :=
  onDecLine .intB1 s (.next ((s.takeBit true).goChild (child s.nodeWord true)))

/-- INT.END0: exhaustion at a clean boundary: raise EndNoEos (R135). -/
def execIntEnd0 (s : State) : Host.Outcome State Fault Refusal :=
  onDecLine .intEnd0 s (.next (s.endDec stEndNoEos))

/-- INT.END1: exhaustion inside a symbol: raise TruncatedStream (R136). -/
def execIntEnd1 (s : State) : Host.Outcome State Fault Refusal :=
  onDecLine .intEnd1 s (.next (s.endDec stTruncated))

/-- INT.WAIT: no bit and no exhaustion: no register is written (R137). -/
def execIntWait (s : State) : Host.Outcome State Fault Refusal :=
  onDecLine .intWait s (.next s)

/-- SYM.OUT: the byte of the leaf is put out; back to the root (R138). -/
def execSymOut (s : State) : Host.Outcome State Fault Refusal :=
  onDecLine .symOut s (.next ((s.putDecByte (byteOf s.nodeWord)).goRoot))

/-- SYM.WAIT: the sink is not ready: no register is written (R139). -/
def execSymWait (s : State) : Host.Outcome State Fault Refusal :=
  onDecLine .symWait s (.next s)

/-- EOS: the sentinel ends the run with `OK` (R140). -/
def execEos (s : State) : Host.Outcome State Fault Refusal :=
  onDecLine .eos s (.next (s.endDec stOk))

/-- BAD: a reserved word: raise BadNode (R141). -/
def execBad (s : State) : Host.Outcome State Fault Refusal :=
  onDecLine .bad s (.next (s.endDec stBadNode))

end Sys2Proof.Machine
end

