-- ==== Sys2Proof/Machine/EncoderSteps.lean ====
section
/-! DEFINITION. The eighteen steps of `huffman_encoder` (R88), one definition per row, each under its rule of 43_encoder.md. -/

namespace Sys2Proof.Machine

/-- ENC.RESET: every register of the encoder takes its reset value; nothing is transferred (R250). -/
def execEncReset (s : State) : Host.Outcome State Fault Refusal :=
  onEncLine .encReset s (.next (s.setEnc EncRegs.reset))

/-- ENC.START: a run begins with an empty bit writer and status NONE (R171). -/
def execEncStart (s : State) : Host.Outcome State Fault Refusal :=
  onEncLine .encStart s (.next s.startEnc)

/-- ENC.HOLD: no register is written (R185). -/
def execEncHold (s : State) : Host.Outcome State Fault Refusal :=
  onEncLine .encHold s (.next s)

/-- SYM.OK: the symbol is taken and its code loaded (R172). -/
def execSymOk (s : State) : Host.Outcome State Fault Refusal :=
  onEncLine .symOk s
    (.next ((s.takeSym s.ein.inData).loadCode (symIndex s.ein.inData) (entryLen (s.codeAt (symIndex s.ein.inData)))))

/-- SYM.MISSING: the symbol is taken: raise UnencodableSymbol (R173). -/
def execSymMissing (s : State) : Host.Outcome State Fault Refusal :=
  onEncLine .symMissing s (.next ((s.takeSym s.ein.inData).raiseEnc stUnencodable (symIndex s.ein.inData)))

/-- SYM.BADLEN: the symbol is taken: raise BadEntry (R174). -/
def execSymBadlen (s : State) : Host.Outcome State Fault Refusal :=
  onEncLine .symBadlen s (.next ((s.takeSym s.ein.inData).raiseEnc stBadEntry (symIndex s.ein.inData)))

/-- END.OK: the input is exhausted: the sentinel's code is loaded (R175). -/
def execEndOk (s : State) : Host.Outcome State Fault Refusal :=
  onEncLine .endOk s (.next (s.loadCode Config.eosVal (entryLen (s.codeAt Config.eosVal))))

/-- END.MISSING: the table has no sentinel: raise UnencodableSymbol(256) (R176). -/
def execEndMissing (s : State) : Host.Outcome State Fault Refusal :=
  onEncLine .endMissing s (.next (s.raiseEnc stUnencodable Config.eosVal))

/-- END.BADLEN: the sentinel's entry has a reserved length: raise BadEntry(256) (R174). -/
def execEndBadlen (s : State) : Host.Outcome State Fault Refusal :=
  onEncLine .endBadlen s (.next (s.raiseEnc stBadEntry Config.eosVal))

/-- FETCH.WAIT: no symbol and no exhaustion: no register is written (R177). -/
def execFetchWait (s : State) : Host.Outcome State Fault Refusal :=
  onEncLine .fetchWait s (.next s)

/-- What a step that writes a code bit does with it, or the fault of a bit that does not exist (log 4, log 5). -/
def withBit (s : State) (k : Bool → State) : Host.Outcome State Fault Refusal :=
  match s.fetchBit with
  | .ok b => .next (k b)
  | .error f => .fault f

/-- SHIFT.BIT: the next code bit goes into the accumulator (R178). -/
def execShiftBit (s : State) : Host.Outcome State Fault Refusal :=
  onEncLine .shiftBit s (withBit s (fun b => s.pushBit b))

/-- SHIFT.BYTE: the next code bit completes a byte, which is put out (R179). -/
def execShiftByte (s : State) : Host.Outcome State Fault Refusal :=
  onEncLine .shiftByte s (withBit s (fun b => (s.putEncByte (accByte s.enc.acc b)).byteDone))

/-- SHIFT.WAIT: the byte is complete and the sink not ready: no register is written (R180). -/
def execShiftWait (s : State) : Host.Outcome State Fault Refusal :=
  onEncLine .shiftWait s (.next s)

/-- SHIFT.NEXT: the code of a symbol is finished: back to FETCH (R181). -/
def execShiftNext (s : State) : Host.Outcome State Fault Refusal :=
  onEncLine .shiftNext s (.next (s.goEnc .fetch))

/-- SHIFT.LAST: the code of the sentinel is finished: on to FLUSH (R181). -/
def execShiftLast (s : State) : Host.Outcome State Fault Refusal :=
  onEncLine .shiftLast s (.next (s.goEnc .flush))

/-- FLUSH.BYTE: the pending bits go out as a byte padded with zeros; the run ends with `OK` (R182). -/
def execFlushByte (s : State) : Host.Outcome State Fault Refusal :=
  onEncLine .flushByte s (.next (((s.putEncByte s.enc.acc).clearWriter).endEnc stOk))

/-- FLUSH.NONE: nothing is pending; the run ends with `OK` (R183). -/
def execFlushNone (s : State) : Host.Outcome State Fault Refusal :=
  onEncLine .flushNone s (.next (s.endEnc stOk))

/-- FLUSH.WAIT: bits are pending and the sink not ready: no register is written (R184). -/
def execFlushWait (s : State) : Host.Outcome State Fault Refusal :=
  onEncLine .flushWait s (.next s)

end Sys2Proof.Machine
end

