-- ==== Sys2Proof/Machine/Dispatch.lean ====
section
/-! DEFINITION. One arm per row of spec/opcode_table.json. -/

namespace Sys2Proof.Machine

def exec (i : Instr) (s : State) : Host.Outcome State Fault Refusal :=
  match i with
  | .wordInt left right => Sys2Proof.Machine.execWordInt left right s
  | .wordSym byte => Sys2Proof.Machine.execWordSym byte s
  | .wordEos => Sys2Proof.Machine.execWordEos s
  | .wordBad reserved val => Sys2Proof.Machine.execWordBad reserved val s
  | .cNone len code => Sys2Proof.Machine.execCNone len code s
  | .cCode len code => Sys2Proof.Machine.execCCode len code s
  | .cCode256 code => Sys2Proof.Machine.execCCode256 code s
  | .cBad len code => Sys2Proof.Machine.execCBad len code s
  | .decReset => Sys2Proof.Machine.execDecReset s
  | .decStart => Sys2Proof.Machine.execDecStart s
  | .decHold => Sys2Proof.Machine.execDecHold s
  | .intB0 => Sys2Proof.Machine.execIntB0 s
  | .intB1 => Sys2Proof.Machine.execIntB1 s
  | .intEnd0 => Sys2Proof.Machine.execIntEnd0 s
  | .intEnd1 => Sys2Proof.Machine.execIntEnd1 s
  | .intWait => Sys2Proof.Machine.execIntWait s
  | .symOut => Sys2Proof.Machine.execSymOut s
  | .symWait => Sys2Proof.Machine.execSymWait s
  | .eos => Sys2Proof.Machine.execEos s
  | .bad => Sys2Proof.Machine.execBad s
  | .encReset => Sys2Proof.Machine.execEncReset s
  | .encStart => Sys2Proof.Machine.execEncStart s
  | .encHold => Sys2Proof.Machine.execEncHold s
  | .symOk => Sys2Proof.Machine.execSymOk s
  | .symMissing => Sys2Proof.Machine.execSymMissing s
  | .symBadlen => Sys2Proof.Machine.execSymBadlen s
  | .endOk => Sys2Proof.Machine.execEndOk s
  | .endMissing => Sys2Proof.Machine.execEndMissing s
  | .endBadlen => Sys2Proof.Machine.execEndBadlen s
  | .fetchWait => Sys2Proof.Machine.execFetchWait s
  | .shiftBit => Sys2Proof.Machine.execShiftBit s
  | .shiftByte => Sys2Proof.Machine.execShiftByte s
  | .shiftWait => Sys2Proof.Machine.execShiftWait s
  | .shiftNext => Sys2Proof.Machine.execShiftNext s
  | .shiftLast => Sys2Proof.Machine.execShiftLast s
  | .flushByte => Sys2Proof.Machine.execFlushByte s
  | .flushNone => Sys2Proof.Machine.execFlushNone s
  | .flushWait => Sys2Proof.Machine.execFlushWait s

end Sys2Proof.Machine
end

