-- ==== Sys2Proof/Machine/Fetch.lean ====
section
/-! DEFINITION. What step runs next: the environment's next event (R237), the step R87 or R88 selects on it, and the host's
writes into the memories (R64, R253). Also how an instruction is placed where the next step runs it (log 12). -/

namespace Sys2Proof.Machine

/-- The event the environment makes of its free choice in a step for which State lists none (log 8). -/
def freeEvent (tick : Nat) : Event :=
  if Config.freeClocksDecoder tick then .decClock (DecPins.ofVec (Config.freeDin tick))
  else .encClock (EncPins.ofVec (Config.freeEin tick))

/-- The next event: the head of the list, or the environment's free choice. -/
def State.nextEvent (s : State) : Event :=
  match s.events with
  | e :: _ => e
  | [] => freeEvent s.tick

/-- The state once that event is under way: it is off the list and the step is counted. -/
def State.advance (s : State) : State := { s with events := s.events.tail, tick := s.tick + 1 }

/-- What a step does. -/
inductive Turn where
  /-- It runs an instruction. -/
  | run (i : Instr) (s : State)
  /-- The host has written a memory word. -/
  | loaded (s : State)
  | stop (r : Refusal)
  | fault (f : Fault)

/-- The host writes a word of `NODE`: only while the decoder is in IDLE or DONE (R64). -/
def hostWriteNode (a : NodeAddr) (w : NodeWord) (s : State) : Turn :=
  if s.decBusy then .stop .memoryChangedInRun else .loaded (s.setNode a w)

/-- The host writes an entry of `CODE`: only at an index that exists (R52) and while the encoder is in IDLE or DONE (R64). -/
def hostWriteCode (i : Val) (e : Entry) (s : State) : Turn :=
  if 256 < i.toNat then .fault (.codeIndexAbsent i)
  else if s.encBusy then .stop .memoryChangedInRun else .loaded (s.setCode i e)

/-- An event in a state: a clock edge runs the step that R87 or R88 selects on the pins of that edge (R260). -/
def turn (ev : Event) (s : State) : Turn :=
  match ev with
  | .decClock p => .run (selectDec (s.driveDec p).decView) (s.driveDec p)
  | .encClock p => .run (selectEnc (s.driveEnc p).encView) (s.driveEnc p)
  | .writeNode a w => hostWriteNode a w s
  | .writeCode i e => hostWriteCode i e s

/-- The event of the next step and the state it meets. -/
def fetchTurn (s : State) : Turn := turn s.nextEvent s.advance

/-- An event put before the others. -/
def State.before (ev : Event) (s : State) : State := { s with events := ev :: s.events }

/-- Pins on which every node word has the effect that does not wait: a bit 0 is offered and the sink is ready. -/
def placePinsDec : DecPins := { DecPins.low with bitValid := true, outReady := true }

/-- Pins on which every code entry is looked up: the byte 0 is offered and the sink is ready. -/
def placePinsEnc : EncPins := { EncPins.low with inValid := true, outReady := true }

/-- A fetched thing placed where the next step runs it (log 12): a node word at `node` with the decoder in RUN, an entry at
the index of the byte offered with the encoder in FETCH, a view in the registers, memory words and pins it names. -/
def placeFetched (f : Fetched) (s : State) : State :=
  match f with
  | .node w =>
    ((s.setNode s.dec.node w).setDec { s.dec with dstate := .run, dstatus := stNone }).before (.decClock placePinsDec)
  | .entry e =>
    ((s.setCode 0 e).setEnc { s.enc with estate := .fetch, estatus := stNone, errSym := 0 }).before (.encClock placePinsEnc)
  | .dec v =>
    match v.dstate with
    | .idle => (s.setDec { s.dec with dstate := .idle, dstatus := stNone }).before (.decClock v.pins)
    | .done => (s.setDec { s.dec with dstate := .done, dstatus := stOk }).before (.decClock v.pins)
    | .run =>
      ((s.setNode s.dec.node v.word).setDec { s.dec with dstate := .run, mid := v.mid, dstatus := stNone }).before
        (.decClock v.pins)
  | .enc v =>
    (((s.setCode (symIndex v.pins.inData) v.symEntry).setCode Config.eosVal v.eosEntry).setEnc
      { s.enc with
        estate := v.estate, cur := v.cur, rem := v.rem, cnt := v.cnt,
        estatus := if v.estate = .done then stOk else stNone, errSym := 0 }).before (.encClock v.pins)

/-- The bits of a row placed where the next step runs them; bits that are no row leave the state alone. -/
def placeFetchWord (nbits w : Nat) (s : State) : State :=
  match fetchedOfBits nbits w with
  | .ok f => placeFetched f s
  | .error _ => s

end Sys2Proof.Machine
end

