-- ==== Sys2Proof/Machine/Step.lean ====
section
/-! DEFINITION. One step of the machine: one event of the environment (R8, R237, R260). -/

namespace Sys2Proof.Machine

/-- One step: the next event gives a block one clock edge, and exec runs the step that R87 or R88 selects on it; or the host
writes a memory word. -/
def step (s : State) : Host.Outcome State Fault Refusal :=
  match fetchTurn s with
  | .run i t => exec i t
  | .loaded t => .next t
  | .stop r => .refused r
  | .fault f => .fault f

/-- `s` with the row's bits placed so that the very next step runs that instruction (log 12). -/
def State.withFetchWord (s : State) (nbits w : Nat) : State := placeFetchWord nbits w s

end Sys2Proof.Machine
end

