-- ==== Sys2Proof/Machine/Tree.lean ====
section
/-! DEFINITION. The tree and its image in the node memory (40_tree_image.md R110 to R120). -/

namespace Sys2Proof.Machine

/-- The value of a leaf: a byte symbol or the sentinel, mutually exclusive (R6, R110). -/
inductive LeafValue where
  | sym (b : Byte)
  | eos
  deriving DecidableEq, Repr

/-- The tree: a strict binary tree (R110). -/
inductive Tree where
  | leaf (v : LeafValue)
  | internal (left right : Tree)
  deriving DecidableEq, Repr

/-- The `Val` of a leaf value (R6). -/
def LeafValue.val : LeafValue → Val
  | .sym b => symIndex b
  | .eos => Config.eosVal

/-- `Codes(t, p)` (R111): every leaf with its path, left before right. -/
def Tree.codesFrom (p : List Bool) : Tree → List (LeafValue × List Bool)
  | .leaf v => [(v, p)]
  | .internal l r => Tree.codesFrom (p ++ [false]) l ++ Tree.codesFrom (p ++ [true]) r

/-- `Codes(t)` (R111). -/
def Tree.codes (t : Tree) : List (LeafValue × List Bool) := t.codesFrom []

/-- The leaf values, left to right. -/
def Tree.leaves : Tree → List LeafValue
  | .leaf v => [v]
  | .internal l r => l.leaves ++ r.leaves

/-- The number of nodes (R116). -/
def Tree.size : Tree → Nat
  | .leaf _ => 1
  | .internal l r => 1 + l.size + r.size

/-- The number of Internal nodes (R116). -/
def Tree.internals : Tree → Nat
  | .leaf _ => 0
  | .internal l r => 1 + l.internals + r.internals

/-- `DistinctLeaves(t)` (R113). -/
abbrev Tree.DistinctLeaves (t : Tree) : Prop := t.leaves.Nodup

/-- `HasEos(t)` (R113). -/
abbrev Tree.HasEos (t : Tree) : Prop := LeafValue.eos ∈ t.leaves

/-- `Covers(t, S)` (R113). -/
abbrev Tree.Covers (t : Tree) (input : List Byte) : Prop := ∀ b ∈ input, LeafValue.sym b ∈ t.leaves

/-- The word of a leaf: `0x100000 | v` (R114). -/
def leafWord (v : LeafValue) : NodeWord := 0x100000 ||| v.val.setWidth 21

/-- The word of an Internal node: `(left << 10) | right` (R114). -/
def internalWord (left right : NodeAddr) : NodeWord := (left.setWidth 21 <<< 10) ||| right.setWidth 21

/-- `Represents(M, a, t)` (R114). -/
def Represents (M : NodeAddr → NodeWord) : NodeAddr → Tree → Prop
  | a, .leaf v => M a = leafWord v
  | a, .internal l r => leafFlag (M a) = false ∧ Represents M (leftOf (M a)) l ∧ Represents M (rightOf (M a)) r

/-- `Image(M, t)` (R114): the tree stands at ROOT. -/
def Image (M : NodeAddr → NodeWord) (t : Tree) : Prop := Represents M Config.root t

/-- `WellFormedImage(M)` (R119). -/
def WellFormedImage (M : NodeAddr → NodeWord) : Prop := ∃ t, Image M t

/-- `place(t)` from address `next` (R115): pre-order, a node, then its left sub-tree, then its right sub-tree. -/
def placeTree (next : Nat) : Tree → Memory 21
  | .leaf v => [(next, leafWord v)]
  | .internal l r =>
    (next, internalWord (BitVec.ofNat 10 (next + 1)) (BitVec.ofNat 10 (next + 1 + l.size))) ::
      (placeTree (next + 1) l ++ placeTree (next + 1 + l.size) r)

/-- `BuildImage(t)` (R115); a tree that does not fit the node memory cannot be loaded (D10; log 16). -/
def buildImage (t : Tree) : Option (Memory 21) :=
  if t.size ≤ Config.nodeDepth then some (placeTree 0 t) else none

/-- The node memory of a state as the function the rules write `M` (R9). -/
def State.nodes (s : State) : NodeAddr → NodeWord := fun a => s.nodeAt a

end Sys2Proof.Machine
end

