-- ==== Sys2Proof/Machine/Table.lean ====
section
/-! DEFINITION. The encoding table the host builds and its image in the code memory (42_code_table.md R160 to R165). -/

namespace Sys2Proof.Machine

/-- An encoding table: leaf values with their codes (R52, R160). -/
abbrev CodeTable := List (LeafValue × List Bool)

/-- The code of a value, if the table has one (R160). -/
def CodeTable.find (T : CodeTable) (v : LeafValue) : Option (List Bool) := List.lookup v T

/-- `walk(t, p, T)` (R160): depth first, left before right; refused with the value of a repeated leaf (R162). -/
def walkTable (p : List Bool) (T : CodeTable) : Tree → Except LeafValue CodeTable
  | .leaf v => if (CodeTable.find T v).isSome then .error v else .ok (T ++ [(v, p)])
  | .internal l r =>
    match walkTable (p ++ [false]) T l with
    | .error v => .error v
    | .ok T' => walkTable (p ++ [true]) T' r

/-- `BuildTable(t)` (R160, R162). -/
def buildTable (t : Tree) : Except LeafValue CodeTable := walkTable [] [] t

/-- `value(p)`: the bits read as a binary number, first bit most significant (R163). -/
def valueOfBits (p : List Bool) : Nat := p.foldl (fun n b => 2 * n + b.toNat) 0

/-- The entry of a code: `(1 << 265) | (|p| << 256) | value(p)` (R163). -/
def entryOfCode (p : List Bool) : Entry :=
  encodeEntry true (BitVec.ofNat 9 p.length) (BitVec.ofNat 256 (valueOfBits p))

/-- The leaf value with this index; none for 257 to 511 (R6). -/
def leafOfIndex (i : Nat) : Option LeafValue :=
  if i < 256 then some (.sym (BitVec.ofNat 8 i)) else if i = 256 then some .eos else none

/-- `CODE[i]` of the image of a table (R163): 0 where the table has no entry. -/
def tableEntry (T : CodeTable) (i : Nat) : Entry :=
  match (leafOfIndex i).bind (CodeTable.find T) with
  | some p => entryOfCode p
  | none => 0

/-- `BuildCodeMem(T)` (R163): every index from 0 to 256; it needs `|p| <= 256` (log 16). -/
def buildCodeMem (T : CodeTable) : Option (Memory 266) :=
  if T.all (fun e => Nat.ble e.2.length Config.maxLen) then
    some ((List.range Config.codeN).map (fun i => (i, tableEntry T i)))
  else none

/-- The code memory of a state as the function the rules write `CODE` (R9). -/
def State.codeFn (s : State) : Val → Entry := fun i => s.codeAt i

end Sys2Proof.Machine
end

