-- ==== Sys2Proof/Machine/Codec.lean ====
section
/-! DEFINITION. The functions the two blocks implement: Pack and Unpack (R58), DecodeOne and DecodeAll (R130), EncodeBits and
EncodeAll (R170). -/

namespace Sys2Proof.Machine

/-! ## Bits and bytes (R57, R58), most significant bit first (log 14) -/

/-- The eight bits of a byte, bit 7 first (R57). -/
def bitsOfByte (b : Byte) : List Bool :=
  [b.getLsbD 7, b.getLsbD 6, b.getLsbD 5, b.getLsbD 4, b.getLsbD 3, b.getLsbD 2, b.getLsbD 1, b.getLsbD 0]

/-- `Unpack(bytes)` (R58). -/
def unpack (bytes : List Byte) : List Bool := bytes.flatMap bitsOfByte

/-- `B[k]` of `Pack(bits)` (R58): bit `7-j` is `bits[8k+j]`, or 0 past the end. -/
def packByte (bits : List Bool) (k : Nat) : Byte :=
  BitVec.ofBoolListBE
    [bits.getD (8 * k) false, bits.getD (8 * k + 1) false, bits.getD (8 * k + 2) false, bits.getD (8 * k + 3) false,
     bits.getD (8 * k + 4) false, bits.getD (8 * k + 5) false, bits.getD (8 * k + 6) false, bits.getD (8 * k + 7) false]

/-- `Pack(bits)` (R58): `ceil(|bits| / 8)` bytes. -/
def pack (bits : List Bool) : List Byte := (List.range ((bits.length + 7) / 8)).map (packByte bits)

/-! ## The decoder's function (R130) -/

/-- What one call of the Symbol Decoder gives (R130). -/
inductive OneResult where
  | value (v : LeafValue) (rest : List Bool)
  | endAtBoundary
  | truncated
  deriving DecidableEq, Repr

/-- `DecodeOne(n, bits, taken)` (R130). -/
def decodeOne : Tree → List Bool → Nat → OneResult
  | .leaf v, bits, _ => .value v bits
  | .internal _ _, [], taken => if taken = 0 then .endAtBoundary else .truncated
  | .internal l r, b :: bs, taken => if b then decodeOne r bs (taken + 1) else decodeOne l bs (taken + 1)

/-- What a payload decodes to: the bytes, the status, the bits left in the source. -/
structure DecodeResult where
  out : List Byte
  status : StatusCode
  rest : List Bool
  deriving DecidableEq, Repr

/-- `DecodeAll(t, bits, out)` (R130) within `fuel` symbols; none where it has not ended (log 20). -/
def decodeAll : Nat → Tree → List Bool → List Byte → Option DecodeResult
  | 0, _, _, _ => none
  | fuel + 1, t, bits, out =>
    match decodeOne t bits 0 with
    | .value (.sym v) rest => decodeAll fuel t rest (out ++ [v])
    | .value .eos rest => some { out := out, status := stOk, rest := rest }
    | .endAtBoundary => some { out := out, status := stEndNoEos, rest := [] }
    | .truncated => some { out := out, status := stTruncated, rest := [] }

/-- `DecodeAll(t, bits, [])` ends with this result (R130). -/
def DecodesTo (t : Tree) (bits : List Bool) (r : DecodeResult) : Prop := ∃ fuel, decodeAll fuel t bits [] = some r

/-! ## The encoder's function (R170) -/

/-- What `EncodeBits` gives: the bits appended, the symbols taken, and the first failure with its value (R170). -/
structure EncodeBitsResult where
  bits : List Bool
  taken : List Byte
  failure : Option (StatusCode × Val)
  deriving DecidableEq, Repr

/-- The sentinel's part of `EncodeBits` (R170). -/
def encodeEnd (code : Val → Entry) (bits : List Bool) (taken : List Byte) : EncodeBitsResult :=
  match classifyEntry (code Config.eosVal) with
  | .none => { bits := bits, taken := taken, failure := some (stUnencodable, Config.eosVal) }
  | .bad => { bits := bits, taken := taken, failure := some (stBadEntry, Config.eosVal) }
  | .code => { bits := bits ++ codeBits (code Config.eosVal), taken := taken, failure := none }

/-- `EncodeBits(CODE, S)` after `bits` and `taken` (R170). -/
def encodeFrom (code : Val → Entry) (bits : List Bool) (taken : List Byte) : List Byte → EncodeBitsResult
  | [] => encodeEnd code bits taken
  | s :: rest =>
    match classifyEntry (code (symIndex s)) with
    | .none => { bits := bits, taken := taken ++ [s], failure := some (stUnencodable, symIndex s) }
    | .bad => { bits := bits, taken := taken ++ [s], failure := some (stBadEntry, symIndex s) }
    | .code => encodeFrom code (bits ++ codeBits (code (symIndex s))) (taken ++ [s]) rest

/-- `EncodeBits(CODE, S)` (R170). -/
def encodeBits (code : Val → Entry) (input : List Byte) : EncodeBitsResult := encodeFrom code [] [] input

/-- What a payload encodes to: bytes, status, `err_sym`, symbols taken (R170, R186). -/
structure EncodeResult where
  bytes : List Byte
  status : StatusCode
  errSym : Val
  taken : List Byte
  deriving DecidableEq, Repr

/-- `EncodeAll(CODE, S)` (R170): all of `Pack` with `OK`, or the whole bytes before the first failure. -/
def encodeAll (code : Val → Entry) (input : List Byte) : EncodeResult :=
  let r := encodeBits code input
  match r.failure with
  | none => { bytes := pack r.bits, status := stOk, errSym := 0, taken := r.taken }
  | some (c, v) => { bytes := (pack r.bits).take (r.bits.length / 8), status := c, errSym := v, taken := r.taken }

end Sys2Proof.Machine
end

