-- ==== Sys2Proof/Machine/HostSide.lean ====
section
/-! DEFINITION. The host around the two blocks (44_container_and_host.md R200 to R210): sources and sinks that follow the
handshake, a run of a block against them, and compress and decompress as sequences of port-level actions. -/

namespace Sys2Proof.Machine

/-- One decoder edge with these pins, before any other event. -/
def decEdge (p : DecPins) (s : State) : Host.Outcome State Fault Refusal := step (s.before (.decClock p))

/-- One encoder edge with these pins, before any other event. -/
def encEdge (p : EncPins) (s : State) : Host.Outcome State Fault Refusal := step (s.before (.encClock p))

/-- Pins that assert `start` for one decoder step (R203 step 3). -/
def startPinsDec : DecPins := { DecPins.low with start := true }

/-- Pins that assert `start` for one encoder step (R202 step 4). -/
def startPinsEnc : EncPins := { EncPins.low with start := true }

/-- The stalls of an environment: in step `n` the source answers, and the sink is ready, or not (R205 liberty 1). A source
that has shown exhaustion stalls no more (R68). -/
structure Stalls where
  answers : Nat → Bool
  ready : Nat → Bool

/-- An environment that never stalls. -/
def Stalls.never : Stalls := { answers := fun _ => true, ready := fun _ => true }

/-- Fairness (R261): a source that is asked answers in the end, and a sink becomes ready in the end. -/
def Stalls.Fair (e : Stalls) : Prop := (∀ n, ∃ m, n ≤ m ∧ e.answers m = true) ∧ (∀ n, ∃ m, n ≤ m ∧ e.ready m = true)

/-- A run of a block against its source: what the source still holds, whether it has shown exhaustion, and the machine. -/
structure Running (α : Type) where
  src : List α
  shown : Bool
  state : State
  deriving DecidableEq, Repr

/-- In step `n` the source offers an item: it answers and still has one. -/
def Running.offers {α : Type} (e : Stalls) (n : Nat) (r : Running α) : Bool := e.answers n && !r.src.isEmpty

/-- In step `n` the source signals exhaustion: it has no item left, and it answers or has shown so before (R68, R205 duty 6). -/
def Running.exhausted {α : Type} (e : Stalls) (n : Nat) (r : Running α) : Bool := r.src.isEmpty && (r.shown || e.answers n)

/-- The run after step `n`, which has led to `t`: an item leaves the source when `valid` and `ready` are both 1 (R66), and
exhaustion once shown stays shown (R68). -/
def Running.after {α : Type} (e : Stalls) (n : Nat) (r : Running α) (ready : Bool) (t : State) : Running α :=
  { src := if ready && r.offers e n then r.src.tail else r.src, shown := r.shown || r.exhausted e n, state := t }

/-- The decoder's pins in step `n` of a run (R203 steps 4 and 5, R206): a bit, or exhaustion, or a stall. -/
def sourcePinsDec (e : Stalls) (n : Nat) (r : Running Bool) : DecPins :=
  { rst := false, start := false, bitValid := r.offers e n, bitEof := r.exhausted e n, bitData := r.src.headD false,
    outReady := e.ready n }

/-- The encoder's pins in step `n` of a run (R202 steps 5 and 6): a byte, or exhaustion, or a stall. -/
def sourcePinsEnc (e : Stalls) (n : Nat) (r : Running Byte) : EncPins :=
  { rst := false, start := false, inValid := r.offers e n, inEof := r.exhausted e n, outReady := e.ready n,
    inData := r.src.headD 0 }

/-- Step `n` of the decoder against its source. -/
def feedDecStep (e : Stalls) (n : Nat) (r : Running Bool) : Option (Running Bool) :=
  match decEdge (sourcePinsDec e n r) r.state with
  | .next t => some (r.after e n r.state.bitReady t)
  | .fault _ => none
  | .refused _ => none

/-- `n` steps of the decoder against its source. -/
def feedDec (e : Stalls) : Nat → Running Bool → Option (Running Bool)
  | 0, r => some r
  | n + 1, r => (feedDec e n r).bind (feedDecStep e n)

/-- Step `n` of the encoder against its source. -/
def feedEncStep (e : Stalls) (n : Nat) (r : Running Byte) : Option (Running Byte) :=
  match encEdge (sourcePinsEnc e n r) r.state with
  | .next t => some (r.after e n r.state.inReady t)
  | .fault _ => none
  | .refused _ => none

/-- `n` steps of the encoder against its source. -/
def feedEnc (e : Stalls) : Nat → Running Byte → Option (Running Byte)
  | 0, r => some r
  | n + 1, r => (feedEnc e n r).bind (feedEncStep e n)

/-- `start` for one step, then `n` steps of the decoder against its source (R203 steps 3 to 5). -/
def runDec (e : Stalls) (n : Nat) (src : List Bool) (s : State) : Option (Running Bool) :=
  match decEdge startPinsDec s with
  | .next t => feedDec e n { src := src, shown := false, state := t }
  | .fault _ => none
  | .refused _ => none

/-- `start` for one step, then `n` steps of the encoder against its source (R202 steps 4 to 6). -/
def runEnc (e : Stalls) (n : Nat) (src : List Byte) (s : State) : Option (Running Byte) :=
  match encEdge startPinsEnc s with
  | .next t => feedEnc e n { src := src, shown := false, state := t }
  | .fault _ => none
  | .refused _ => none

/-- The host writes the words of an image, one event each (R253); none where the decoder is busy. -/
def loadNodes (s : State) : Memory 21 → Option State
  | [] => some s
  | (a, w) :: rest =>
    match step (s.before (.writeNode (BitVec.ofNat 10 a) w)) with
    | .next t => loadNodes t rest
    | .fault _ => none
    | .refused _ => none

/-- The host writes the entries of an image, one event each (R253); none where the encoder is busy. -/
def loadCodes (s : State) : Memory 266 → Option State
  | [] => some s
  | (i, e) :: rest =>
    match step (s.before (.writeCode (BitVec.ofNat 9 i) e)) with
    | .next t => loadCodes t rest
    | .fault _ => none
    | .refused _ => none

/-- The result of a decoder run (R208): the items transferred during it and the status at its end. -/
structure DecRunResult where
  taken : List Bool
  out : List Byte
  status : StatusCode
  deriving DecidableEq, Repr

/-- The result of the run from the accepted `start` in `before` to `after`; none unless it has reached DONE (R208). -/
def decRunResult (before after : State) : Option DecRunResult :=
  if after.decDone then
    some { taken := after.bitsIn.drop before.bitsIn.length, out := after.decOut.drop before.decOut.length,
           status := after.decStatus }
  else none

/-- The result of an encoder run (R208): the items transferred during it, the status and `err_sym` at its end. -/
structure EncRunResult where
  taken : List Byte
  out : List Byte
  status : StatusCode
  errSym : Val
  deriving DecidableEq, Repr

/-- The result of the run from the accepted `start` in `before` to `after`; none unless it has reached DONE (R208). -/
def encRunResult (before after : State) : Option EncRunResult :=
  if after.encDone then
    some { taken := after.symsIn.drop before.symsIn.length, out := after.encOut.drop before.encOut.length,
           status := after.encStatus, errSym := after.encErrSym }
  else none

/-! ## compress and decompress (R202, R203, R204) -/

/-- What the external tree reader answers (R118, R204, R226). -/
inductive ReadResult where
  | tree (t : Tree) (rest : List Byte)
  | noTree
  | malformed
  deriving DecidableEq, Repr

/-- `TreeFormat`: the external tree writer and reader, a parameter of the host (R117, R118, U2; log 15). `describes d t` says that
`d` is one complete and structurally valid description, and that the tree is `t`. -/
structure TreeFormat where
  describes : List Byte → Tree → Prop
  write : Tree → List Byte
  read : List Byte → ReadResult

/-- The contract of the writer and the reader (R117, R118, R226). -/
structure TreeFormat.Contract (f : TreeFormat) : Prop where
  /-- What the writer writes is a description of the tree (R117). -/
  write_describes : ∀ t, f.describes (f.write t) t
  /-- A description is self-delimiting: the reader returns its tree and stops immediately after it (R117, R118). -/
  read_description : ∀ d t rest, f.describes d t → f.read (d ++ rest) = .tree t rest
  /-- A stream that does not begin with a complete and valid description gives no tree (R118); which of the two outcomes is the
  reader's matter (R226, U3). -/
  read_fails : ∀ bytes, (∀ d t rest, f.describes d t → bytes ≠ d ++ rest) →
    f.read bytes = .noTree ∨ f.read bytes = .malformed

/-- The host's output stream: whether it stores the byte written at a position, or that write fails (R165, R202, R210), and
whether it can be finalized (R203 step 7; log 21). -/
structure OutputStream where
  takes : Nat → Bool
  finalizes : Bool := true

/-- What has been written to an output stream, and whether every write has succeeded. -/
structure Written where
  bytes : List Byte
  ok : Bool
  deriving DecidableEq, Repr

/-- Bytes written one after another behind those already there, up to the first write that fails. -/
def OutputStream.append (o : OutputStream) (before : List Byte) : List Byte → Written
  | [] => { bytes := before, ok := true }
  | b :: rest => if o.takes before.length then o.append (before ++ [b]) rest else { bytes := before, ok := false }

/-- How `compress` ends. -/
inductive CompressEnding where
  /-- Success: what was written is a container (R200). -/
  | container
  /-- A write to the output failed (R165, R202). -/
  | writeFailed
  /-- Table construction failed (R162, R165). -/
  | duplicateLeaf (v : LeafValue)
  /-- A code is longer than the code field (R163; log 16). -/
  | codeTooLong
  /-- The encoder was not in IDLE or DONE (R210). -/
  | busy
  /-- The run ended with another status (R202 step 7). -/
  | failed (status : StatusCode) (errSym : Val)
  /-- The run has not ended in the steps given (R208: no result). -/
  | unfinished
  deriving DecidableEq, Repr

/-- What `compress` leaves: how it ended, and every byte written to the output, which is a container only where it ended so
(R202). -/
structure CompressResult where
  ending : CompressEnding
  output : List Byte
  deriving DecidableEq, Repr

/-- What `compress` makes of the run (R202 steps 6 and 7), with `written` in the output before it. -/
def compressEnd (o : OutputStream) (written : List Byte) (before after : State) : CompressResult :=
  let w := o.append written (after.encOut.drop before.encOut.length)
  if w.ok = false then { ending := .writeFailed, output := w.bytes }
  else match encRunResult before after with
    | none => { ending := .unfinished, output := w.bytes }
    | some r =>
      if r.status = stOk then { ending := .container, output := w.bytes }
      else { ending := .failed r.status r.errSym, output := w.bytes }

/-- `compress(tree, input, output)` as host actions (R202), with `n` steps for the run. -/
def compress (f : TreeFormat) (o : OutputStream) (e : Stalls) (n : Nat) (t : Tree) (input : List Byte) (s : State) :
    CompressResult :=
  let w := o.append [] (f.write t)
  if w.ok = false then { ending := .writeFailed, output := w.bytes }
  else match buildTable t with
    | .error v => { ending := .duplicateLeaf v, output := w.bytes }
    | .ok T =>
      match buildCodeMem T with
      | none => { ending := .codeTooLong, output := w.bytes }
      | some m =>
        match loadCodes s m with
        | none => { ending := .busy, output := w.bytes }
        | some s1 =>
          match runEnc e n input s1 with
          | none => { ending := .unfinished, output := w.bytes }
          | some r => compressEnd o w.bytes s1 r.state

/-- How `decompress` ends. -/
inductive DecompressEnding where
  /-- Success: the output holds the decoded bytes, complete, and is finalized (R203 step 7). -/
  | data
  /-- A write to the output failed (R210; log 21). -/
  | writeFailed
  /-- The decoded bytes are written and the output could not be finalized (R203 step 7, R210; log 21). -/
  | finalizeFailed
  /-- No tree: no output, no failure (R204). -/
  | noTree
  /-- The tree description is malformed: no output (R204, R226). -/
  | malformed
  /-- The tree does not fit the node memory (D10; log 16). -/
  | treeTooLarge
  /-- The decoder was not in IDLE or DONE (R210). -/
  | busy
  /-- The run ended with status 3 or 4, or with status 2 where the host counts it a failure; the output is not a complete
  result (R203 step 7, R150, R209). -/
  | failed (status : StatusCode)
  /-- The run has not ended in the steps given (R208: no result). -/
  | unfinished
  deriving DecidableEq, Repr

/-- What `decompress` leaves: how it ended, and every byte written to the output, which is a complete result only where it
ended with `data` (R205 duty 8). -/
structure DecompressResult where
  ending : DecompressEnding
  output : List Byte
  deriving DecidableEq, Repr

/-- Whether the host counts a run with this status as a success (R203 step 7, R209): `endNoEosIsFailure` is the host's open
parameter (U14). -/
def decompressSucceeds (endNoEosIsFailure : Bool) (status : StatusCode) : Bool :=
  status == stOk || (status == stEndNoEos && !endNoEosIsFailure)

/-- What `decompress` makes of the run (R203 steps 5 to 7). -/
def decompressEnd (o : OutputStream) (endNoEosIsFailure : Bool) (before after : State) : DecompressResult :=
  let w := o.append [] (after.decOut.drop before.decOut.length)
  if w.ok = false then { ending := .writeFailed, output := w.bytes }
  else match decRunResult before after with
    | none => { ending := .unfinished, output := w.bytes }
    | some r =>
      if decompressSucceeds endNoEosIsFailure r.status = false then { ending := .failed r.status, output := w.bytes }
      else if o.finalizes = false then { ending := .finalizeFailed, output := w.bytes }
      else { ending := .data, output := w.bytes }

/-- `decompress(input, output)` as host actions (R203, R204), with `n` steps for the run. -/
def decompress (f : TreeFormat) (o : OutputStream) (endNoEosIsFailure : Bool) (e : Stalls) (n : Nat) (input : List Byte)
    (s : State) : DecompressResult :=
  match f.read input with
  | .noTree => { ending := .noTree, output := [] }
  | .malformed => { ending := .malformed, output := [] }
  | .tree t rest =>
    match buildImage t with
    | none => { ending := .treeTooLarge, output := [] }
    | some m =>
      match loadNodes s m with
      | none => { ending := .busy, output := [] }
      | some s1 =>
        match runDec e n (unpack rest) s1 with
        | none => { ending := .unfinished, output := [] }
        | some r => decompressEnd o endNoEosIsFailure s1 r.state

end Sys2Proof.Machine
end

