-- ==== Sys2Proof/Safety.lean ====
section
/-! DEFINITION. What claims about runs are stated in: the invariant of the reachable states (R23, R28, R34), the host's
duties a step checks (R64), and a step that answers. -/

namespace Sys2Proof.Machine

/-- R28: the bits of `acc` below the `cnt` pending ones are all 0. -/
abbrev WriterInv (e : EncRegs) : Prop := ∀ j, j < 8 - e.cnt.toNat → e.acc.getLsbD j = false

/-- What holds in every state reachable from reset (R23, R24, R28, R29, R34), with the canonical form of the memories. -/
structure State.Inv (s : State) : Prop where
  /-- `NODE` keeps its canonical form. -/
  nodes_wf : Memory.wf Config.nodeDepth s.nodeMem = true
  /-- `CODE` keeps its canonical form. -/
  codes_wf : Memory.wf Config.codeN s.codeMem = true
  /-- At a clean symbol boundary the decoder is at the root (R23). -/
  boundary : s.dec.mid = false → s.dec.node = Config.root
  /-- `dstatus = 0` whenever `dstate` is IDLE or RUN (R34). -/
  dstatus_none : s.dec.dstate ≠ .done → s.dec.dstatus = stNone
  /-- In DONE `dstatus` is 1, 2, 3 or 4 (R24, R34). -/
  dstatus_done : s.dec.dstate = .done →
    s.dec.dstatus = stOk ∨ s.dec.dstatus = stEndNoEos ∨ s.dec.dstatus = stTruncated ∨ s.dec.dstatus = stBadNode
  /-- The bit writer's invariant (R28). -/
  writer : WriterInv s.enc
  /-- `cur` is an index the code memory has (R27, R52). -/
  cur_le : s.enc.cur.toNat ≤ 256
  /-- `rem` is at most 256 (R34). -/
  rem_le : s.enc.rem.toNat ≤ 256
  /-- Between two codes no bit is left to write, and FLUSH follows the sentinel (R27). -/
  fetch_rem : s.enc.estate = .fetch → s.enc.rem = 0
  /-- FLUSH follows the sentinel's code (R27, R181). -/
  flush_cur : s.enc.estate = .flush → s.enc.cur = Config.eosVal ∧ s.enc.rem = 0
  /-- `estatus = 0` whenever `estate` is not DONE (R34). -/
  estatus_none : s.enc.estate ≠ .done → s.enc.estatus = stNone
  /-- In DONE `estatus` is 1, 5 or 6 (R29, R34). -/
  estatus_done : s.enc.estate = .done →
    s.enc.estatus = stOk ∨ s.enc.estatus = stUnencodable ∨ s.enc.estatus = stBadEntry
  /-- `err_sym` is 0 unless a lookup failed (R29). -/
  err_sym_zero : s.enc.estatus ≠ stUnencodable → s.enc.estatus ≠ stBadEntry → s.enc.errSym = 0
  /-- `err_sym` is a `Val` the encoder can look up (R29, R52). -/
  err_sym_le : s.enc.errSym.toNat ≤ 256

/-- The host's duty a step checks: it writes a memory only while the block that reads it is in IDLE or DONE (R64), and `CODE`
only at an index that exists (R52). -/
def Event.allowed (ev : Event) (s : State) : Prop :=
  match ev with
  | .decClock _ => True
  | .encClock _ => True
  | .writeNode _ _ => s.decBusy = false
  | .writeCode i _ => i.toNat ≤ 256 ∧ s.encBusy = false

/-- A step that answers a next state. -/
def Answers (s : State) : Prop := ∃ t, step s = .next t

/-- The decoder's terminal wait: IDLE or DONE (R131, R142). -/
abbrev State.decAtRest (s : State) : Prop := s.dec.dstate = .idle ∨ s.dec.dstate = .done

/-- The encoder's terminal wait: IDLE or DONE (R171, R185). -/
abbrev State.encAtRest (s : State) : Prop := s.enc.estate = .idle ∨ s.enc.estate = .done

/-- The decoder is in RUN at a word of this kind and is not being reset (R87 lines 4 to 12). -/
abbrev State.decRuns (s : State) (k : NodeKind) : Prop :=
  s.din.rst = false ∧ s.dec.dstate = .run ∧ classify s.nodeWord = k

/-- The encoder is in this FSM state and is not being reset (R88). -/
abbrev State.encIn (s : State) (st : EState) : Prop := s.ein.rst = false ∧ s.enc.estate = st

/-- `u` is a sub-tree of `t` other than `t` itself. -/
def Tree.Below (u : Tree) : Tree → Prop
  | .leaf _ => False
  | .internal l r => u = l ∨ u = r ∨ Tree.Below u l ∨ Tree.Below u r

/-- The decoder walks the image of a tree (R119): it has met no reserved word, and in RUN it stands at the root with no bit
taken, or inside the tree with some. -/
structure State.OnImage (s : State) (t : Tree) : Prop where
  image : Image s.nodes t
  status : s.dec.dstatus ≠ stBadNode
  place : s.dec.dstate = .run →
    (s.dec.mid = false ∧ s.dec.node = Config.root) ∨
      (s.dec.mid = true ∧ ∃ u, Tree.Below u t ∧ Represents s.nodes s.dec.node u)

/-- The next event is a clock edge of one of the blocks. -/
def State.clocked (s : State) : Prop := (∃ p, s.nextEvent = .decClock p) ∨ (∃ p, s.nextEvent = .encClock p)

end Sys2Proof.Machine
end

