-- ==== Sys2Proof/Certificates/Slice0/Obligations.lean ====
section
/-! DEFINITION. The statements about the two blocks, from the numbered rules of spec/. -/

open Sys2Proof Sys2Proof.Machine

/-! ## Reset -/

/-- R33: the reset value of every register, the outputs after reset, the memories untouched, and a run begins at node 0. -/
def Obligations.ResetLeavesTheResetValues : Prop :=
  State.reset.dec = { dstate := .idle, node := 0, mid := false, dstatus := 0 } ∧
  State.reset.enc = { estate := .idle, cur := 0, rem := 0, acc := 0, cnt := 0, estatus := 0, errSym := 0 } ∧
  (∀ s t, (exec .decReset s = .next t → t.dec = State.reset.dec ∧ ∀ a i, t.nodeAt a = s.nodeAt a ∧ t.codeAt i = s.codeAt i) ∧
    (exec .encReset s = .next t → t.enc = State.reset.enc ∧ ∀ a i, t.nodeAt a = s.nodeAt a ∧ t.codeAt i = s.codeAt i)) ∧
  (∀ s : State, s.dec = State.reset.dec → s.enc = State.reset.enc →
    s.decBusy = false ∧ s.decDone = false ∧ s.decErr = false ∧ s.bitReady = false ∧ s.decOutValid = false ∧ s.decStatus = 0 ∧
    s.encBusy = false ∧ s.encDone = false ∧ s.encErr = false ∧ s.inReady = false ∧ s.encOutValid = false ∧ s.encStatus = 0 ∧
    s.encErrSym = 0) ∧
  (∀ s t, exec .decStart s = .next t → t.dec.node = 0)

/-- 70_reset_and_hazards.md section 1 (R250): with `rst = 1` the reset step is the one selected, it runs whatever the state and
the other pins, writes every register of its block and nothing else, and leaves the handshake outputs 0. That `bitsIn`, `decOut`,
`symsIn` and `encOut` stay too, even where `valid` and `ready` of a stream are both 1, is the model's reading (log 10, DEDUCED):
R250 denies the transfer only as far as the block's state is concerned, and R66 would count the item. -/
def Obligations.ResetStepWritesEveryRegister : Prop :=
  ∀ s : State,
    (s.din.rst = true → selectDec s.decView = .decReset ∧
      exec .decReset s = .next { s with dec := { dstate := .idle, node := 0, mid := false, dstatus := 0 } }) ∧
    (s.ein.rst = true → selectEnc s.encView = .encReset ∧
      exec .encReset s =
        .next { s with enc := { estate := .idle, cur := 0, rem := 0, acc := 0, cnt := 0, estatus := 0, errSym := 0 } }) ∧
    (s.dec = DecRegs.reset → s.bitReady = false ∧ s.decOutValid = false) ∧
    (s.enc = EncRegs.reset → s.inReady = false ∧ s.encOutValid = false)

/-! ## The decoder's steps -/

/-- R131: START begins a run at ROOT with `mid` and `dstatus` cleared and moves no item; in RUN `start` is ignored. -/
def Obligations.DecStartBeginsARun : Prop :=
  (∀ s : State, s.din.rst = false → s.decAtRest → s.din.start = true →
    exec .decStart s = .next { s with dec := { dstate := .run, node := 0, mid := false, dstatus := 0 } } ∧
    s.bitReady = false ∧ s.decOutValid = false) ∧
  (∀ (v : DecView) (b : Bool), v.dstate = .run →
    selectDec { v with pins := { v.pins with start := b } } = selectDec v)

/-- R142, R185: HOLD writes no register, the blocks ask for and offer nothing, and in DONE the outputs stand as the run left
them. -/
def Obligations.HoldWritesNothing : Prop :=
  ∀ s : State,
    (s.din.rst = false → s.decAtRest → s.din.start = false →
      exec .decHold s = .next s ∧ s.bitReady = false ∧ s.decOutValid = false ∧
      (s.dec.dstate = .done → s.decDone = true ∧ s.decStatus = s.dec.dstatus)) ∧
    (s.ein.rst = false → s.encAtRest → s.ein.start = false →
      exec .encHold s = .next s ∧ s.inReady = false ∧ s.encOutValid = false ∧
      (s.enc.estate = .done → s.encDone = true ∧ s.encStatus = s.enc.estatus ∧ s.encErrSym = s.enc.errSym))

/-- R133: INT.B0 takes the bit, goes to `w[19:10]` and sets `mid`; nothing else changes. -/
def Obligations.IntB0GoesLeft : Prop :=
  ∀ s : State, s.decRuns .int → s.din.bitValid = true → s.din.bitData = false →
    exec .intB0 s =
      .next { s with dec := { s.dec with node := s.nodeWord.extractLsb' 10 10, mid := true }, bitsIn := s.bitsIn ++ [false] } ∧
    s.bitReady = true ∧ s.decOutValid = false

/-- R134: INT.B1 takes the bit, goes to `w[9:0]` and sets `mid`; nothing else changes. -/
def Obligations.IntB1GoesRight : Prop :=
  ∀ s : State, s.decRuns .int → s.din.bitValid = true → s.din.bitData = true →
    exec .intB1 s =
      .next { s with dec := { s.dec with node := s.nodeWord.extractLsb' 0 10, mid := true }, bitsIn := s.bitsIn ++ [true] } ∧
    s.bitReady = true ∧ s.decOutValid = false

/-- R135: INT.END0 ends the run with status 2, `err` 0; nothing else changes and nothing moves. -/
def Obligations.IntEnd0ReportsEndNoEos : Prop :=
  ∀ s : State, s.decRuns .int → s.din.bitValid = false → s.din.bitEof = true → s.dec.mid = false →
    ∃ t, exec .intEnd0 s = .next t ∧ t = { s with dec := { s.dec with dstate := .done, dstatus := 2 } } ∧ t.decErr = false

/-- R136: INT.END1 ends the run with status 3, `err` 1; nothing else changes and nothing moves. -/
def Obligations.IntEnd1ReportsTruncated : Prop :=
  ∀ s : State, s.decRuns .int → s.din.bitValid = false → s.din.bitEof = true → s.dec.mid = true →
    ∃ t, exec .intEnd1 s = .next t ∧ t = { s with dec := { s.dec with dstate := .done, dstatus := 3 } } ∧ t.decErr = true

/-- R137, R139: a waiting decoder writes no register and keeps its `bit_ready`, or its `out_valid` and `out_data`. -/
def Obligations.DecoderWaitsWriteNothing : Prop :=
  ∀ s : State,
    (s.decRuns .int → s.din.bitValid = false → s.din.bitEof = false → exec .intWait s = .next s ∧ s.bitReady = true) ∧
    (s.decRuns .sym → s.din.outReady = false →
      exec .symWait s = .next s ∧ s.decOutValid = true ∧ s.decOutData = s.nodeWord.extractLsb' 0 8)

/-- R138: SYM.OUT puts out `w[7:0]`, goes to ROOT and clears `mid`; nothing else changes. -/
def Obligations.SymOutPutsOutTheByte : Prop :=
  ∀ s : State, s.decRuns .sym → s.din.outReady = true →
    exec .symOut s =
      .next { s with dec := { s.dec with node := 0, mid := false }, decOut := s.decOut ++ [s.nodeWord.extractLsb' 0 8] } ∧
    s.decOutValid = true ∧ s.decOutData = s.nodeWord.extractLsb' 0 8 ∧ s.bitReady = false

/-- R140: the sentinel's word ends the run with status 1, `err` 0, and nothing moves. -/
def Obligations.EosEndsTheRunWithOk : Prop :=
  ∀ s : State, s.din.rst = false → s.dec.dstate = .run → s.nodeWord = 0x100100 →
    ∃ t, exec .eos s = .next t ∧ t = { s with dec := { s.dec with dstate := .done, dstatus := 1 } } ∧ t.decErr = false ∧
      s.decOutValid = false ∧ s.bitReady = false

/-- R141: a reserved word ends the run with status 4, `err` 1, and nothing moves. -/
def Obligations.BadEndsTheRunWithBadNode : Prop :=
  ∀ s : State, s.din.rst = false → s.dec.dstate = .run → s.nodeWord.getLsbD 20 = true →
    (s.nodeWord.extractLsb' 9 11 ≠ 0 ∨ 256 < (s.nodeWord.extractLsb' 0 9).toNat) →
    ∃ t, exec .bad s = .next t ∧ t = { s with dec := { s.dec with dstate := .done, dstatus := 4 } } ∧ t.decErr = true ∧
      s.decOutValid = false ∧ s.bitReady = false

/-! ## The encoder's steps -/

/-- R171: START begins a run in FETCH with everything cleared and moves no item; in a busy state `start` is ignored. -/
def Obligations.EncStartBeginsARun : Prop :=
  (∀ s : State, s.ein.rst = false → s.encAtRest → s.ein.start = true →
    exec .encStart s =
      .next { s with enc := { estate := .fetch, cur := 0, rem := 0, acc := 0, cnt := 0, estatus := 0, errSym := 0 } } ∧
    s.inReady = false ∧ s.encOutValid = false) ∧
  (∀ (v : EncView) (b : Bool), v.estate = .fetch ∨ v.estate = .shift ∨ v.estate = .flush →
    selectEnc { v with pins := { v.pins with start := b } } = selectEnc v)

/-- R172: SYM.OK takes the symbol and loads `cur` and `rem` from its entry; nothing else changes. -/
def Obligations.SymOkLoadsTheCode : Prop :=
  ∀ s : State, s.encIn .fetch → s.ein.inValid = true →
    classifyEntry (s.codeAt (s.ein.inData.setWidth 9)) = .code →
    exec .symOk s =
      .next { s with
        enc := { s.enc with
          estate := .shift, cur := s.ein.inData.setWidth 9, rem := (s.codeAt (s.ein.inData.setWidth 9)).extractLsb' 256 9 },
        symsIn := s.symsIn ++ [s.ein.inData] } ∧
    s.inReady = true ∧ s.encOutValid = false

/-- R173: SYM.MISSING takes the symbol and ends the run with status 5 and the byte in `err_sym`; nothing else changes. -/
def Obligations.SymMissingIsUnencodable : Prop :=
  ∀ s : State, s.encIn .fetch → s.ein.inValid = true → (s.codeAt (s.ein.inData.setWidth 9)).getLsbD 265 = false →
    ∃ t, exec .symMissing s = .next t ∧
      t = { s with
        enc := { s.enc with estate := .done, estatus := 5, errSym := s.ein.inData.setWidth 9 },
        symsIn := s.symsIn ++ [s.ein.inData] } ∧
      t.encErr = true ∧ s.inReady = true

/-- R174: a reserved length ends the run with status 6 and the index in `err_sym`, for a symbol (which is taken) and for the
sentinel; nothing else changes. -/
def Obligations.ReservedLengthIsBadEntry : Prop :=
  ∀ s : State, s.encIn .fetch →
    (s.ein.inValid = true → (s.codeAt (s.ein.inData.setWidth 9)).getLsbD 265 = true →
      256 < ((s.codeAt (s.ein.inData.setWidth 9)).extractLsb' 256 9).toNat →
      ∃ t, exec .symBadlen s = .next t ∧
        t = { s with
          enc := { s.enc with estate := .done, estatus := 6, errSym := s.ein.inData.setWidth 9 },
          symsIn := s.symsIn ++ [s.ein.inData] } ∧
        t.encErr = true ∧ s.inReady = true) ∧
    (s.ein.inValid = false → s.ein.inEof = true → (s.codeAt 256).getLsbD 265 = true →
      256 < ((s.codeAt 256).extractLsb' 256 9).toNat →
      ∃ t, exec .endBadlen s = .next t ∧
        t = { s with enc := { s.enc with estate := .done, estatus := 6, errSym := 256 } } ∧ t.encErr = true)

/-- R175: END.OK loads the sentinel's code; nothing is transferred and nothing else changes. -/
def Obligations.EndOkLoadsTheSentinel : Prop :=
  ∀ s : State, s.encIn .fetch → s.ein.inValid = false → s.ein.inEof = true → classifyEntry (s.codeAt 256) = .code →
    exec .endOk s =
      .next { s with enc := { s.enc with estate := .shift, cur := 256, rem := (s.codeAt 256).extractLsb' 256 9 } } ∧
    s.inReady = true ∧ s.encOutValid = false

/-- R176: END.MISSING ends the run with status 5 and 256 in `err_sym`; nothing else changes. -/
def Obligations.EndMissingIsUnencodable : Prop :=
  ∀ s : State, s.encIn .fetch → s.ein.inValid = false → s.ein.inEof = true → (s.codeAt 256).getLsbD 265 = false →
    ∃ t, exec .endMissing s = .next t ∧
      t = { s with enc := { s.enc with estate := .done, estatus := 5, errSym := 256 } } ∧ t.encErr = true

/-- R177, R180, R184: a waiting encoder writes no register and keeps its `in_ready`, or its `out_valid` and `out_data`. -/
def Obligations.EncoderWaitsWriteNothing : Prop :=
  ∀ s : State,
    (s.encIn .fetch → s.ein.inValid = false → s.ein.inEof = false → exec .fetchWait s = .next s ∧ s.inReady = true) ∧
    (s.encIn .shift → s.enc.rem ≠ 0 → s.enc.cnt = 7 → s.ein.outReady = false →
      exec .shiftWait s = .next s ∧ s.encOutValid = true ∧
      s.encOutData = accByte s.enc.acc ((s.codeAt s.enc.cur).getLsbD (s.enc.rem.toNat - 1))) ∧
    (s.encIn .flush → s.enc.cnt ≠ 0 → s.ein.outReady = false →
      exec .flushWait s = .next s ∧ s.encOutValid = true ∧ s.encOutData = s.enc.acc)

/-- R178: SHIFT.BIT writes the bit `rem-1` of the entry at `cur` to `acc[7-cnt]`, steps `cnt` and `rem`, changes nothing else
and puts nothing out. Under the writer's invariant the bit written was 0 before. `cur` and `rem` are in the range of every
reachable state. -/
def Obligations.ShiftBitWritesOneBit : Prop :=
  ∀ s : State, s.encIn .shift → s.enc.rem ≠ 0 → s.enc.cnt.toNat < 7 → s.enc.cur.toNat ≤ 256 → s.enc.rem.toNat ≤ 256 →
    ∃ acc : Byte,
      exec .shiftBit s = .next { s with enc := { s.enc with acc := acc, cnt := s.enc.cnt + 1, rem := s.enc.rem - 1 } } ∧
      acc.getLsbD (7 - s.enc.cnt.toNat) = (s.codeAt s.enc.cur).getLsbD (s.enc.rem.toNat - 1) ∧
      (∀ j, j ≠ 7 - s.enc.cnt.toNat → acc.getLsbD j = s.enc.acc.getLsbD j) ∧
      s.encOutValid = false ∧ (s.Inv → s.enc.acc.getLsbD (7 - s.enc.cnt.toNat) = false)

/-- R179: SHIFT.BYTE puts out `{acc[7:1], b}` with `b` the bit `rem-1` of the entry at `cur`, empties the writer, steps `rem`
and changes nothing else. `cur` and `rem` are in the range of every reachable state. -/
def Obligations.ShiftByteCompletesAByte : Prop :=
  ∀ s : State, s.encIn .shift → s.enc.rem ≠ 0 → s.enc.cnt = 7 → s.ein.outReady = true → s.enc.cur.toNat ≤ 256 →
    s.enc.rem.toNat ≤ 256 →
    ∃ v : Byte,
      exec .shiftByte s =
        .next { s with enc := { s.enc with acc := 0, cnt := 0, rem := s.enc.rem - 1 }, encOut := s.encOut ++ [v] } ∧
      v.getLsbD 0 = (s.codeAt s.enc.cur).getLsbD (s.enc.rem.toNat - 1) ∧
      (∀ j, 1 ≤ j → v.getLsbD j = s.enc.acc.getLsbD j) ∧
      s.encOutValid = true ∧ s.encOutData = v

/-- R181: a finished code goes on to FLUSH where `cur = 256` and back to FETCH elsewhere; nothing else changes. -/
def Obligations.FinishedCodeGoesOn : Prop :=
  ∀ s : State, s.encIn .shift → s.enc.rem = 0 →
    (s.enc.cur ≠ 256 → exec .shiftNext s = .next { s with enc := { s.enc with estate := .fetch } }) ∧
    (s.enc.cur = 256 → exec .shiftLast s = .next { s with enc := { s.enc with estate := .flush } }) ∧
    s.encOutValid = false ∧ s.inReady = false

/-- R182: FLUSH.BYTE puts out `acc`, empties the writer and ends the run with status 1; nothing else changes. Under the
writer's invariant the byte is the pending bits followed by zeros. -/
def Obligations.FlushByteEmptiesTheWriter : Prop :=
  ∀ s : State, s.encIn .flush → s.enc.cnt ≠ 0 → s.ein.outReady = true →
    exec .flushByte s =
      .next { s with
        enc := { s.enc with acc := 0, cnt := 0, estate := .done, estatus := 1 }, encOut := s.encOut ++ [s.enc.acc] } ∧
    s.encOutValid = true ∧ s.encOutData = s.enc.acc ∧
    (s.Inv → ∀ j, j < 8 - s.enc.cnt.toNat → s.enc.acc.getLsbD j = false)

/-- R183: FLUSH.NONE ends the run with status 1 and puts nothing out, whether the sink is ready or not. -/
def Obligations.FlushNoneAddsNoByte : Prop :=
  ∀ s : State, s.encIn .flush → s.enc.cnt = 0 →
    exec .flushNone s = .next { s with enc := { s.enc with estate := .done, estatus := 1 } } ∧ s.encOutValid = false

/-- A code bit that does not exist (log 4, log 5: the model's choice) stops SHIFT.BIT and SHIFT.BYTE with its fault. -/
def Obligations.AbsentCodeBitFaults : Prop :=
  ∀ s : State, s.encIn .shift → s.enc.rem ≠ 0 →
    (256 < s.enc.cur.toNat →
      (s.enc.cnt ≠ 7 → exec .shiftBit s = .fault (.codeIndexAbsent s.enc.cur)) ∧
      (s.enc.cnt = 7 → s.ein.outReady = true → exec .shiftByte s = .fault (.codeIndexAbsent s.enc.cur))) ∧
    (s.enc.cur.toNat ≤ 256 → 256 < s.enc.rem.toNat →
      (s.enc.cnt ≠ 7 → exec .shiftBit s = .fault (.codeBitAbsent s.enc.rem)) ∧
      (s.enc.cnt = 7 → s.ein.outReady = true → exec .shiftByte s = .fault (.codeBitAbsent s.enc.rem)))

/-! ## Words and entries as the blocks execute them -/

/-- 41_decoder.md sections 3 and 4 over the words of R81 (log 17): what a step in RUN does with each kind of word, on every
value of the pins. -/
def Obligations.NodeWordsExecute : Prop :=
  ∀ s : State, s.din.rst = false → s.dec.dstate = .run →
    (∀ l r,
      (s.din.bitValid = true → s.din.bitData = false →
        exec (.wordInt l r) s = .next { s with dec := { s.dec with node := l, mid := true }, bitsIn := s.bitsIn ++ [false] }) ∧
      (s.din.bitValid = true → s.din.bitData = true →
        exec (.wordInt l r) s = .next { s with dec := { s.dec with node := r, mid := true }, bitsIn := s.bitsIn ++ [true] }) ∧
      (s.din.bitValid = false → s.din.bitEof = true →
        exec (.wordInt l r) s =
          .next { s with dec := { s.dec with dstate := .done, dstatus := if s.dec.mid then 3 else 2 } }) ∧
      (s.din.bitValid = false → s.din.bitEof = false → exec (.wordInt l r) s = .next s)) ∧
    (∀ b,
      (s.din.outReady = true →
        exec (.wordSym b) s = .next { s with dec := { s.dec with node := 0, mid := false }, decOut := s.decOut ++ [b] }) ∧
      (s.din.outReady = false → exec (.wordSym b) s = .next s)) ∧
    exec .wordEos s = .next { s with dec := { s.dec with dstate := .done, dstatus := 1 } } ∧
    (∀ res v, exec (.wordBad res v) s = .next { s with dec := { s.dec with dstate := .done, dstatus := 4 } })

/-- 43_encoder.md section 3 over the entries of R85 (log 17): what a step in FETCH does with each kind of entry, on every
value of the pins. -/
def Obligations.CodeEntriesExecute : Prop :=
  ∀ (s : State) (len : Len) (code : CodeField), s.encIn .fetch →
    (s.ein.inValid = true →
      exec (.cCode len code) s =
        .next { s with enc := { s.enc with estate := .shift, cur := s.ein.inData.setWidth 9, rem := len },
                       symsIn := s.symsIn ++ [s.ein.inData] } ∧
      exec (.cCode256 code) s =
        .next { s with enc := { s.enc with estate := .shift, cur := s.ein.inData.setWidth 9, rem := 256 },
                       symsIn := s.symsIn ++ [s.ein.inData] } ∧
      exec (.cNone len code) s =
        .next { s with enc := { s.enc with estate := .done, estatus := 5, errSym := s.ein.inData.setWidth 9 },
                       symsIn := s.symsIn ++ [s.ein.inData] } ∧
      exec (.cBad len code) s =
        .next { s with enc := { s.enc with estate := .done, estatus := 6, errSym := s.ein.inData.setWidth 9 },
                       symsIn := s.symsIn ++ [s.ein.inData] }) ∧
    (s.ein.inValid = false → s.ein.inEof = true →
      exec (.cCode len code) s = .next { s with enc := { s.enc with estate := .shift, cur := 256, rem := len } } ∧
      exec (.cCode256 code) s = .next { s with enc := { s.enc with estate := .shift, cur := 256, rem := 256 } } ∧
      exec (.cNone len code) s = .next { s with enc := { s.enc with estate := .done, estatus := 5, errSym := 256 } } ∧
      exec (.cBad len code) s = .next { s with enc := { s.enc with estate := .done, estatus := 6, errSym := 256 } }) ∧
    (s.ein.inValid = false → s.ein.inEof = false →
      exec (.cCode len code) s = .next s ∧ exec (.cCode256 code) s = .next s ∧ exec (.cNone len code) s = .next s ∧
      exec (.cBad len code) s = .next s)

/-- Where R87 or R88 selects another step, a step row has no meaning, and a word row has none outside RUN or FETCH (log 6:
the model's choice). -/
def Obligations.UnselectedStepsAreRefused : Prop :=
  ∀ (s : State) (i : Instr),
    (i ∈ [.decReset, .decStart, .decHold, .intB0, .intB1, .intEnd0, .intEnd1, .intWait, .symOut, .symWait, .eos, .bad] →
      (exec i s = .refused .stepNotSelected ↔ selectDec s.decView ≠ i)) ∧
    (i ∈ [.encReset, .encStart, .encHold, .symOk, .symMissing, .symBadlen, .endOk, .endMissing, .endBadlen, .fetchWait,
        .shiftBit, .shiftByte, .shiftWait, .shiftNext, .shiftLast, .flushByte, .flushNone, .flushWait] →
      (exec i s = .refused .stepNotSelected ↔ selectEnc s.encView ≠ i)) ∧
    (∀ w, exec (decodeNode w) s = .refused .stepNotSelected ↔ ¬ (s.din.rst = false ∧ s.dec.dstate = .run)) ∧
    (∀ e, exec (decodeEntry e) s = .refused .stepNotSelected ↔ ¬ s.encIn .fetch)

/-! ## The step of the machine -/

/-- A step on a clock edge is exec of the step that R87 or R88 selects on the registers, the memory words and the pins of the
edge; around it the event is taken off the list, the step counted and the pins driven (log 8). -/
def Obligations.StepRunsTheSelectedStep : Prop :=
  ∀ s : State,
    (∀ p, s.nextEvent = .decClock p →
      step s =
        exec (decode (.dec { dstate := s.dec.dstate, mid := s.dec.mid, word := s.nodeAt s.dec.node, pins := p }))
          { s with events := s.events.tail, tick := s.tick + 1, din := p }) ∧
    (∀ p, s.nextEvent = .encClock p →
      step s =
        exec (decode (.enc { estate := s.enc.estate, cur := s.enc.cur, rem := s.enc.rem, cnt := s.enc.cnt,
                             symEntry := s.codeAt (p.inData.setWidth 9), eosEntry := s.codeAt 256, pins := p }))
          { s with events := s.events.tail, tick := s.tick + 1, ein := p })

/-- In RUN a step is exec of the node word at `node` (R132), and in FETCH exec of the entry looked up (R172 to R176). -/
def Obligations.StepRunsTheDecodedWord : Prop :=
  ∀ s : State,
    (∀ p, s.nextEvent = .decClock p → p.rst = false → s.dec.dstate = .run →
      step s = exec (decode (.node (s.nodeAt s.dec.node))) { s with events := s.events.tail, tick := s.tick + 1, din := p }) ∧
    (∀ p, s.nextEvent = .encClock p → p.rst = false → s.enc.estate = .fetch → p.inValid = true →
      step s =
        exec (decode (.entry (s.codeAt (p.inData.setWidth 9)))) { s with events := s.events.tail, tick := s.tick + 1, ein := p }) ∧
    (∀ p, s.nextEvent = .encClock p → p.rst = false → s.enc.estate = .fetch → p.inValid = false →
      step s = exec (decode (.entry (s.codeAt 256))) { s with events := s.events.tail, tick := s.tick + 1, ein := p })

/-- 20_memory.md section 5 (R64): the host writes a memory word only while the block is at rest; the word is then read there, every other word and
every register is as before, and a write while the block is busy has no meaning (U6, log 7). -/
def Obligations.HostWritesOnlyAtRest : Prop :=
  ∀ s : State,
    (∀ a w, s.nextEvent = .writeNode a w →
      (s.dec.dstate = .run → step s = .refused .memoryChangedInRun) ∧
      (s.dec.dstate ≠ .run → ∃ t, step s = .next t ∧ t.nodeAt a = w ∧ (∀ b, b ≠ a → t.nodeAt b = s.nodeAt b) ∧
        (∀ i, t.codeAt i = s.codeAt i) ∧ t.dec = s.dec ∧ t.enc = s.enc ∧ t.bitsIn = s.bitsIn ∧ t.decOut = s.decOut ∧
        t.symsIn = s.symsIn ∧ t.encOut = s.encOut)) ∧
    (∀ i e, s.nextEvent = .writeCode i e →
      (256 < i.toNat → step s = .fault (.codeIndexAbsent i)) ∧
      (i.toNat ≤ 256 → s.encBusy = true → step s = .refused .memoryChangedInRun) ∧
      (i.toNat ≤ 256 → s.encBusy = false → ∃ t, step s = .next t ∧ t.codeAt i = e ∧
        (∀ j, j ≠ i → t.codeAt j = s.codeAt j) ∧ (∀ a, t.nodeAt a = s.nodeAt a) ∧ t.dec = s.dec ∧ t.enc = s.enc ∧
        t.bitsIn = s.bitsIn ∧ t.decOut = s.decOut ∧ t.symsIn = s.symsIn ∧ t.encOut = s.encOut))

/-- From every state that meets the invariant, a step whose event keeps the host's duties answers a next state: the model
never stops a run. -/
def Obligations.EveryStepAnswers : Prop := ∀ s : State, s.Inv → s.nextEvent.allowed s → Answers s

/-! ## Encodings -/

/-- Words and headers written out from R81 and R85, an input vector from R87, and two views decode to what they stand for: V-W3,
V-W2, V-W5, V-W6, V-W10, V-W13, V-W15, V-W17, V-W18, V-W24 and V-W26 of 95_test_vectors.md, then line 16 of R88. That
decodeTableWord tells rows apart by 24, 16 or 8 bits, and gives a bare header the code field 0, is the model's choice (log 13);
the first ten clauses rest on it. -/
def Obligations.SpecWordsDecode : Prop :=
  decodeTableWord 24 0x001408 = some (.wordInt 5 8) ∧
  decodeTableWord 24 0x0FFFFF = some (.wordInt 1023 1023) ∧
  decodeTableWord 24 0x1000FF = some (.wordSym 0xFF) ∧
  decodeTableWord 24 0x100100 = some .wordEos ∧
  decodeTableWord 24 0x180041 = some (.wordBad 0x400 0x041) ∧
  decodeTableWord 16 0x1FF = some (.cNone 511 0) ∧
  decodeTableWord 16 0x203 = some (.cCode 3 0) ∧
  decodeTableWord 16 0x300 = some (.cCode256 0) ∧
  decodeTableWord 16 0x301 = some (.cBad 257 0) ∧
  decodeTableWord 8 0x30 = some .decReset ∧
  decode (.dec { dstate := .run, mid := false, word := 0x001408, pins := DecPins.ofVec 0x0E }) = .intB1 ∧
  decode (.enc { estate := .flush, cur := 256, rem := 0, cnt := 5, symEntry := 0, eosEntry := 0,
                 pins := EncPins.ofVec 0x0100 }) = .flushByte

/-- Decoding what a well-formed instruction encodes to gives it back, for every row and every operand. -/
def Obligations.DecodeInvertsEncode : Prop := ∀ i : Instr, i.wellFormed = true → decode (encode i) = i

/-- Every node word and every code entry is a well-formed instruction that encodes to it: no bit is dropped. -/
def Obligations.EncodeInvertsDecodeOfWords : Prop :=
  (∀ w : NodeWord, (decodeNode w).wellFormed = true ∧ encode (decodeNode w) = .node w) ∧
  (∀ e : Entry, (decodeEntry e).wellFormed = true ∧ encode (decodeEntry e) = .entry e)

/-- The kinds of a word and of an entry are those of the first row of R82 and R85 whose mask and match fit. -/
def Obligations.KindsFollowTheMaskTables : Prop :=
  (∀ w : NodeWord, firstRow nodeRows w = some (classify w)) ∧
  (∀ e : Entry, firstRow entryRows (entryHeader e) = some (classifyEntry e))

/-- R87: exactly one line of the table applies, and it is the one selected. -/
def Obligations.DecoderTableIsTotal : Prop :=
  ∀ v : DecView, (decLines.filter (fun l => l.applies v)).map (fun l => l.step) = [selectDec v]

/-- R88: exactly one line of the table applies, and it is the one selected. -/
def Obligations.EncoderTableIsTotal : Prop :=
  ∀ v : EncView, (encLines.filter (fun l => l.applies v)).map (fun l => l.step) = [selectEnc v]

/-! ## Invariants and rules of the whole machine -/

/-- The invariant holds right after reset. -/
def Obligations.InvHoldsAtReset : Prop := State.reset.Inv

/-- Every step keeps the invariant: the writer's low bits (R28), the status discipline (R24, R29), the ranges of `cur`, `rem`
and `err_sym` (R34), `mid = 0` only at ROOT (R23), and the canonical memories. -/
def Obligations.StepKeepsInv : Prop := ∀ s t : State, s.Inv → step s = .next t → t.Inv

/-- 60_exceptions.md section 4 (R234): a status once written changes only at START and reset, and `OK` is written only by EOS,
FLUSH.BYTE and FLUSH.NONE. -/
def Obligations.StatusIsNeverSwallowed : Prop :=
  ∀ s t : State, s.Inv → step s = .next t →
    (s.dec.dstatus ≠ 0 → t.dec.dstatus ≠ s.dec.dstatus →
      ∃ p, s.nextEvent = .decClock p ∧ (p.rst = true ∨ p.start = true) ∧ t.dec.dstatus = 0) ∧
    (s.enc.estatus ≠ 0 → t.enc.estatus ≠ s.enc.estatus →
      ∃ p, s.nextEvent = .encClock p ∧ (p.rst = true ∨ p.start = true) ∧ t.enc.estatus = 0) ∧
    (s.dec.dstatus ≠ 1 → t.dec.dstatus = 1 → ∃ p, s.nextEvent = .decClock p ∧ selectDec (s.driveDec p).decView = .eos) ∧
    (s.enc.estatus ≠ 1 → t.enc.estatus = 1 →
      ∃ p, s.nextEvent = .encClock p ∧
        (selectEnc (s.driveEnc p).encView = .flushByte ∨ selectEnc (s.driveEnc p).encView = .flushNone))

/-- R2: the blocks share nothing. A step of one leaves the other's registers, pins and streams and every memory word as they
were, and what it does to its own depends on nothing of the other's. -/
def Obligations.BlocksAreIndependent : Prop :=
  (∀ s t p, s.nextEvent = .decClock p → step s = .next t →
    t.enc = s.enc ∧ t.ein = s.ein ∧ t.symsIn = s.symsIn ∧ t.encOut = s.encOut ∧
    (∀ a, t.nodeAt a = s.nodeAt a) ∧ (∀ i, t.codeAt i = s.codeAt i)) ∧
  (∀ s t p, s.nextEvent = .encClock p → step s = .next t →
    t.dec = s.dec ∧ t.din = s.din ∧ t.bitsIn = s.bitsIn ∧ t.decOut = s.decOut ∧
    (∀ a, t.nodeAt a = s.nodeAt a) ∧ (∀ i, t.codeAt i = s.codeAt i)) ∧
  (∀ s s' t t' p, s.nextEvent = .decClock p → s'.nextEvent = .decClock p → s.dec = s'.dec → s.bitsIn = s'.bitsIn →
    s.decOut = s'.decOut → (∀ a, s.nodeAt a = s'.nodeAt a) → step s = .next t → step s' = .next t' →
    t.dec = t'.dec ∧ t.bitsIn = t'.bitsIn ∧ t.decOut = t'.decOut) ∧
  (∀ s s' t t' p, s.nextEvent = .encClock p → s'.nextEvent = .encClock p → s.enc = s'.enc → s.symsIn = s'.symsIn →
    s.encOut = s'.encOut → (∀ i, s.codeAt i = s'.codeAt i) → step s = .next t → step s' = .next t' →
    t.enc = t'.enc ∧ t.symsIn = t'.symsIn ∧ t.encOut = t'.encOut)

/-- 41_decoder.md section 5 (R146): in RUN one bit is taken, or one byte put out, or nothing moves, and which step does which. -/
def Obligations.OneItemMovesPerDecoderStep : Prop :=
  ∀ s t p, s.nextEvent = .decClock p → p.rst = false → s.dec.dstate = .run → step s = .next t →
    (selectDec (s.driveDec p).decView ∈ [.intB0, .intB1] ∧ (∃ b, t.bitsIn = s.bitsIn ++ [b]) ∧ t.decOut = s.decOut) ∨
    (selectDec (s.driveDec p).decView = .symOut ∧ t.bitsIn = s.bitsIn ∧ ∃ v, t.decOut = s.decOut ++ [v]) ∨
    (selectDec (s.driveDec p).decView ∈ [.intEnd0, .intEnd1, .intWait, .symWait, .eos, .bad] ∧ t.bitsIn = s.bitsIn ∧
      t.decOut = s.decOut)

/-- 20_memory.md section 2 (R66): without reset an item moves exactly when `valid` and `ready` are both 1 and is the one on
the wires, no output depends on the pins of the step, and an offered byte is held while the sink is not ready. -/
def Obligations.HandshakeMovesAndHolds : Prop :=
  (∀ (s : State) (p : DecPins),
    (s.driveDec p).bitReady = s.bitReady ∧ (s.driveDec p).decOutValid = s.decOutValid ∧
    (s.driveDec p).decOutData = s.decOutData) ∧
  (∀ (s : State) (p : EncPins),
    (s.driveEnc p).inReady = s.inReady ∧ (s.driveEnc p).encOutValid = s.encOutValid ∧
    (s.driveEnc p).encOutData = s.encOutData) ∧
  (∀ s t p, s.nextEvent = .decClock p → p.rst = false → step s = .next t →
    t.bitsIn = (if s.bitReady && p.bitValid then s.bitsIn ++ [p.bitData] else s.bitsIn) ∧
    t.decOut = (if s.decOutValid && p.outReady then s.decOut ++ [s.decOutData] else s.decOut) ∧
    (s.decOutValid = true → p.outReady = false →
      t.dec = s.dec ∧ t.decOutValid = true ∧ t.decOutData = s.decOutData)) ∧
  (∀ s t p, s.nextEvent = .encClock p → p.rst = false → step s = .next t →
    t.symsIn = (if s.inReady && p.inValid then s.symsIn ++ [p.inData] else s.symsIn) ∧
    t.encOut = (if s.encOutValid && p.outReady then s.encOut ++ [s.encOutData] else s.encOut) ∧
    (s.encOutValid = true → p.outReady = false →
      t.enc = s.enc ∧ t.encOutValid = true ∧ t.encOutData = s.encOutData))

/-- R22: in RUN a step moves `node` to the child named by the bit taken, or to ROOT with a byte put out, or not at all; outside
it only an accepted `start` moves it, to ROOT; reset loads ROOT; no other event moves it. -/
def Obligations.NodeMovesInThreeWays : Prop :=
  (∀ s t, (∀ p, s.nextEvent ≠ .decClock p) → step s = .next t → t.dec.node = s.dec.node) ∧
  (∀ s t p, s.nextEvent = .decClock p → p.rst = true → step s = .next t → t.dec.node = 0) ∧
  ∀ s t p, s.nextEvent = .decClock p → p.rst = false → step s = .next t →
    (s.dec.dstate = .run →
      (t.bitsIn = s.bitsIn ++ [false] ∧ t.dec.node = (s.nodeAt s.dec.node).extractLsb' 10 10 ∧ t.dec.mid = true) ∨
      (t.bitsIn = s.bitsIn ++ [true] ∧ t.dec.node = (s.nodeAt s.dec.node).extractLsb' 0 10 ∧ t.dec.mid = true) ∨
      (t.bitsIn = s.bitsIn ∧ (∃ v, t.decOut = s.decOut ++ [v]) ∧ t.dec.node = 0 ∧ t.dec.mid = false) ∨
      (t.bitsIn = s.bitsIn ∧ t.decOut = s.decOut ∧ t.dec.node = s.dec.node ∧ t.dec.mid = s.dec.mid)) ∧
    (s.dec.dstate ≠ .run →
      (p.start = true ∧ t.dec.node = 0 ∧ t.dec.mid = false) ∨
      (p.start = false ∧ t.dec.node = s.dec.node ∧ t.dec.mid = s.dec.mid))

/-- R230: entering a condition changes the FSM state, the status and, for codes 5 and 6, `err_sym`, and nothing else of either
block; from then on nothing is asked for or offered. -/
def Obligations.ConditionChangesOnlyItsCode : Prop :=
  ∀ s t : State, step s = .next t →
    (s.dec.dstate ≠ .done → t.dec.dstate = .done → t.dec.dstatus ≠ 1 →
      t.dec = { s.dec with dstate := .done, dstatus := t.dec.dstatus } ∧ t.enc = s.enc ∧ t.nodeMem = s.nodeMem ∧
      t.codeMem = s.codeMem ∧ t.bitsIn = s.bitsIn ∧
      t.decOut = s.decOut ∧ t.bitReady = false ∧ t.decOutValid = false ∧
      (t.dec.dstatus = 2 ∨ t.dec.dstatus = 3 ∨ t.dec.dstatus = 4)) ∧
    (s.enc.estate ≠ .done → t.enc.estate = .done → t.enc.estatus ≠ 1 →
      t.enc = { s.enc with estate := .done, estatus := t.enc.estatus, errSym := t.enc.errSym } ∧ t.dec = s.dec ∧
      t.nodeMem = s.nodeMem ∧ t.codeMem = s.codeMem ∧
      t.encOut = s.encOut ∧ t.inReady = false ∧ t.encOutValid = false ∧ (t.enc.estatus = 5 ∨ t.enc.estatus = 6))

/-- R232: the only ways out of DONE are an accepted `start`, which begins a new run, and reset; no item moves in DONE. -/
def Obligations.DoneIsLeftOnlyByStartOrReset : Prop :=
  ∀ s t : State, step s = .next t →
    (s.dec.dstate = .done →
      (t.dec = s.dec ∨
        (∃ p, s.nextEvent = .decClock p ∧ p.rst = false ∧ p.start = true ∧
          t.dec = { dstate := .run, node := 0, mid := false, dstatus := 0 }) ∨
        (∃ p, s.nextEvent = .decClock p ∧ p.rst = true ∧ t.dec = State.reset.dec)) ∧
      t.bitsIn = s.bitsIn ∧ t.decOut = s.decOut) ∧
    (s.enc.estate = .done →
      (t.enc = s.enc ∨
        (∃ p, s.nextEvent = .encClock p ∧ p.rst = false ∧ p.start = true ∧
          t.enc = { estate := .fetch, cur := 0, rem := 0, acc := 0, cnt := 0, estatus := 0, errSym := 0 }) ∨
        (∃ p, s.nextEvent = .encClock p ∧ p.rst = true ∧ t.enc = State.reset.enc)) ∧
      t.symsIn = s.symsIn ∧ t.encOut = s.encOut)

/-- R255: `start` while busy is ignored: the step does the same with `start` at 1 and at 0, but for the pin itself. -/
def Obligations.StartWhileBusyIsIgnored : Prop :=
  (∀ (s : State) (p : DecPins) (b : Bool) (t t' : State), s.decBusy = true →
    step (s.before (.decClock p)) = .next t → step (s.before (.decClock { p with start := b })) = .next t' →
    { t' with din := t.din } = t) ∧
  (∀ (s : State) (p : EncPins) (b : Bool) (t t' : State), s.encBusy = true →
    step (s.before (.encClock p)) = .next t → step (s.before (.encClock { p with start := b })) = .next t' →
    { t' with ein := t.ein } = t)

/-- R261: but for the waits and the idles, every clock edge of a block changes its registers or moves an item. -/
def Obligations.EdgesMakeProgress : Prop :=
  (∀ s t p, s.nextEvent = .decClock p → p.rst = false → step s = .next t →
    selectDec (s.driveDec p).decView ∉ [.decHold, .intWait, .symWait] →
    t.dec ≠ s.dec ∨ t.bitsIn ≠ s.bitsIn ∨ t.decOut ≠ s.decOut) ∧
  (∀ s t p, s.nextEvent = .encClock p → p.rst = false → step s = .next t →
    selectEnc (s.driveEnc p).encView ∉ [.encHold, .fetchWait, .shiftWait, .flushWait] →
    t.enc ≠ s.enc)

/-! ## Trees, images, tables -/

/-- 40_tree_image.md section 1 (R112): no leaf's code is a prefix of another leaf's code. -/
def Obligations.CodesArePrefixFree : Prop :=
  ∀ t : Tree, t.codes.Pairwise (fun x y => ¬ x.2 <+: y.2 ∧ ¬ y.2 <+: x.2)

/-- 40_tree_image.md section 2 (R116): a tree with `L` leaves has `L - 1` Internal nodes and `2L - 1` nodes; with distinct leaf
values at most 257 leaves, 513 nodes and 256 bits a code. -/
def Obligations.TreeBounds : Prop :=
  ∀ t : Tree, t.internals + 1 = t.leaves.length ∧ t.size + 1 = 2 * t.leaves.length ∧
    (t.DistinctLeaves →
      t.leaves.length ≤ 257 ∧ t.internals ≤ 256 ∧ t.size ≤ Config.nNodesMax ∧ ∀ x ∈ t.codes, x.2.length ≤ Config.maxLen)

/-- R115: the canonical image fits exactly when the tree has at most 1024 nodes, fills consecutive addresses from 0, places the
left child of the node at `a` at `a + 1`, and, loaded by the host while the decoder is at rest, is an image of the tree. -/
def Obligations.BuildImageIsAnImage : Prop :=
  ∀ t : Tree, ((buildImage t).isSome = true ↔ t.size ≤ 1024) ∧
    ∀ m, buildImage t = some m →
      Memory.wf Config.nodeDepth m = true ∧ m.map (fun c => c.1) = List.range t.size ∧
      (∀ a w, (a, w) ∈ m → leafFlag w = false → (leftOf w).toNat = a + 1) ∧
      (∀ s : State, s.decAtRest →
        ∃ s', loadNodes s m = some s' ∧ Image s'.nodes t ∧ s'.dec = s.dec ∧ s'.enc = s.enc ∧ s'.codeMem = s.codeMem)

/-- R160, R162: the table holds the code of every leaf and nothing else; a tree with a repeated leaf value is refused. -/
def Obligations.BuildTableRecordsTheCodes : Prop :=
  ∀ t : Tree,
    (t.DistinctLeaves → ∃ T, buildTable t = .ok T ∧ ∀ v p, CodeTable.find T v = some p ↔ (v, p) ∈ t.codes) ∧
    (¬ t.DistinctLeaves → ∃ v, buildTable t = .error v ∧ 2 ≤ t.leaves.count v)

/-- R163: the code memory the host loads for a table holds at every index the entry of its code, with `valid = 1`, the length
and the code's bits in order, and 0 where the table has none. -/
def Obligations.BuildCodeMemHoldsTheTable : Prop :=
  ∀ (T : CodeTable) (m : Memory 266) (s : State), buildCodeMem T = some m → s.encAtRest →
    Memory.wf Config.codeN m = true ∧
    ∃ s', loadCodes s m = some s' ∧ s'.enc = s.enc ∧ s'.dec = s.dec ∧ s'.nodeMem = s.nodeMem ∧
      ∀ v : LeafValue,
        (∀ p, CodeTable.find T v = some p →
          (s'.codeAt v.val).getLsbD 265 = true ∧ ((s'.codeAt v.val).extractLsb' 256 9).toNat = p.length ∧
          codeBits (s'.codeAt v.val) = p ∧ ∀ j, p.length ≤ j → j < 256 → (s'.codeAt v.val).getLsbD j = false) ∧
        (CodeTable.find T v = none → s'.codeAt v.val = 0)

/-- R58: the bits of `Unpack` and of `Pack` one by one, and `Unpack(Pack(x)) = x ++ zeros`, with as many zeros as fill the last
byte. -/
def Obligations.UnpackOfPackPadsWithZeros : Prop :=
  pack [] = [] ∧
  (∀ bytes : List Byte, (unpack bytes).length = 8 * bytes.length ∧
    ∀ k j, k < bytes.length → j < 8 → (unpack bytes)[8 * k + j]? = (bytes[k]?).map (fun b => b.getLsbD (7 - j))) ∧
  (∀ (bits : List Bool) (k j : Nat), k < (bits.length + 7) / 8 → j < 8 →
    ((pack bits)[k]?).map (fun b => b.getLsbD (7 - j)) = some (bits.getD (8 * k + j) false)) ∧
  ∀ x : List Bool, (pack x).length = (x.length + 7) / 8 ∧
    unpack (pack x) = x ++ List.replicate ((8 - x.length % 8) % 8) false

/-! ## Runs -/

/-- 40_tree_image.md section 2 (R119, R23): a decoder that walks the image of a tree keeps on it, stands at ROOT exactly when
no bit has been taken, and meets no reserved word. -/
def Obligations.WellFormedImageIsWalked : Prop :=
  (∀ (s s' : State) (t : Tree), Image s.nodes t → exec .decStart s = .next s' → s'.OnImage t) ∧
  (∀ (s s' : State) (t : Tree), s.OnImage t → s.clocked → step s = .next s' → s'.OnImage t) ∧
  (∀ (s : State) (t : Tree), s.OnImage t → s.dec.dstate = .run →
    (s.dec.node = 0 ↔ s.dec.mid = false) ∧ classify s.nodeWord ≠ .bad)

/-- 41_decoder.md section 5 (R144): a root that is the sentinel ends the run at once with nothing moved; a root that is a byte
symbol keeps the decoder in RUN at the root for ever, putting the byte out whenever the sink is ready and taking no bit. -/
def Obligations.RootLeafRuns : Prop :=
  ∀ (s t : State) (p : DecPins), s.nextEvent = .decClock p → p.rst = false → s.dec.dstate = .run → s.dec.node = 0 →
    step s = .next t →
    (s.nodeAt 0 = 0x100100 → t.dec.dstate = .done ∧ t.dec.dstatus = 1 ∧ t.bitsIn = s.bitsIn ∧ t.decOut = s.decOut) ∧
    (∀ b : Byte, s.nodeAt 0 = leafWord (.sym b) →
      t.dec.dstate = .run ∧ t.dec.node = 0 ∧ t.bitsIn = s.bitsIn ∧ t.nodeAt 0 = s.nodeAt 0 ∧
      t.decOut = if p.outReady then s.decOut ++ [b] else s.decOut)

/-- 41_decoder.md section 1 (R145): started on an image of `t` with a source of `bits` and a fair environment, the decoder
transfers exactly what DecodeAll gives, takes exactly the bits it consumes, and ends with its status; where DecodeAll does
not end, the decoder never does and puts out ever more bytes. -/
def Obligations.DecoderRefinesDecodeAll : Prop :=
  ∀ (s : State) (t : Tree) (bits : List Bool) (e : Stalls), s.decAtRest → Image s.nodes t → e.Fair →
    (∀ r, DecodesTo t bits r →
      ∃ n run taken, runDec e n bits s = some run ∧ run.state.dec.dstate = .done ∧ run.state.dec.dstatus = r.status ∧
        run.state.decOut = s.decOut ++ r.out ∧ run.src = r.rest ∧ bits = taken ++ r.rest ∧
        run.state.bitsIn = s.bitsIn ++ taken) ∧
    ((¬ ∃ r, DecodesTo t bits r) →
      (∀ n, ∃ run, runDec e n bits s = some run ∧ run.state.dec.dstate = .run) ∧
      (∀ k, ∃ n run, runDec e n bits s = some run ∧ s.decOut.length + k ≤ run.state.decOut.length))

/-- 43_encoder.md section 1 (R186): started with a source of `input` and a fair environment, the encoder takes the symbols up
to the first that fails, transfers exactly the bytes EncodeAll gives, and ends with its status and `err_sym`. -/
def Obligations.EncoderRefinesEncodeAll : Prop :=
  ∀ (s : State) (input : List Byte) (e : Stalls), s.encAtRest → e.Fair →
    ∃ n run, runEnc e n input s = some run ∧ run.state.enc.estate = .done ∧
      run.state.enc.estatus = (encodeAll s.codeFn input).status ∧ run.state.enc.errSym = (encodeAll s.codeFn input).errSym ∧
      run.state.encOut = s.encOut ++ (encodeAll s.codeFn input).bytes ∧
      run.state.symsIn = s.symsIn ++ (encodeAll s.codeFn input).taken ∧
      input = (encodeAll s.codeFn input).taken ++ run.src

/-- 44_container_and_host.md sections 2 and 3 (R202, R203, R207), over the machine: for a tree with distinct leaf values, the
sentinel and every byte of the input, in every fair environment and from every pair of machines at rest, compress ends with a
container that begins with the tree description, on every output that takes its bytes; an output that takes only the first `j`
of them makes compress fail with those `j` written. Decompress of the container ends with the input on every output that takes
its bytes and is finalized; an output that takes only the first `j` bytes, or takes all and is not finalized, makes it fail. The
output streams are the model's parameter (log 21). -/
def Obligations.CompressThenDecompressIsIdentity : Prop :=
  ∀ (f : TreeFormat) (t : Tree) (input : List Byte) (s s' : State) (e e' : Stalls) (verdict : Bool), f.Contract →
    t.DistinctLeaves → t.HasEos → t.Covers input → s.encAtRest → s'.decAtRest → e.Fair → e'.Fair →
    ∃ container : List Byte, f.write t <+: container ∧
      (∀ o : OutputStream, (∀ i, i < container.length → o.takes i = true) →
        ∃ n, ∀ k, n ≤ k → compress f o e k t input s = { ending := .container, output := container }) ∧
      (∀ (o : OutputStream) (j : Nat), j < container.length → o.takes j = false → (∀ i, i < j → o.takes i = true) →
        ∃ n, ∀ k, n ≤ k → compress f o e k t input s = { ending := .writeFailed, output := container.take j }) ∧
      (∀ o : OutputStream, (∀ i, i < input.length → o.takes i = true) →
        ∃ n, ∀ k, n ≤ k → decompress f o verdict e' k container s' =
          { ending := if o.finalizes then .data else .finalizeFailed, output := input }) ∧
      (∀ (o : OutputStream) (j : Nat), j < input.length → o.takes j = false → (∀ i, i < j → o.takes i = true) →
        ∃ n, ∀ k, n ≤ k → decompress f o verdict e' k container s' = { ending := .writeFailed, output := input.take j })
end

