-- ==== Sys2Proof/Laws/Encoding.lean ====
section
/-! SUPPORT. The fields of an encoded word are what was encoded (R81, R85), and a word is made of its fields. -/

namespace Sys2Proof

/-- A three-part word, bit by bit. -/
theorem three_parts_getLsbD {a b c : Nat} (x : BitVec a) (y : BitVec b) (z : BitVec c) (i : Nat) :
    (x ++ y ++ z).getLsbD i =
      if i < c then z.getLsbD i else if i < c + b then y.getLsbD (i - c) else x.getLsbD (i - c - b) := by
  rw [BitVec.getLsbD_append, BitVec.getLsbD_append]
  by_cases h : i < c
  · simp only [h, if_true]
  · have e : (i - c < b) = (i < c + b) := by rw [eq_iff_iff]; omega
    simp only [h, if_false, e]

/-- The low part of a three-part word. -/
theorem three_parts_low {a b c : Nat} (x : BitVec a) (y : BitVec b) (z : BitVec c) :
    (x ++ y ++ z).extractLsb' 0 c = z := by
  apply BitVec.eq_of_getLsbD_eq
  intro i hi
  rw [BitVec.getLsbD_extractLsb', three_parts_getLsbD]
  have : 0 + i = i := by omega
  simp only [hi, this, decide_true, Bool.true_and, if_true]

/-- The middle part of a three-part word. -/
theorem three_parts_mid {a b c : Nat} (x : BitVec a) (y : BitVec b) (z : BitVec c) :
    (x ++ y ++ z).extractLsb' c b = y := by
  apply BitVec.eq_of_getLsbD_eq
  intro i hi
  rw [BitVec.getLsbD_extractLsb', three_parts_getLsbD]
  have h1 : ¬ c + i < c := by omega
  have h2 : c + i < c + b := by omega
  have h3 : c + i - c = i := by omega
  simp only [hi, h1, h2, h3, decide_true, Bool.true_and, if_true, if_false]

/-- The bits above the middle part of a three-part word. -/
theorem three_parts_high {a b c : Nat} (x : BitVec a) (y : BitVec b) (z : BitVec c) (i : Nat) :
    (x ++ y ++ z).getLsbD (c + b + i) = x.getLsbD i := by
  rw [three_parts_getLsbD]
  have h1 : ¬ c + b + i < c := by omega
  have h2 : ¬ c + b + i < c + b := by omega
  have h3 : c + b + i - c - b = i := by omega
  simp only [h1, h2, h3, if_false]

/-- A word is its top bit, its middle and its low part. -/
theorem three_parts_eta {b c : Nat} (w : BitVec (1 + b + c)) :
    BitVec.ofBool (w.getLsbD (c + b)) ++ w.extractLsb' c b ++ w.extractLsb' 0 c = w := by
  apply BitVec.eq_of_getLsbD_eq
  intro i hi
  rw [three_parts_getLsbD]
  by_cases h1 : i < c
  · simp only [h1, if_true, BitVec.getLsbD_extractLsb', decide_true, Bool.true_and, Nat.zero_add]
  · by_cases h2 : i < c + b
    · have h3 : i - c < b := by omega
      have h4 : c + (i - c) = i := by omega
      simp only [h1, h2, if_true, if_false, BitVec.getLsbD_extractLsb', h3, h4, decide_true, Bool.true_and]
    · have h5 : i = c + b := by omega
      subst h5
      have h6 : c + b - c - b = 0 := by omega
      simp only [h1, h2, if_false, h6]
      cases w.getLsbD (c + b) <;> rfl

/-! ## Node words (R81) -/

@[simp] theorem leafFlag_encodeInt (l r : NodeAddr) : leafFlag (encodeInt l r) = false :=
  three_parts_high (0#1) l r 0

@[simp] theorem leftOf_encodeInt (l r : NodeAddr) : leftOf (encodeInt l r) = l := three_parts_mid (0#1) l r

@[simp] theorem rightOf_encodeInt (l r : NodeAddr) : rightOf (encodeInt l r) = r := three_parts_low (0#1) l r

@[simp] theorem leafFlag_encodeLeaf (x : BitVec 11) (v : Val) : leafFlag (encodeLeaf x v) = true :=
  three_parts_high (1#1) x v 0

@[simp] theorem reservedOf_encodeLeaf (x : BitVec 11) (v : Val) : reservedOf (encodeLeaf x v) = x :=
  three_parts_mid (1#1) x v

@[simp] theorem valOf_encodeLeaf (x : BitVec 11) (v : Val) : valOf (encodeLeaf x v) = v := three_parts_low (1#1) x v

/-- An Internal node is its two children (R81). -/
theorem encodeInt_eta {w : NodeWord} (h : leafFlag w = false) : encodeInt (leftOf w) (rightOf w) = w := by
  have e := three_parts_eta (b := 10) (c := 10) w
  have h' : w.getLsbD (10 + 10) = false := h
  rw [h'] at e
  exact e

/-- A Leaf is its reserved field and its value (R81). -/
theorem encodeLeaf_eta {w : NodeWord} (h : leafFlag w = true) : encodeLeaf (reservedOf w) (valOf w) = w := by
  have e := three_parts_eta (b := 11) (c := 9) w
  have h' : w.getLsbD (9 + 11) = true := h
  rw [h'] at e
  exact e

/-! ## Code entries (R85) -/

@[simp] theorem entryValid_encodeEntry (b : Bool) (n : Len) (c : CodeField) : entryValid (encodeEntry b n c) = b := by
  have e := three_parts_high (BitVec.ofBool b) n c 0
  have : (BitVec.ofBool b).getLsbD 0 = b := by cases b <;> rfl
  rw [this] at e
  exact e

@[simp] theorem entryLen_encodeEntry (b : Bool) (n : Len) (c : CodeField) : entryLen (encodeEntry b n c) = n :=
  three_parts_mid (BitVec.ofBool b) n c

@[simp] theorem entryCode_encodeEntry (b : Bool) (n : Len) (c : CodeField) : entryCode (encodeEntry b n c) = c :=
  three_parts_low (BitVec.ofBool b) n c

/-- An entry is its three fields (R85). -/
theorem encodeEntry_eta (e : Entry) : encodeEntry (entryValid e) (entryLen e) (entryCode e) = e :=
  three_parts_eta (b := 9) (c := 256) e

/-- The header of an encoded entry is its flag and its length. -/
theorem entryHeader_encodeEntry (b : Bool) (n : Len) (c : CodeField) :
    entryHeader (encodeEntry b n c) = BitVec.ofBool b ++ n := by
  apply BitVec.eq_of_getLsbD_eq
  intro i hi
  unfold entryHeader encodeEntry
  rw [BitVec.getLsbD_extractLsb', three_parts_getLsbD, BitVec.getLsbD_append]
  have h1 : ¬ 256 + i < 256 := by omega
  have h2 : (256 + i < 256 + 9) = (i < 9) := by rw [eq_iff_iff]; omega
  have h3 : 256 + i - 256 = i := by omega
  simp only [hi, h1, h2, h3, decide_true, Bool.true_and, if_false]

/-! ## Kinds by fields (R82) -/

/-- The values of a `SYM` leaf's field are those below 256, and the reserved field is then 0 (R82). -/
theorem classify_encodeLeaf (x : BitVec 11) (v : Val) :
    classify (encodeLeaf x v) = if x = 0 then (if v.toNat < 256 then .sym else if v = 256 then .eos else .bad) else .bad := by
  have hb : (encodeLeaf x v).toNat = 2 ^ 20 + x.toNat * 2 ^ 9 + v.toNat := by
    have hx := x.isLt
    have hv := v.isLt
    unfold encodeLeaf
    rw [BitVec.toNat_append, BitVec.toNat_append, ← Nat.shiftLeft_add_eq_or_of_lt hv, ← Nat.shiftLeft_add_eq_or_of_lt hx,
      Nat.shiftLeft_eq, Nat.shiftLeft_eq]
    simp
    omega
  have hs : (encodeLeaf x v).extractLsb' 8 12 = 0#12 ↔ (x = 0 ∧ v.toNat < 256) := by
    rw [← BitVec.toNat_inj, BitVec.extractLsb'_toNat, hb, ← BitVec.toNat_inj, Nat.shiftRight_eq_div_pow]
    have hx := x.isLt
    have hv := v.isLt
    simp
    omega
  have he : encodeLeaf x v = 0x100100#21 ↔ (x = 0 ∧ v = 256) := by
    rw [← BitVec.toNat_inj, hb, ← BitVec.toNat_inj, ← BitVec.toNat_inj]
    have hx := x.isLt
    have hv := v.isLt
    simp
    omega
  unfold classify
  rw [leafFlag_encodeLeaf, if_neg (by decide)]
  by_cases h0 : x = 0
  · by_cases h1 : v.toNat < 256
    · rw [if_pos (hs.2 ⟨h0, h1⟩), if_pos h0, if_pos h1]
    · rw [if_neg (fun h => h1 (hs.1 h).2), if_pos h0, if_neg h1]
      by_cases h2 : v = 256
      · rw [if_pos (he.2 ⟨h0, h2⟩), if_pos h2]
      · rw [if_neg (fun h => h2 (he.1 h).2), if_neg h2]
  · rw [if_neg (fun h => h0 (hs.1 h).1), if_neg (fun h => h0 (he.1 h).1), if_neg h0]

end Sys2Proof
end

