-- ==== Sys2Proof/Laws/HostSide.lean ====
section
/-! SUPPORT. The host's sources and outputs: exhaustion once shown is final (R68, R205 duty 6), what an output that fails has
stored (R202), and what the contract of a tree format says of a cut-off description (R118). -/

namespace Sys2Proof.Machine

/-! ## A source in a run -/

section Source

variable {α : Type} (e : Stalls) (n : Nat) (r : Running α) (ready : Bool) (t : State)

@[simp] theorem Running.after_shown : (r.after e n ready t).shown = (r.shown || r.exhausted e n) := rfl

@[simp] theorem Running.after_state : (r.after e n ready t).state = t := rfl

theorem Running.after_src :
    (r.after e n ready t).src = if ready && r.offers e n then r.src.tail else r.src := rfl

end Source

/-- A source with no item left that has shown so: it offers nothing and signals exhaustion in every step. -/
def Running.Ended {α : Type} (r : Running α) : Prop := r.src = [] ∧ r.shown = true

/-- An ended source offers nothing and signals exhaustion, whatever the stalls. -/
theorem Running.Ended.signals {α : Type} {r : Running α} (h : r.Ended) (e : Stalls) (n : Nat) :
    r.offers e n = false ∧ r.exhausted e n = true := by
  simp [Running.offers, Running.exhausted, h.1, h.2]

/-- An ended source stays so. -/
theorem Running.Ended.after {α : Type} {r : Running α} (h : r.Ended) (e : Stalls) (n : Nat) (ready : Bool) (t : State) :
    (r.after e n ready t).Ended := by
  refine ⟨?_, ?_⟩
  · rw [Running.after_src, h.1]
    split <;> rfl
  · simp [h.2]

/-- A source that signals exhaustion has ended. -/
theorem Running.after_ended {α : Type} {r : Running α} {e : Stalls} {n : Nat} (h : r.exhausted e n = true) (ready : Bool)
    (t : State) : (r.after e n ready t).Ended := by
  have hs : r.src = [] := by
    simp only [Running.exhausted, Bool.and_eq_true, List.isEmpty_iff] at h
    exact h.1
  refine ⟨?_, ?_⟩
  · rw [Running.after_src, hs]
    split <;> rfl
  · simp [h]

/-- What a step of the decoder against its source leaves. -/
theorem feedDecStep_some {e : Stalls} {n : Nat} {r q : Running Bool} (h : feedDecStep e n r = some q) :
    ∃ t, decEdge (sourcePinsDec e n r) r.state = .next t ∧ q = r.after e n r.state.bitReady t := by
  unfold feedDecStep at h
  split at h
  · exact ⟨_, ‹_›, (Option.some.inj h).symm⟩
  · cases h
  · cases h

/-- What a step of the encoder against its source leaves. -/
theorem feedEncStep_some {e : Stalls} {n : Nat} {r q : Running Byte} (h : feedEncStep e n r = some q) :
    ∃ t, encEdge (sourcePinsEnc e n r) r.state = .next t ∧ q = r.after e n r.state.inReady t := by
  unfold feedEncStep at h
  split at h
  · exact ⟨_, ‹_›, (Option.some.inj h).symm⟩
  · cases h
  · cases h

/-- Once the bit source has signalled exhaustion it does so in every later step of the run, and offers no bit (R68). -/
theorem feedDec_exhaustion_final {e : Stalls} {n : Nat} {r q : Running Bool} (hq : feedDec e n r = some q)
    (h : q.exhausted e n = true) (k : Nat) {q' : Running Bool} (hq' : feedDec e (n + 1 + k) r = some q') :
    q'.Ended := by
  induction k generalizing q' with
  | zero =>
    have hs : (feedDec e n r).bind (feedDecStep e n) = some q' := hq'
    rw [hq] at hs
    obtain ⟨t, _, rfl⟩ := feedDecStep_some (show feedDecStep e n q = some q' from hs)
    exact Running.after_ended h _ _
  | succ k ih =>
    have hs : (feedDec e (n + 1 + k) r).bind (feedDecStep e (n + 1 + k)) = some q' := hq'
    obtain ⟨p, hp, hs'⟩ := Option.bind_eq_some_iff.1 hs
    obtain ⟨t, _, rfl⟩ := feedDecStep_some hs'
    exact (ih hp).after _ _ _ _

/-- Once the symbol source has signalled exhaustion it does so in every later step of the run, and offers no symbol (R68). -/
theorem feedEnc_exhaustion_final {e : Stalls} {n : Nat} {r q : Running Byte} (hq : feedEnc e n r = some q)
    (h : q.exhausted e n = true) (k : Nat) {q' : Running Byte} (hq' : feedEnc e (n + 1 + k) r = some q') :
    q'.Ended := by
  induction k generalizing q' with
  | zero =>
    have hs : (feedEnc e n r).bind (feedEncStep e n) = some q' := hq'
    rw [hq] at hs
    obtain ⟨t, _, rfl⟩ := feedEncStep_some (show feedEncStep e n q = some q' from hs)
    exact Running.after_ended h _ _
  | succ k ih =>
    have hs : (feedEnc e (n + 1 + k) r).bind (feedEncStep e (n + 1 + k)) = some q' := hq'
    obtain ⟨p, hp, hs'⟩ := Option.bind_eq_some_iff.1 hs
    obtain ⟨t, _, rfl⟩ := feedEncStep_some hs'
    exact (ih hp).after _ _ _ _

/-! ## The output stream -/

/-- An output that takes every position of the bytes stores them all. -/
theorem OutputStream.append_taken {o : OutputStream} (before bytes : List Byte)
    (h : ∀ i, before.length ≤ i → i < before.length + bytes.length → o.takes i = true) :
    o.append before bytes = { bytes := before ++ bytes, ok := true } := by
  induction bytes generalizing before with
  | nil => simp [OutputStream.append]
  | cons b rest ih =>
    have h0 : o.takes before.length = true := h _ (Nat.le_refl _) (by simp)
    rw [OutputStream.append, if_pos h0, ih (before ++ [b])]
    · simp
    · intro i h1 h2
      simp only [List.length_append, List.length_cons, List.length_nil] at h1 h2
      exact h i (by omega) (by simp only [List.length_cons]; omega)

/-- An output that takes the first positions and not the next stores those bytes, and the write has failed. -/
theorem OutputStream.append_fails {o : OutputStream} (before bytes : List Byte) (j : Nat) (hj : j < bytes.length)
    (h : ∀ i, before.length ≤ i → i < before.length + j → o.takes i = true) (hf : o.takes (before.length + j) = false) :
    o.append before bytes = { bytes := before ++ bytes.take j, ok := false } := by
  induction bytes generalizing before j with
  | nil => simp at hj
  | cons b rest ih =>
    cases j with
    | zero =>
      have h0 : o.takes before.length = false := hf
      rw [OutputStream.append, if_neg (by rw [h0]; decide)]
      simp
    | succ j =>
      have h0 : o.takes before.length = true := h _ (Nat.le_refl _) (by omega)
      rw [OutputStream.append, if_pos h0, ih (before ++ [b]) j (by simpa using hj)]
      · simp
      · intro i h1 h2
        simp only [List.length_append, List.length_cons, List.length_nil] at h1 h2
        exact h i (by omega) (by omega)
      · simp only [List.length_append, List.length_cons, List.length_nil]
        rw [show before.length + 1 + j = before.length + (j + 1) by omega]
        exact hf

/-! ## The contract of a tree format (R117, R118) -/

/-- What the reader makes of what the writer wrote, with anything after it. -/
theorem TreeFormat.Contract.read_write {f : TreeFormat} (h : f.Contract) (t : Tree) (rest : List Byte) :
    f.read (f.write t ++ rest) = .tree t rest := h.read_description _ t rest (h.write_describes t)

/-- The reader returns a tree only from a stream that begins with a description of it, and stops immediately after it. -/
theorem TreeFormat.Contract.read_tree {f : TreeFormat} (h : f.Contract) {bytes rest : List Byte} {t : Tree}
    (hr : f.read bytes = .tree t rest) : ∃ d, f.describes d t ∧ bytes = d ++ rest := by
  by_contra hn
  have hf : f.read bytes = .noTree ∨ f.read bytes = .malformed := by
    apply h.read_fails
    rintro d u rest' hd rfl
    rw [h.read_description d u rest' hd] at hr
    cases hr
    exact hn ⟨d, hd, rfl⟩
  rcases hf with hf | hf <;> rw [hf] at hr <;> cases hr

/-- A description cut off before its end gives no tree (R118). -/
theorem TreeFormat.Contract.cut_off {f : TreeFormat} (h : f.Contract) {d tail : List Byte} {t : Tree}
    (hd : f.describes (d ++ tail) t) (ht : tail ≠ []) : f.read d = .noTree ∨ f.read d = .malformed := by
  apply h.read_fails
  rintro d' u rest hd' rfl
  have h1 := h.read_description _ t [] hd
  have h2 := h.read_description d' u (rest ++ tail) hd'
  rw [List.append_nil, List.append_assoc, h2] at h1
  injection h1 with _ h3
  exact ht (List.append_eq_nil_iff.1 h3).2

/-- `decompress` of a stream that gives no tree ends so, and neither starts the decoder nor writes a byte (R204). -/
theorem decompress_cut_off {f : TreeFormat} (h : f.Contract) {d tail : List Byte} {t : Tree} (hd : f.describes (d ++ tail) t)
    (ht : tail ≠ []) (o : OutputStream) (verdict : Bool) (e : Stalls) (n : Nat) (s : State) :
    decompress f o verdict e n d s = { ending := .noTree, output := [] } ∨
      decompress f o verdict e n d s = { ending := .malformed, output := [] } := by
  rcases h.cut_off hd ht with hr | hr
  · exact .inl (by simp only [decompress, hr])
  · exact .inr (by simp only [decompress, hr])

/-! ## The end of compress and of decompress -/

/-- A stream to which every write has succeeded holds what was written, behind what it held. -/
theorem OutputStream.append_ok {o : OutputStream} {before bytes : List Byte} (h : (o.append before bytes).ok ≠ false) :
    (o.append before bytes).bytes = before ++ bytes := by
  induction bytes generalizing before with
  | nil => simp [OutputStream.append]
  | cons b rest ih =>
    rw [OutputStream.append] at h ⊢
    split_ifs at h ⊢ with hb
    · rw [ih h]; simp
    · exact absurd rfl h

/-- What an output stream holds is a beginning of what was to be written. -/
theorem OutputStream.append_prefix (o : OutputStream) (before bytes : List Byte) :
    (o.append before bytes).bytes <+: before ++ bytes := by
  induction bytes generalizing before with
  | nil => simp [OutputStream.append]
  | cons b rest ih =>
    rw [OutputStream.append]
    split_ifs
    · simpa using ih (before ++ [b])
    · exact List.prefix_append _ _

/-- `compress` answers a container only where every byte of the run was written and the run ended with OK (R202). -/
theorem compressEnd_container {o : OutputStream} {written : List Byte} {before after : State}
    (h : (compressEnd o written before after).ending = .container) :
    after.encDone = true ∧ after.encStatus = stOk ∧
      (compressEnd o written before after).output = written ++ after.encOut.drop before.encOut.length := by
  by_cases hok : (o.append written (after.encOut.drop before.encOut.length)).ok = false
  · simp [compressEnd, hok] at h
  by_cases hd : after.encDone = true
  · by_cases hs : after.encStatus = stOk
    · exact ⟨hd, hs, by simp [compressEnd, encRunResult, hok, hd, hs, OutputStream.append_ok hok]⟩
    · simp [compressEnd, encRunResult, hok, hd, hs] at h
  · simp [compressEnd, encRunResult, hok, hd] at h

/-- `decompress` answers complete data only where every byte of the run was written, the output was finalized and the host
counts the status of the run as a success (R203 step 7, R210). -/
theorem decompressEnd_data {o : OutputStream} {verdict : Bool} {before after : State}
    (h : (decompressEnd o verdict before after).ending = .data) :
    after.decDone = true ∧ decompressSucceeds verdict after.decStatus = true ∧ o.finalizes = true ∧
      (decompressEnd o verdict before after).output = after.decOut.drop before.decOut.length := by
  by_cases hok : (o.append [] (after.decOut.drop before.decOut.length)).ok = false
  · simp [decompressEnd, hok] at h
  by_cases hd : after.decDone = true
  · by_cases hs : decompressSucceeds verdict after.decStatus = true
    · by_cases hf : o.finalizes = true
      · exact ⟨hd, hs, hf, by simp [decompressEnd, decRunResult, hok, hd, hs, hf, OutputStream.append_ok hok]⟩
      · simp [decompressEnd, decRunResult, hok, hd, hs, hf] at h
    · simp [decompressEnd, decRunResult, hok, hd, hs] at h
  · simp [decompressEnd, decRunResult, hok, hd] at h

/-- A write that fails ends `decompress`, whatever the run did, with the bytes before it in the output (R210). -/
theorem decompressEnd_writeFailed {o : OutputStream} {verdict : Bool} {before after : State} {j : Nat}
    (hj : j < (after.decOut.drop before.decOut.length).length) (h : ∀ i, i < j → o.takes i = true) (hf : o.takes j = false) :
    decompressEnd o verdict before after =
      { ending := .writeFailed, output := (after.decOut.drop before.decOut.length).take j } := by
  have ha := OutputStream.append_fails (o := o) [] _ j hj (fun i _ hi => h i (by simpa using hi)) (by simpa using hf)
  simp [decompressEnd, ha]

end Sys2Proof.Machine
end

