-- ==== Sys2Proof/Laws/Memory.lean ====
section
/-! SUPPORT. The laws of the word memories: read after write, and the canonical form every write keeps. -/

namespace Sys2Proof.Machine

variable {n : Nat}

@[simp] theorem Memory.get?_nil (a : Nat) : Memory.get? ([] : Memory n) a = none := rfl

theorem Memory.get?_cons (k : Nat) (w : BitVec n) (m : Memory n) (a : Nat) :
    Memory.get? ((k, w) :: m) a = if k = a then some w else Memory.get? m a := rfl

/-- A write makes the address read as the word written. -/
theorem Memory.get?_set_self (m : Memory n) (a : Nat) (w : BitVec n) : Memory.get? (Memory.set m a w) a = some w := by
  induction m with
  | nil => simp [Memory.set, Memory.get?]
  | cons c m ih =>
    obtain ⟨k, x⟩ := c
    unfold Memory.set
    split
    · simp [Memory.get?]
    · split
      · simp [Memory.get?]
      · rename_i h1 h2
        rw [Memory.get?_cons, if_neg (fun h => h2 h.symm)]
        exact ih

/-- A write leaves every other address alone. -/
theorem Memory.get?_set_other (m : Memory n) (a b : Nat) (w : BitVec n) (h : b ≠ a) :
    Memory.get? (Memory.set m a w) b = Memory.get? m b := by
  induction m with
  | nil => simp [Memory.set, Memory.get?, Ne.symm h]
  | cons c m ih =>
    obtain ⟨k, x⟩ := c
    unfold Memory.set
    split
    · simp [Memory.get?, Ne.symm h]
    · split
      · rename_i h1 h2
        subst h2
        simp [Memory.get?, Ne.symm h]
      · simp only [Memory.get?_cons, ih]

/-- A write within bounds keeps a rising list rising. -/
theorem Memory.risingFrom_set (depth lo : Nat) (m : Memory n) (a : Nat) (w : BitVec n) (hlo : lo ≤ a) (ha : a < depth)
    (hm : Memory.risingFrom depth lo m = true) : Memory.risingFrom depth lo (Memory.set m a w) = true := by
  induction m generalizing lo with
  | nil => simp [Memory.set, Memory.risingFrom, hlo, ha]
  | cons c m ih =>
    obtain ⟨k, x⟩ := c
    simp only [Memory.risingFrom, Bool.and_eq_true, Nat.ble_eq, Nat.blt_eq] at hm
    unfold Memory.set
    split
    · rename_i h1
      simp only [Memory.risingFrom, Bool.and_eq_true, Nat.ble_eq, Nat.blt_eq]
      exact ⟨⟨hlo, ha⟩, ⟨h1, hm.1.2⟩, hm.2⟩
    · split
      · rename_i h1 h2
        subst h2
        simp only [Memory.risingFrom, Bool.and_eq_true, Nat.ble_eq, Nat.blt_eq]
        exact ⟨⟨hlo, ha⟩, hm.2⟩
      · rename_i h1 h2
        simp only [Memory.risingFrom, Bool.and_eq_true, Nat.ble_eq, Nat.blt_eq]
        exact ⟨hm.1, ih (k + 1) (by omega) hm.2⟩

/-- A write within the memory keeps the canonical form. -/
theorem Memory.wf_set (depth : Nat) (m : Memory n) (a : Nat) (w : BitVec n) (ha : a < depth)
    (hm : Memory.wf depth m = true) : Memory.wf depth (Memory.set m a w) = true :=
  Memory.risingFrom_set depth 0 m a w (Nat.zero_le a) ha hm

/-- The empty memory is canonical. -/
@[simp] theorem Memory.wf_nil (depth : Nat) : Memory.wf depth ([] : Memory n) = true := rfl

/-- Every address is listed or not: an unlisted one below the first reads as nothing. -/
theorem Memory.get?_below (depth lo : Nat) (m : Memory n) (hm : Memory.risingFrom depth lo m = true) (a : Nat) (ha : a < lo) :
    Memory.get? m a = none := by
  induction m generalizing lo with
  | nil => rfl
  | cons c m ih =>
    obtain ⟨k, x⟩ := c
    simp only [Memory.risingFrom, Bool.and_eq_true, Nat.ble_eq, Nat.blt_eq] at hm
    rw [Memory.get?_cons, if_neg (by omega)]
    exact ih (k + 1) hm.2 (by omega)

/-- Canonical memories that read alike are equal data. -/
theorem Memory.ext_of_rising (depth lo : Nat) (m m' : Memory n) (hm : Memory.risingFrom depth lo m = true)
    (hm' : Memory.risingFrom depth lo m' = true) (h : ∀ a, Memory.get? m a = Memory.get? m' a) : m = m' := by
  induction m generalizing lo m' with
  | nil =>
    cases m' with
    | nil => rfl
    | cons c r =>
      obtain ⟨k, w⟩ := c
      have := h k
      simp [Memory.get?] at this
  | cons c r ih =>
    obtain ⟨k, w⟩ := c
    cases m' with
    | nil =>
      have := h k
      simp [Memory.get?] at this
    | cons c' r' =>
      obtain ⟨k', w'⟩ := c'
      simp only [Memory.risingFrom, Bool.and_eq_true, Nat.ble_eq, Nat.blt_eq] at hm hm'
      have hk : k = k' := by
        rcases Nat.lt_trichotomy k k' with hlt | heq | hgt
        · have h1 := h k
          rw [Memory.get?_cons, if_pos rfl, Memory.get?_cons, if_neg (by omega),
            Memory.get?_below depth (k' + 1) r' hm'.2 k (by omega)] at h1
          cases h1
        · exact heq
        · have h1 := h k'
          rw [Memory.get?_cons, if_neg (by omega), Memory.get?_below depth (k + 1) r hm.2 k' (by omega),
            Memory.get?_cons, if_pos rfl] at h1
          cases h1
      subst hk
      have hw : w = w' := by simpa [Memory.get?] using h k
      subst hw
      have hr : r = r' := by
        refine ih (k + 1) r' hm.2 hm'.2 (fun a => ?_)
        by_cases ha : k = a
        · subst ha
          rw [Memory.get?_below depth (k + 1) r hm.2 k (by omega), Memory.get?_below depth (k + 1) r' hm'.2 k (by omega)]
        · have := h a
          rwa [Memory.get?_cons, if_neg ha, Memory.get?_cons, if_neg ha] at this
      rw [hr]

/-- A host write makes the node address read as the word written. -/
theorem State.nodeAt_setNode_self (s : State) (a : NodeAddr) (w : NodeWord) : (s.setNode a w).nodeAt a = w := by
  simp [State.nodeAt, State.setNode, Memory.get?_set_self]

/-- A host write leaves every other node address alone. -/
theorem State.nodeAt_setNode_other (s : State) (a b : NodeAddr) (w : NodeWord) (h : b ≠ a) :
    (s.setNode a w).nodeAt b = s.nodeAt b := by
  have : b.toNat ≠ a.toNat := fun e => h (BitVec.eq_of_toNat_eq e)
  simp [State.nodeAt, State.setNode, Memory.get?_set_other _ _ _ _ this]

/-- A host write makes the code index read as the entry written. -/
theorem State.codeAt_setCode_self (s : State) (i : Val) (e : Entry) : (s.setCode i e).codeAt i = e := by
  simp [State.codeAt, State.setCode, Memory.get?_set_self]

/-- A host write leaves every other code index alone. -/
theorem State.codeAt_setCode_other (s : State) (i j : Val) (e : Entry) (h : j ≠ i) :
    (s.setCode i e).codeAt j = s.codeAt j := by
  have : j.toNat ≠ i.toNat := fun e => h (BitVec.eq_of_toNat_eq e)
  simp [State.codeAt, State.setCode, Memory.get?_set_other _ _ _ _ this]

end Sys2Proof.Machine
end

