-- ==== Sys2Proof/Laws/Operands.lean ====
section
/-! SUPPORT. The operand forms, bit by bit: the kinds of a word and of an entry by their conditions, the accumulator, the
completed byte, the code bits. -/

namespace Sys2Proof

/-- A word without the leaf flag is an Internal node (R82). -/
theorem classify_int {w : NodeWord} (h : w.getLsbD 20 = false) : classify w = .int := by
  unfold classify leafFlag
  rw [if_pos h]

/-- An Internal node has no leaf flag (R82). -/
theorem leafFlag_of_int {w : NodeWord} (h : classify w = .int) : leafFlag w = false := by
  unfold classify at h
  split at h
  · assumption
  · split at h
    · cases h
    · split at h <;> cases h

/-- A reserved word by the condition of R82. -/
theorem classify_bad {w : NodeWord} (h1 : w.getLsbD 20 = true)
    (h2 : w.extractLsb' 9 11 ≠ 0 ∨ 256 < (w.extractLsb' 0 9).toNat) : classify w = .bad := by
  unfold classify leafFlag
  rw [if_neg (by simp [h1])]
  have hw := w.isLt
  rcases h2 with h2 | h2
  · have hne : w.toNat / 2 ^ 9 % 2 ^ 11 ≠ 0 := by
      intro h
      apply h2
      apply BitVec.eq_of_toNat_eq
      simp [BitVec.extractLsb'_toNat, Nat.shiftRight_eq_div_pow]
      omega
    rw [if_neg, if_neg]
    · intro h
      rw [h] at hne
      exact hne (by decide)
    · intro h
      have := congrArg BitVec.toNat h
      simp [BitVec.extractLsb'_toNat, Nat.shiftRight_eq_div_pow] at this
      omega
  · simp [BitVec.extractLsb'_toNat, Nat.shiftRight_eq_div_pow] at h2
    rw [if_neg, if_neg]
    · intro h
      rw [h] at h2
      exact absurd h2 (by decide)
    · intro h
      have := congrArg BitVec.toNat h
      simp [BitVec.extractLsb'_toNat, Nat.shiftRight_eq_div_pow] at this
      omega

/-- An entry with `valid = 0` is `C-NONE` (R85). -/
theorem classifyEntry_none {e : Entry} (h : e.getLsbD 265 = false) : classifyEntry e = .none := by
  unfold classifyEntry entryValid
  rw [if_pos h]

/-- A valid entry with a length of at most 256 is `C-CODE` (R85). -/
theorem classifyEntry_code {e : Entry} (h : e.getLsbD 265 = true) (hl : (entryLen e).toNat ≤ 256) :
    classifyEntry e = .code := by
  unfold classifyEntry entryValid
  rw [if_neg (ne_of_eq_of_ne h (by decide)), if_pos hl]

/-- A valid entry with a length above 256 is `C-BAD` (R85). -/
theorem classifyEntry_bad {e : Entry} (h : e.getLsbD 265 = true) (hl : 256 < (entryLen e).toNat) :
    classifyEntry e = .bad := by
  unfold classifyEntry entryValid
  rw [if_neg (ne_of_eq_of_ne h (by decide)), if_neg (by omega)]

/-- An entry of kind `C-CODE` has a length of at most 256 (R85). -/
theorem entryLen_of_code {e : Entry} (h : classifyEntry e = .code) : (entryLen e).toNat ≤ 256 := by
  unfold classifyEntry at h
  split at h
  · cases h
  · split at h
    · assumption
    · cases h

namespace Machine

/-- `acc[7-cnt] <- b`, bit by bit (R178). -/
theorem accWith_getLsbD (acc : Byte) (cnt : BitVec 3) (b : Bool) (j : Nat) :
    (accWith acc cnt b).getLsbD j = if j = 7 - cnt.toNat then b else acc.getLsbD j := by
  unfold accWith
  by_cases hj : j < 8
  · cases b <;> simp [hj] <;> by_cases h : j = 7 - cnt.toNat <;> simp [h] <;> grind
  · have h1 : ∀ x : Byte, x.getLsbD j = false := fun x => BitVec.getLsbD_of_ge x j (by omega)
    have : j ≠ 7 - cnt.toNat := by omega
    simp [h1, this]

/-- `{acc[7:1], b}`, bit by bit (R179). -/
theorem accByte_getLsbD (acc : Byte) (b : Bool) (j : Nat) :
    (accByte acc b).getLsbD j = if j = 0 then b else acc.getLsbD j := by
  unfold accByte
  rw [BitVec.getLsbD_append]
  by_cases h : j = 0
  · simp [h]
  · have h1 : ¬ j < 1 := by omega
    simp only [h1, if_false, h, BitVec.getLsbD_extractLsb', show 1 + (j - 1) = j by omega]
    by_cases h8 : j < 8
    · simp [show j - 1 < 7 by omega]
    · simp [BitVec.getLsbD_of_ge acc j (by omega)]

/-- The length of the code bits (R86). -/
@[simp] theorem codeBits_length (e : Entry) : (codeBits e).length = (entryLen e).toNat := by
  simp [codeBits]

end Machine

end Sys2Proof
end

