-- ==== Sys2Proof/Laws/State.lean ====
section
/-! SUPPORT. One lemma per field per named update of State, so that no later proof unfolds a record update. -/

namespace Sys2Proof.Machine

variable (s : State)

@[simp] theorem State.setDec_dec (d : DecRegs) : (State.setDec d s).dec = d := rfl
@[simp] theorem State.setDec_enc (d : DecRegs) : (State.setDec d s).enc = s.enc := rfl
@[simp] theorem State.setDec_nodeMem (d : DecRegs) : (State.setDec d s).nodeMem = s.nodeMem := rfl
@[simp] theorem State.setDec_codeMem (d : DecRegs) : (State.setDec d s).codeMem = s.codeMem := rfl
@[simp] theorem State.setDec_din (d : DecRegs) : (State.setDec d s).din = s.din := rfl
@[simp] theorem State.setDec_ein (d : DecRegs) : (State.setDec d s).ein = s.ein := rfl
@[simp] theorem State.setDec_events (d : DecRegs) : (State.setDec d s).events = s.events := rfl
@[simp] theorem State.setDec_bitsIn (d : DecRegs) : (State.setDec d s).bitsIn = s.bitsIn := rfl
@[simp] theorem State.setDec_decOut (d : DecRegs) : (State.setDec d s).decOut = s.decOut := rfl
@[simp] theorem State.setDec_symsIn (d : DecRegs) : (State.setDec d s).symsIn = s.symsIn := rfl
@[simp] theorem State.setDec_encOut (d : DecRegs) : (State.setDec d s).encOut = s.encOut := rfl
@[simp] theorem State.setDec_tick (d : DecRegs) : (State.setDec d s).tick = s.tick := rfl

@[simp] theorem State.setEnc_dec (e : EncRegs) : (State.setEnc e s).dec = s.dec := rfl
@[simp] theorem State.setEnc_enc (e : EncRegs) : (State.setEnc e s).enc = e := rfl
@[simp] theorem State.setEnc_nodeMem (e : EncRegs) : (State.setEnc e s).nodeMem = s.nodeMem := rfl
@[simp] theorem State.setEnc_codeMem (e : EncRegs) : (State.setEnc e s).codeMem = s.codeMem := rfl
@[simp] theorem State.setEnc_din (e : EncRegs) : (State.setEnc e s).din = s.din := rfl
@[simp] theorem State.setEnc_ein (e : EncRegs) : (State.setEnc e s).ein = s.ein := rfl
@[simp] theorem State.setEnc_events (e : EncRegs) : (State.setEnc e s).events = s.events := rfl
@[simp] theorem State.setEnc_bitsIn (e : EncRegs) : (State.setEnc e s).bitsIn = s.bitsIn := rfl
@[simp] theorem State.setEnc_decOut (e : EncRegs) : (State.setEnc e s).decOut = s.decOut := rfl
@[simp] theorem State.setEnc_symsIn (e : EncRegs) : (State.setEnc e s).symsIn = s.symsIn := rfl
@[simp] theorem State.setEnc_encOut (e : EncRegs) : (State.setEnc e s).encOut = s.encOut := rfl
@[simp] theorem State.setEnc_tick (e : EncRegs) : (State.setEnc e s).tick = s.tick := rfl

@[simp] theorem State.driveDec_dec (p : DecPins) : (State.driveDec p s).dec = s.dec := rfl
@[simp] theorem State.driveDec_enc (p : DecPins) : (State.driveDec p s).enc = s.enc := rfl
@[simp] theorem State.driveDec_nodeMem (p : DecPins) : (State.driveDec p s).nodeMem = s.nodeMem := rfl
@[simp] theorem State.driveDec_codeMem (p : DecPins) : (State.driveDec p s).codeMem = s.codeMem := rfl
@[simp] theorem State.driveDec_din (p : DecPins) : (State.driveDec p s).din = p := rfl
@[simp] theorem State.driveDec_ein (p : DecPins) : (State.driveDec p s).ein = s.ein := rfl
@[simp] theorem State.driveDec_events (p : DecPins) : (State.driveDec p s).events = s.events := rfl
@[simp] theorem State.driveDec_bitsIn (p : DecPins) : (State.driveDec p s).bitsIn = s.bitsIn := rfl
@[simp] theorem State.driveDec_decOut (p : DecPins) : (State.driveDec p s).decOut = s.decOut := rfl
@[simp] theorem State.driveDec_symsIn (p : DecPins) : (State.driveDec p s).symsIn = s.symsIn := rfl
@[simp] theorem State.driveDec_encOut (p : DecPins) : (State.driveDec p s).encOut = s.encOut := rfl
@[simp] theorem State.driveDec_tick (p : DecPins) : (State.driveDec p s).tick = s.tick := rfl

@[simp] theorem State.driveEnc_dec (p : EncPins) : (State.driveEnc p s).dec = s.dec := rfl
@[simp] theorem State.driveEnc_enc (p : EncPins) : (State.driveEnc p s).enc = s.enc := rfl
@[simp] theorem State.driveEnc_nodeMem (p : EncPins) : (State.driveEnc p s).nodeMem = s.nodeMem := rfl
@[simp] theorem State.driveEnc_codeMem (p : EncPins) : (State.driveEnc p s).codeMem = s.codeMem := rfl
@[simp] theorem State.driveEnc_din (p : EncPins) : (State.driveEnc p s).din = s.din := rfl
@[simp] theorem State.driveEnc_ein (p : EncPins) : (State.driveEnc p s).ein = p := rfl
@[simp] theorem State.driveEnc_events (p : EncPins) : (State.driveEnc p s).events = s.events := rfl
@[simp] theorem State.driveEnc_bitsIn (p : EncPins) : (State.driveEnc p s).bitsIn = s.bitsIn := rfl
@[simp] theorem State.driveEnc_decOut (p : EncPins) : (State.driveEnc p s).decOut = s.decOut := rfl
@[simp] theorem State.driveEnc_symsIn (p : EncPins) : (State.driveEnc p s).symsIn = s.symsIn := rfl
@[simp] theorem State.driveEnc_encOut (p : EncPins) : (State.driveEnc p s).encOut = s.encOut := rfl
@[simp] theorem State.driveEnc_tick (p : EncPins) : (State.driveEnc p s).tick = s.tick := rfl

@[simp] theorem State.takeBit_dec (b : Bool) : (State.takeBit b s).dec = s.dec := rfl
@[simp] theorem State.takeBit_enc (b : Bool) : (State.takeBit b s).enc = s.enc := rfl
@[simp] theorem State.takeBit_nodeMem (b : Bool) : (State.takeBit b s).nodeMem = s.nodeMem := rfl
@[simp] theorem State.takeBit_codeMem (b : Bool) : (State.takeBit b s).codeMem = s.codeMem := rfl
@[simp] theorem State.takeBit_din (b : Bool) : (State.takeBit b s).din = s.din := rfl
@[simp] theorem State.takeBit_ein (b : Bool) : (State.takeBit b s).ein = s.ein := rfl
@[simp] theorem State.takeBit_events (b : Bool) : (State.takeBit b s).events = s.events := rfl
@[simp] theorem State.takeBit_bitsIn (b : Bool) : (State.takeBit b s).bitsIn = s.bitsIn ++ [b] := rfl
@[simp] theorem State.takeBit_decOut (b : Bool) : (State.takeBit b s).decOut = s.decOut := rfl
@[simp] theorem State.takeBit_symsIn (b : Bool) : (State.takeBit b s).symsIn = s.symsIn := rfl
@[simp] theorem State.takeBit_encOut (b : Bool) : (State.takeBit b s).encOut = s.encOut := rfl
@[simp] theorem State.takeBit_tick (b : Bool) : (State.takeBit b s).tick = s.tick := rfl

@[simp] theorem State.putDecByte_dec (v : Byte) : (State.putDecByte v s).dec = s.dec := rfl
@[simp] theorem State.putDecByte_enc (v : Byte) : (State.putDecByte v s).enc = s.enc := rfl
@[simp] theorem State.putDecByte_nodeMem (v : Byte) : (State.putDecByte v s).nodeMem = s.nodeMem := rfl
@[simp] theorem State.putDecByte_codeMem (v : Byte) : (State.putDecByte v s).codeMem = s.codeMem := rfl
@[simp] theorem State.putDecByte_din (v : Byte) : (State.putDecByte v s).din = s.din := rfl
@[simp] theorem State.putDecByte_ein (v : Byte) : (State.putDecByte v s).ein = s.ein := rfl
@[simp] theorem State.putDecByte_events (v : Byte) : (State.putDecByte v s).events = s.events := rfl
@[simp] theorem State.putDecByte_bitsIn (v : Byte) : (State.putDecByte v s).bitsIn = s.bitsIn := rfl
@[simp] theorem State.putDecByte_decOut (v : Byte) : (State.putDecByte v s).decOut = s.decOut ++ [v] := rfl
@[simp] theorem State.putDecByte_symsIn (v : Byte) : (State.putDecByte v s).symsIn = s.symsIn := rfl
@[simp] theorem State.putDecByte_encOut (v : Byte) : (State.putDecByte v s).encOut = s.encOut := rfl
@[simp] theorem State.putDecByte_tick (v : Byte) : (State.putDecByte v s).tick = s.tick := rfl

@[simp] theorem State.takeSym_dec (v : Byte) : (State.takeSym v s).dec = s.dec := rfl
@[simp] theorem State.takeSym_enc (v : Byte) : (State.takeSym v s).enc = s.enc := rfl
@[simp] theorem State.takeSym_nodeMem (v : Byte) : (State.takeSym v s).nodeMem = s.nodeMem := rfl
@[simp] theorem State.takeSym_codeMem (v : Byte) : (State.takeSym v s).codeMem = s.codeMem := rfl
@[simp] theorem State.takeSym_din (v : Byte) : (State.takeSym v s).din = s.din := rfl
@[simp] theorem State.takeSym_ein (v : Byte) : (State.takeSym v s).ein = s.ein := rfl
@[simp] theorem State.takeSym_events (v : Byte) : (State.takeSym v s).events = s.events := rfl
@[simp] theorem State.takeSym_bitsIn (v : Byte) : (State.takeSym v s).bitsIn = s.bitsIn := rfl
@[simp] theorem State.takeSym_decOut (v : Byte) : (State.takeSym v s).decOut = s.decOut := rfl
@[simp] theorem State.takeSym_symsIn (v : Byte) : (State.takeSym v s).symsIn = s.symsIn ++ [v] := rfl
@[simp] theorem State.takeSym_encOut (v : Byte) : (State.takeSym v s).encOut = s.encOut := rfl
@[simp] theorem State.takeSym_tick (v : Byte) : (State.takeSym v s).tick = s.tick := rfl

@[simp] theorem State.putEncByte_dec (v : Byte) : (State.putEncByte v s).dec = s.dec := rfl
@[simp] theorem State.putEncByte_enc (v : Byte) : (State.putEncByte v s).enc = s.enc := rfl
@[simp] theorem State.putEncByte_nodeMem (v : Byte) : (State.putEncByte v s).nodeMem = s.nodeMem := rfl
@[simp] theorem State.putEncByte_codeMem (v : Byte) : (State.putEncByte v s).codeMem = s.codeMem := rfl
@[simp] theorem State.putEncByte_din (v : Byte) : (State.putEncByte v s).din = s.din := rfl
@[simp] theorem State.putEncByte_ein (v : Byte) : (State.putEncByte v s).ein = s.ein := rfl
@[simp] theorem State.putEncByte_events (v : Byte) : (State.putEncByte v s).events = s.events := rfl
@[simp] theorem State.putEncByte_bitsIn (v : Byte) : (State.putEncByte v s).bitsIn = s.bitsIn := rfl
@[simp] theorem State.putEncByte_decOut (v : Byte) : (State.putEncByte v s).decOut = s.decOut := rfl
@[simp] theorem State.putEncByte_symsIn (v : Byte) : (State.putEncByte v s).symsIn = s.symsIn := rfl
@[simp] theorem State.putEncByte_encOut (v : Byte) : (State.putEncByte v s).encOut = s.encOut ++ [v] := rfl
@[simp] theorem State.putEncByte_tick (v : Byte) : (State.putEncByte v s).tick = s.tick := rfl

@[simp] theorem State.setNode_dec (a : NodeAddr) (w : NodeWord) : (State.setNode a w s).dec = s.dec := rfl
@[simp] theorem State.setNode_enc (a : NodeAddr) (w : NodeWord) : (State.setNode a w s).enc = s.enc := rfl
@[simp] theorem State.setNode_nodeMem (a : NodeAddr) (w : NodeWord) : (State.setNode a w s).nodeMem = Memory.set s.nodeMem a.toNat w := rfl
@[simp] theorem State.setNode_codeMem (a : NodeAddr) (w : NodeWord) : (State.setNode a w s).codeMem = s.codeMem := rfl
@[simp] theorem State.setNode_din (a : NodeAddr) (w : NodeWord) : (State.setNode a w s).din = s.din := rfl
@[simp] theorem State.setNode_ein (a : NodeAddr) (w : NodeWord) : (State.setNode a w s).ein = s.ein := rfl
@[simp] theorem State.setNode_events (a : NodeAddr) (w : NodeWord) : (State.setNode a w s).events = s.events := rfl
@[simp] theorem State.setNode_bitsIn (a : NodeAddr) (w : NodeWord) : (State.setNode a w s).bitsIn = s.bitsIn := rfl
@[simp] theorem State.setNode_decOut (a : NodeAddr) (w : NodeWord) : (State.setNode a w s).decOut = s.decOut := rfl
@[simp] theorem State.setNode_symsIn (a : NodeAddr) (w : NodeWord) : (State.setNode a w s).symsIn = s.symsIn := rfl
@[simp] theorem State.setNode_encOut (a : NodeAddr) (w : NodeWord) : (State.setNode a w s).encOut = s.encOut := rfl
@[simp] theorem State.setNode_tick (a : NodeAddr) (w : NodeWord) : (State.setNode a w s).tick = s.tick := rfl

@[simp] theorem State.setCode_dec (i : Val) (e : Entry) : (State.setCode i e s).dec = s.dec := rfl
@[simp] theorem State.setCode_enc (i : Val) (e : Entry) : (State.setCode i e s).enc = s.enc := rfl
@[simp] theorem State.setCode_nodeMem (i : Val) (e : Entry) : (State.setCode i e s).nodeMem = s.nodeMem := rfl
@[simp] theorem State.setCode_codeMem (i : Val) (e : Entry) : (State.setCode i e s).codeMem = Memory.set s.codeMem i.toNat e := rfl
@[simp] theorem State.setCode_din (i : Val) (e : Entry) : (State.setCode i e s).din = s.din := rfl
@[simp] theorem State.setCode_ein (i : Val) (e : Entry) : (State.setCode i e s).ein = s.ein := rfl
@[simp] theorem State.setCode_events (i : Val) (e : Entry) : (State.setCode i e s).events = s.events := rfl
@[simp] theorem State.setCode_bitsIn (i : Val) (e : Entry) : (State.setCode i e s).bitsIn = s.bitsIn := rfl
@[simp] theorem State.setCode_decOut (i : Val) (e : Entry) : (State.setCode i e s).decOut = s.decOut := rfl
@[simp] theorem State.setCode_symsIn (i : Val) (e : Entry) : (State.setCode i e s).symsIn = s.symsIn := rfl
@[simp] theorem State.setCode_encOut (i : Val) (e : Entry) : (State.setCode i e s).encOut = s.encOut := rfl
@[simp] theorem State.setCode_tick (i : Val) (e : Entry) : (State.setCode i e s).tick = s.tick := rfl

@[simp] theorem State.before_dec (ev : Event) : (State.before ev s).dec = s.dec := rfl
@[simp] theorem State.before_enc (ev : Event) : (State.before ev s).enc = s.enc := rfl
@[simp] theorem State.before_nodeMem (ev : Event) : (State.before ev s).nodeMem = s.nodeMem := rfl
@[simp] theorem State.before_codeMem (ev : Event) : (State.before ev s).codeMem = s.codeMem := rfl
@[simp] theorem State.before_din (ev : Event) : (State.before ev s).din = s.din := rfl
@[simp] theorem State.before_ein (ev : Event) : (State.before ev s).ein = s.ein := rfl
@[simp] theorem State.before_events (ev : Event) : (State.before ev s).events = ev :: s.events := rfl
@[simp] theorem State.before_bitsIn (ev : Event) : (State.before ev s).bitsIn = s.bitsIn := rfl
@[simp] theorem State.before_decOut (ev : Event) : (State.before ev s).decOut = s.decOut := rfl
@[simp] theorem State.before_symsIn (ev : Event) : (State.before ev s).symsIn = s.symsIn := rfl
@[simp] theorem State.before_encOut (ev : Event) : (State.before ev s).encOut = s.encOut := rfl
@[simp] theorem State.before_tick (ev : Event) : (State.before ev s).tick = s.tick := rfl

@[simp] theorem State.advance_dec : s.advance.dec = s.dec := rfl
@[simp] theorem State.advance_enc : s.advance.enc = s.enc := rfl
@[simp] theorem State.advance_nodeMem : s.advance.nodeMem = s.nodeMem := rfl
@[simp] theorem State.advance_codeMem : s.advance.codeMem = s.codeMem := rfl
@[simp] theorem State.advance_din : s.advance.din = s.din := rfl
@[simp] theorem State.advance_ein : s.advance.ein = s.ein := rfl
@[simp] theorem State.advance_events : s.advance.events = s.events.tail := rfl
@[simp] theorem State.advance_bitsIn : s.advance.bitsIn = s.bitsIn := rfl
@[simp] theorem State.advance_decOut : s.advance.decOut = s.decOut := rfl
@[simp] theorem State.advance_symsIn : s.advance.symsIn = s.symsIn := rfl
@[simp] theorem State.advance_encOut : s.advance.encOut = s.encOut := rfl
@[simp] theorem State.advance_tick : s.advance.tick = s.tick + 1 := rfl

end Sys2Proof.Machine
end

