-- ==== Sys2Proof/Laws/Ops.lean ====
section
/-! SUPPORT. For each shared operation, once, everything it can do; and what one step of each block does. -/

namespace Sys2Proof.Machine

/-! ## Reads of the memories pass through every update of the rest of the state -/

section Reads

variable (s : State)

@[simp] theorem State.setDec_nodeAt (d : DecRegs) (x : NodeAddr) : (State.setDec d s).nodeAt x = s.nodeAt x := rfl
@[simp] theorem State.setDec_codeAt (d : DecRegs) (x : Val) : (State.setDec d s).codeAt x = s.codeAt x := rfl
@[simp] theorem State.setEnc_nodeAt (e : EncRegs) (x : NodeAddr) : (State.setEnc e s).nodeAt x = s.nodeAt x := rfl
@[simp] theorem State.setEnc_codeAt (e : EncRegs) (x : Val) : (State.setEnc e s).codeAt x = s.codeAt x := rfl
@[simp] theorem State.driveDec_nodeAt (p : DecPins) (x : NodeAddr) : (State.driveDec p s).nodeAt x = s.nodeAt x := rfl
@[simp] theorem State.driveDec_codeAt (p : DecPins) (x : Val) : (State.driveDec p s).codeAt x = s.codeAt x := rfl
@[simp] theorem State.driveEnc_nodeAt (p : EncPins) (x : NodeAddr) : (State.driveEnc p s).nodeAt x = s.nodeAt x := rfl
@[simp] theorem State.driveEnc_codeAt (p : EncPins) (x : Val) : (State.driveEnc p s).codeAt x = s.codeAt x := rfl
@[simp] theorem State.takeBit_nodeAt (b : Bool) (x : NodeAddr) : (State.takeBit b s).nodeAt x = s.nodeAt x := rfl
@[simp] theorem State.takeBit_codeAt (b : Bool) (x : Val) : (State.takeBit b s).codeAt x = s.codeAt x := rfl
@[simp] theorem State.putDecByte_nodeAt (v : Byte) (x : NodeAddr) : (State.putDecByte v s).nodeAt x = s.nodeAt x := rfl
@[simp] theorem State.putDecByte_codeAt (v : Byte) (x : Val) : (State.putDecByte v s).codeAt x = s.codeAt x := rfl
@[simp] theorem State.takeSym_nodeAt (v : Byte) (x : NodeAddr) : (State.takeSym v s).nodeAt x = s.nodeAt x := rfl
@[simp] theorem State.takeSym_codeAt (v : Byte) (x : Val) : (State.takeSym v s).codeAt x = s.codeAt x := rfl
@[simp] theorem State.putEncByte_nodeAt (v : Byte) (x : NodeAddr) : (State.putEncByte v s).nodeAt x = s.nodeAt x := rfl
@[simp] theorem State.putEncByte_codeAt (v : Byte) (x : Val) : (State.putEncByte v s).codeAt x = s.codeAt x := rfl
@[simp] theorem State.before_nodeAt (ev : Event) (x : NodeAddr) : (State.before ev s).nodeAt x = s.nodeAt x := rfl
@[simp] theorem State.before_codeAt (ev : Event) (x : Val) : (State.before ev s).codeAt x = s.codeAt x := rfl
@[simp] theorem State.advance_nodeAt (x : NodeAddr) : (State.advance s).nodeAt x = s.nodeAt x := rfl
@[simp] theorem State.advance_codeAt (x : Val) : (State.advance s).codeAt x = s.codeAt x := rfl
@[simp] theorem State.endDec_nodeAt (c : StatusCode) (x : NodeAddr) : (State.endDec c s).nodeAt x = s.nodeAt x := rfl
@[simp] theorem State.endDec_codeAt (c : StatusCode) (x : Val) : (State.endDec c s).codeAt x = s.codeAt x := rfl
@[simp] theorem State.raiseEnc_nodeAt (c : StatusCode) (v : Val) (x : NodeAddr) : (State.raiseEnc c v s).nodeAt x = s.nodeAt x := rfl
@[simp] theorem State.raiseEnc_codeAt (c : StatusCode) (v : Val) (x : Val) : (State.raiseEnc c v s).codeAt x = s.codeAt x := rfl
@[simp] theorem State.endEnc_nodeAt (c : StatusCode) (x : NodeAddr) : (State.endEnc c s).nodeAt x = s.nodeAt x := rfl
@[simp] theorem State.endEnc_codeAt (c : StatusCode) (x : Val) : (State.endEnc c s).codeAt x = s.codeAt x := rfl
@[simp] theorem State.startDec_nodeAt (x : NodeAddr) : (State.startDec s).nodeAt x = s.nodeAt x := rfl
@[simp] theorem State.startDec_codeAt (x : Val) : (State.startDec s).codeAt x = s.codeAt x := rfl
@[simp] theorem State.startEnc_nodeAt (x : NodeAddr) : (State.startEnc s).nodeAt x = s.nodeAt x := rfl
@[simp] theorem State.startEnc_codeAt (x : Val) : (State.startEnc s).codeAt x = s.codeAt x := rfl
@[simp] theorem State.goChild_nodeAt (a : NodeAddr) (x : NodeAddr) : (State.goChild a s).nodeAt x = s.nodeAt x := rfl
@[simp] theorem State.goChild_codeAt (a : NodeAddr) (x : Val) : (State.goChild a s).codeAt x = s.codeAt x := rfl
@[simp] theorem State.goRoot_nodeAt (x : NodeAddr) : (State.goRoot s).nodeAt x = s.nodeAt x := rfl
@[simp] theorem State.goRoot_codeAt (x : Val) : (State.goRoot s).codeAt x = s.codeAt x := rfl
@[simp] theorem State.loadCode_nodeAt (v : Val) (n : Len) (x : NodeAddr) : (State.loadCode v n s).nodeAt x = s.nodeAt x := rfl
@[simp] theorem State.loadCode_codeAt (v : Val) (n : Len) (x : Val) : (State.loadCode v n s).codeAt x = s.codeAt x := rfl
@[simp] theorem State.goEnc_nodeAt (st : EState) (x : NodeAddr) : (State.goEnc st s).nodeAt x = s.nodeAt x := rfl
@[simp] theorem State.goEnc_codeAt (st : EState) (x : Val) : (State.goEnc st s).codeAt x = s.codeAt x := rfl
@[simp] theorem State.pushBit_nodeAt (b : Bool) (x : NodeAddr) : (State.pushBit b s).nodeAt x = s.nodeAt x := rfl
@[simp] theorem State.pushBit_codeAt (b : Bool) (x : Val) : (State.pushBit b s).codeAt x = s.codeAt x := rfl
@[simp] theorem State.byteDone_nodeAt (x : NodeAddr) : (State.byteDone s).nodeAt x = s.nodeAt x := rfl
@[simp] theorem State.byteDone_codeAt (x : Val) : (State.byteDone s).codeAt x = s.codeAt x := rfl
@[simp] theorem State.clearWriter_nodeAt (x : NodeAddr) : (State.clearWriter s).nodeAt x = s.nodeAt x := rfl
@[simp] theorem State.clearWriter_codeAt (x : Val) : (State.clearWriter s).codeAt x = s.codeAt x := rfl

@[simp] theorem State.setNode_codeAt (a : NodeAddr) (w : NodeWord) (x : Val) : (State.setNode a w s).codeAt x = s.codeAt x := rfl
@[simp] theorem State.setCode_nodeAt (i : Val) (e : Entry) (x : NodeAddr) : (State.setCode i e s).nodeAt x = s.nodeAt x := rfl

end Reads

/-! ## The guards -/

/-- A decoder step answers a next state exactly where R87 selects it and its effect does. -/
theorem onDecLine_next {i : Instr} {s t : State} {o : Host.Outcome State Fault Refusal} :
    onDecLine i s o = .next t ↔ selectDec s.decView = i ∧ o = .next t := by
  unfold onDecLine
  split <;> simp_all

/-- An encoder step answers a next state exactly where R88 selects it and its effect does. -/
theorem onEncLine_next {i : Instr} {s t : State} {o : Host.Outcome State Fault Refusal} :
    onEncLine i s o = .next t ↔ selectEnc s.encView = i ∧ o = .next t := by
  unfold onEncLine
  split <;> simp_all

/-- A selected decoder step has its effect. -/
theorem onDecLine_selected {i : Instr} {s : State} {o : Host.Outcome State Fault Refusal} (h : selectDec s.decView = i) :
    onDecLine i s o = o := if_pos h

/-- A selected encoder step has its effect. -/
theorem onEncLine_selected {i : Instr} {s : State} {o : Host.Outcome State Fault Refusal} (h : selectEnc s.encView = i) :
    onEncLine i s o = o := if_pos h

/-- A decoder step that is not selected has no meaning. -/
theorem onDecLine_unselected {i : Instr} {s : State} {o : Host.Outcome State Fault Refusal} (h : selectDec s.decView ≠ i) :
    onDecLine i s o = .refused .stepNotSelected := if_neg h

/-- An encoder step that is not selected has no meaning. -/
theorem onEncLine_unselected {i : Instr} {s : State} {o : Host.Outcome State Fault Refusal} (h : selectEnc s.encView ≠ i) :
    onEncLine i s o = .refused .stepNotSelected := if_neg h

/-- A node word is executed in RUN without reset. -/
theorem inRun_run {s : State} {o : Host.Outcome State Fault Refusal} (h : s.dec.dstate = .run) (hr : s.din.rst = false) :
    inRun s o = o := if_pos ⟨h, hr⟩

/-- A code entry is looked up in FETCH without reset. -/
theorem inFetch_fetch {s : State} {o : Host.Outcome State Fault Refusal} (h : s.enc.estate = .fetch)
    (hr : s.ein.rst = false) : inFetch s o = o := if_pos ⟨h, hr⟩

/-- The code bit exists where `cur` and `rem` are in range. -/
theorem State.fetchBit_ok {s : State} (hc : s.enc.cur.toNat ≤ 256) (hr : s.enc.rem.toNat ≤ 256) :
    s.fetchBit = .ok s.nextBit := by
  unfold State.fetchBit
  rw [if_neg (by omega), if_neg (by omega)]

/-- A step that writes a code bit writes it where `cur` and `rem` are in range. -/
theorem withBit_ok {s : State} {k : Bool → State} (hc : s.enc.cur.toNat ≤ 256) (hr : s.enc.rem.toNat ≤ 256) :
    withBit s k = .next (k s.nextBit) := by
  unfold withBit
  rw [State.fetchBit_ok hc hr]

/-! ## What one step of the decoder does -/

/-- The moves of the decoder, each under the line of R87 that selects it. -/
inductive DecMove (s : State) : Instr → State → Prop where
  | reset : s.din.rst = true → DecMove s .decReset (s.setDec DecRegs.reset)
  | start : s.din.rst = false → (s.dec.dstate = .idle ∨ s.dec.dstate = .done) → s.din.start = true → DecMove s .decStart s.startDec
  | hold : s.din.rst = false → (s.dec.dstate = .idle ∨ s.dec.dstate = .done) → s.din.start = false → DecMove s .decHold s
  | bit0 : s.din.rst = false → s.dec.dstate = .run → classify s.nodeWord = .int → s.din.bitValid = true →
      s.din.bitData = false → DecMove s .intB0 ((s.takeBit false).goChild (leftOf s.nodeWord))
  | bit1 : s.din.rst = false → s.dec.dstate = .run → classify s.nodeWord = .int → s.din.bitValid = true →
      s.din.bitData = true → DecMove s .intB1 ((s.takeBit true).goChild (rightOf s.nodeWord))
  | end0 : s.din.rst = false → s.dec.dstate = .run → classify s.nodeWord = .int → s.din.bitValid = false →
      s.din.bitEof = true → s.dec.mid = false → DecMove s .intEnd0 (s.endDec stEndNoEos)
  | end1 : s.din.rst = false → s.dec.dstate = .run → classify s.nodeWord = .int → s.din.bitValid = false →
      s.din.bitEof = true → s.dec.mid = true → DecMove s .intEnd1 (s.endDec stTruncated)
  | intWait : s.din.rst = false → s.dec.dstate = .run → classify s.nodeWord = .int → s.din.bitValid = false →
      s.din.bitEof = false → DecMove s .intWait s
  | symOut : s.din.rst = false → s.dec.dstate = .run → classify s.nodeWord = .sym → s.din.outReady = true →
      DecMove s .symOut ((s.putDecByte (byteOf s.nodeWord)).goRoot)
  | symWait : s.din.rst = false → s.dec.dstate = .run → classify s.nodeWord = .sym → s.din.outReady = false →
      DecMove s .symWait s
  | eos : s.din.rst = false → s.dec.dstate = .run → classify s.nodeWord = .eos → DecMove s .eos (s.endDec stOk)
  | bad : s.din.rst = false → s.dec.dstate = .run → classify s.nodeWord = .bad → DecMove s .bad (s.endDec stBadNode)

/-- The step R87 selects answers a next state, and the move is one of the twelve. -/
theorem exec_selectDec (s : State) :
    ∃ t, exec (selectDec s.decView) s = .next t ∧ DecMove s (selectDec s.decView) t := by
  have key : ∀ i, selectDec s.decView = i → (∃ t, exec i s = .next t ∧ DecMove s i t) →
      ∃ t, exec (selectDec s.decView) s = .next t ∧ DecMove s (selectDec s.decView) t := by
    intro i hi h
    rw [hi]
    exact h
  cases hr : s.din.rst with
  | true =>
    have hsel : selectDec s.decView = .decReset := by simp [selectDec, State.decView, hr]
    exact key _ hsel ⟨_, onDecLine_selected hsel, .reset hr⟩
  | false =>
    cases hd : s.dec.dstate with
    | idle =>
      cases hst : s.din.start with
      | true =>
        have hsel : selectDec s.decView = .decStart := by simp [selectDec, State.decView, hr, hd, hst]
        exact key _ hsel ⟨_, onDecLine_selected hsel, .start hr (.inl hd) hst⟩
      | false =>
        have hsel : selectDec s.decView = .decHold := by simp [selectDec, State.decView, hr, hd, hst]
        exact key _ hsel ⟨_, onDecLine_selected hsel, .hold hr (.inl hd) hst⟩
    | done =>
      cases hst : s.din.start with
      | true =>
        have hsel : selectDec s.decView = .decStart := by simp [selectDec, State.decView, hr, hd, hst]
        exact key _ hsel ⟨_, onDecLine_selected hsel, .start hr (.inr hd) hst⟩
      | false =>
        have hsel : selectDec s.decView = .decHold := by simp [selectDec, State.decView, hr, hd, hst]
        exact key _ hsel ⟨_, onDecLine_selected hsel, .hold hr (.inr hd) hst⟩
    | run =>
      cases hk : classify s.nodeWord with
      | int =>
        cases hv : s.din.bitValid with
        | true =>
          cases hb : s.din.bitData with
          | true =>
            have hsel : selectDec s.decView = .intB1 := by simp [selectDec, State.decView, hr, hd, hk, hv, hb]
            exact key _ hsel ⟨_, onDecLine_selected hsel, .bit1 hr hd hk hv hb⟩
          | false =>
            have hsel : selectDec s.decView = .intB0 := by simp [selectDec, State.decView, hr, hd, hk, hv, hb]
            exact key _ hsel ⟨_, onDecLine_selected hsel, .bit0 hr hd hk hv hb⟩
        | false =>
          cases he : s.din.bitEof with
          | true =>
            cases hm : s.dec.mid with
            | true =>
              have hsel : selectDec s.decView = .intEnd1 := by simp [selectDec, State.decView, hr, hd, hk, hv, he, hm]
              exact key _ hsel ⟨_, onDecLine_selected hsel, .end1 hr hd hk hv he hm⟩
            | false =>
              have hsel : selectDec s.decView = .intEnd0 := by simp [selectDec, State.decView, hr, hd, hk, hv, he, hm]
              exact key _ hsel ⟨_, onDecLine_selected hsel, .end0 hr hd hk hv he hm⟩
          | false =>
            have hsel : selectDec s.decView = .intWait := by simp [selectDec, State.decView, hr, hd, hk, hv, he]
            exact key _ hsel ⟨_, onDecLine_selected hsel, .intWait hr hd hk hv he⟩
      | sym =>
        cases ho : s.din.outReady with
        | true =>
          have hsel : selectDec s.decView = .symOut := by simp [selectDec, State.decView, hr, hd, hk, ho]
          exact key _ hsel ⟨_, onDecLine_selected hsel, .symOut hr hd hk ho⟩
        | false =>
          have hsel : selectDec s.decView = .symWait := by simp [selectDec, State.decView, hr, hd, hk, ho]
          exact key _ hsel ⟨_, onDecLine_selected hsel, .symWait hr hd hk ho⟩
      | eos =>
        have hsel : selectDec s.decView = .eos := by simp [selectDec, State.decView, hr, hd, hk]
        exact key _ hsel ⟨_, onDecLine_selected hsel, .eos hr hd hk⟩
      | bad =>
        have hsel : selectDec s.decView = .bad := by simp [selectDec, State.decView, hr, hd, hk]
        exact key _ hsel ⟨_, onDecLine_selected hsel, .bad hr hd hk⟩

/-! ## What one step of the encoder does -/

/-- The moves of the encoder, each under the line of R88 that selects it; `o` is what exec answers. -/
inductive EncMove (s : State) : Instr → Host.Outcome State Fault Refusal → Prop where
  | reset : s.ein.rst = true → EncMove s .encReset (.next (s.setEnc EncRegs.reset))
  | start : s.ein.rst = false → (s.enc.estate = .idle ∨ s.enc.estate = .done) → s.ein.start = true → EncMove s .encStart (.next s.startEnc)
  | hold : s.ein.rst = false → (s.enc.estate = .idle ∨ s.enc.estate = .done) → s.ein.start = false → EncMove s .encHold (.next s)
  | symOk : s.ein.rst = false → s.enc.estate = .fetch → s.ein.inValid = true →
      classifyEntry (s.codeAt (symIndex s.ein.inData)) = .code →
      EncMove s .symOk
        (.next ((s.takeSym s.ein.inData).loadCode (symIndex s.ein.inData) (entryLen (s.codeAt (symIndex s.ein.inData)))))
  | symMissing : s.ein.rst = false → s.enc.estate = .fetch → s.ein.inValid = true →
      classifyEntry (s.codeAt (symIndex s.ein.inData)) = .none →
      EncMove s .symMissing (.next ((s.takeSym s.ein.inData).raiseEnc stUnencodable (symIndex s.ein.inData)))
  | symBadlen : s.ein.rst = false → s.enc.estate = .fetch → s.ein.inValid = true →
      classifyEntry (s.codeAt (symIndex s.ein.inData)) = .bad →
      EncMove s .symBadlen (.next ((s.takeSym s.ein.inData).raiseEnc stBadEntry (symIndex s.ein.inData)))
  | endOk : s.ein.rst = false → s.enc.estate = .fetch → s.ein.inValid = false → s.ein.inEof = true →
      classifyEntry (s.codeAt Config.eosVal) = .code →
      EncMove s .endOk (.next (s.loadCode Config.eosVal (entryLen (s.codeAt Config.eosVal))))
  | endMissing : s.ein.rst = false → s.enc.estate = .fetch → s.ein.inValid = false → s.ein.inEof = true →
      classifyEntry (s.codeAt Config.eosVal) = .none →
      EncMove s .endMissing (.next (s.raiseEnc stUnencodable Config.eosVal))
  | endBadlen : s.ein.rst = false → s.enc.estate = .fetch → s.ein.inValid = false → s.ein.inEof = true →
      classifyEntry (s.codeAt Config.eosVal) = .bad →
      EncMove s .endBadlen (.next (s.raiseEnc stBadEntry Config.eosVal))
  | fetchWait : s.ein.rst = false → s.enc.estate = .fetch → s.ein.inValid = false → s.ein.inEof = false →
      EncMove s .fetchWait (.next s)
  | shiftBit : s.ein.rst = false → s.enc.estate = .shift → s.enc.rem ≠ 0 → s.enc.cnt ≠ 7 →
      EncMove s .shiftBit (withBit s (fun b => s.pushBit b))
  | shiftByte : s.ein.rst = false → s.enc.estate = .shift → s.enc.rem ≠ 0 → s.enc.cnt = 7 → s.ein.outReady = true →
      EncMove s .shiftByte (withBit s (fun b => (s.putEncByte (accByte s.enc.acc b)).byteDone))
  | shiftWait : s.ein.rst = false → s.enc.estate = .shift → s.enc.rem ≠ 0 → s.enc.cnt = 7 → s.ein.outReady = false →
      EncMove s .shiftWait (.next s)
  | shiftNext : s.ein.rst = false → s.enc.estate = .shift → s.enc.rem = 0 → s.enc.cur ≠ Config.eosVal →
      EncMove s .shiftNext (.next (s.goEnc .fetch))
  | shiftLast : s.ein.rst = false → s.enc.estate = .shift → s.enc.rem = 0 → s.enc.cur = Config.eosVal →
      EncMove s .shiftLast (.next (s.goEnc .flush))
  | flushByte : s.ein.rst = false → s.enc.estate = .flush → s.enc.cnt ≠ 0 → s.ein.outReady = true →
      EncMove s .flushByte (.next (((s.putEncByte s.enc.acc).clearWriter).endEnc stOk))
  | flushNone : s.ein.rst = false → s.enc.estate = .flush → s.enc.cnt = 0 → EncMove s .flushNone (.next (s.endEnc stOk))
  | flushWait : s.ein.rst = false → s.enc.estate = .flush → s.enc.cnt ≠ 0 → s.ein.outReady = false →
      EncMove s .flushWait (.next s)

/-- The step R88 selects is one of the eighteen moves. -/
theorem exec_selectEnc (s : State) : EncMove s (selectEnc s.encView) (exec (selectEnc s.encView) s) := by
  have key : ∀ i, selectEnc s.encView = i → EncMove s i (exec i s) →
      EncMove s (selectEnc s.encView) (exec (selectEnc s.encView) s) := by
    intro i hi h
    rw [hi]
    exact h
  have sel : ∀ {i o}, selectEnc s.encView = i → EncMove s i o → exec i s = onEncLine i s o → EncMove s i (exec i s) := by
    intro i o hi hm he
    rw [he, onEncLine_selected hi]
    exact hm
  cases hr : s.ein.rst with
  | true =>
    have hsel : selectEnc s.encView = .encReset := by simp [selectEnc, State.encView, hr]
    exact key _ hsel (sel hsel (.reset hr) rfl)
  | false =>
    cases he : s.enc.estate with
    | idle =>
      cases hst : s.ein.start with
      | true =>
        have hsel : selectEnc s.encView = .encStart := by simp [selectEnc, State.encView, hr, he, hst]
        exact key _ hsel (sel hsel (.start hr (.inl he) hst) rfl)
      | false =>
        have hsel : selectEnc s.encView = .encHold := by simp [selectEnc, State.encView, hr, he, hst]
        exact key _ hsel (sel hsel (.hold hr (.inl he) hst) rfl)
    | done =>
      cases hst : s.ein.start with
      | true =>
        have hsel : selectEnc s.encView = .encStart := by simp [selectEnc, State.encView, hr, he, hst]
        exact key _ hsel (sel hsel (.start hr (.inr he) hst) rfl)
      | false =>
        have hsel : selectEnc s.encView = .encHold := by simp [selectEnc, State.encView, hr, he, hst]
        exact key _ hsel (sel hsel (.hold hr (.inr he) hst) rfl)
    | fetch =>
      cases hv : s.ein.inValid with
      | true =>
        have hview : s.encView.symEntry = s.codeAt (symIndex s.ein.inData) := rfl
        cases hk : classifyEntry (s.codeAt (symIndex s.ein.inData)) with
        | none =>
          have hsel : selectEnc s.encView = .symMissing := by
            simp [selectEnc, hview, hk]
            simp [State.encView, hr, he, hv]
          exact key _ hsel (sel hsel (.symMissing hr he hv hk) rfl)
        | code =>
          have hsel : selectEnc s.encView = .symOk := by
            simp [selectEnc, hview, hk]
            simp [State.encView, hr, he, hv]
          exact key _ hsel (sel hsel (.symOk hr he hv hk) rfl)
        | bad =>
          have hsel : selectEnc s.encView = .symBadlen := by
            simp [selectEnc, hview, hk]
            simp [State.encView, hr, he, hv]
          exact key _ hsel (sel hsel (.symBadlen hr he hv hk) rfl)
      | false =>
        cases hf : s.ein.inEof with
        | true =>
          cases hk : classifyEntry (s.codeAt Config.eosVal) with
          | none =>
            have hsel : selectEnc s.encView = .endMissing := by simp [selectEnc, State.encView, hr, he, hv, hf, hk]
            exact key _ hsel (sel hsel (.endMissing hr he hv hf hk) rfl)
          | code =>
            have hsel : selectEnc s.encView = .endOk := by simp [selectEnc, State.encView, hr, he, hv, hf, hk]
            exact key _ hsel (sel hsel (.endOk hr he hv hf hk) rfl)
          | bad =>
            have hsel : selectEnc s.encView = .endBadlen := by simp [selectEnc, State.encView, hr, he, hv, hf, hk]
            exact key _ hsel (sel hsel (.endBadlen hr he hv hf hk) rfl)
        | false =>
          have hsel : selectEnc s.encView = .fetchWait := by simp [selectEnc, State.encView, hr, he, hv, hf]
          exact key _ hsel (sel hsel (.fetchWait hr he hv hf) rfl)
    | shift =>
      by_cases hrem : s.enc.rem = 0#9
      · by_cases hc : s.enc.cur = Config.eosVal
        · have hsel : selectEnc s.encView = .shiftLast := by simp [selectEnc, State.encView, hr, he, hrem, hc]
          exact key _ hsel (sel hsel (.shiftLast hr he hrem hc) rfl)
        · have hsel : selectEnc s.encView = .shiftNext := by simp [selectEnc, State.encView, hr, he, hrem, hc]
          exact key _ hsel (sel hsel (.shiftNext hr he hrem hc) rfl)
      · by_cases hc : s.enc.cnt = 7#3
        · cases ho : s.ein.outReady with
          | true =>
            have hsel : selectEnc s.encView = .shiftByte := by simp [selectEnc, State.encView, hr, he, hrem, hc, ho]
            exact key _ hsel (sel hsel (.shiftByte hr he hrem hc ho) rfl)
          | false =>
            have hsel : selectEnc s.encView = .shiftWait := by simp [selectEnc, State.encView, hr, he, hrem, hc, ho]
            exact key _ hsel (sel hsel (.shiftWait hr he hrem hc ho) rfl)
        · have hsel : selectEnc s.encView = .shiftBit := by simp [selectEnc, State.encView, hr, he, hrem, hc]
          exact key _ hsel (sel hsel (.shiftBit hr he hrem hc) rfl)
    | flush =>
      by_cases hc : s.enc.cnt = 0#3
      · have hsel : selectEnc s.encView = .flushNone := by simp [selectEnc, State.encView, hr, he, hc]
        exact key _ hsel (sel hsel (.flushNone hr he hc) rfl)
      · cases ho : s.ein.outReady with
        | true =>
          have hsel : selectEnc s.encView = .flushByte := by simp [selectEnc, State.encView, hr, he, hc, ho]
          exact key _ hsel (sel hsel (.flushByte hr he hc ho) rfl)
        | false =>
          have hsel : selectEnc s.encView = .flushWait := by simp [selectEnc, State.encView, hr, he, hc, ho]
          exact key _ hsel (sel hsel (.flushWait hr he hc ho) rfl)

/-! ## What one step of the machine does -/

/-- An event put before the others is the next one. -/
@[simp] theorem State.nextEvent_before (ev : Event) (s : State) : (State.before ev s).nextEvent = ev := rfl

/-- A step on a decoder edge is the selected decoder step on the pins of the edge. -/
theorem step_decClock {s : State} {p : DecPins} (h : s.nextEvent = .decClock p) :
    step s = exec (selectDec (s.advance.driveDec p).decView) (s.advance.driveDec p) := by
  simp [step, fetchTurn, turn, h]

/-- A step on an encoder edge is the selected encoder step on the pins of the edge. -/
theorem step_encClock {s : State} {p : EncPins} (h : s.nextEvent = .encClock p) :
    step s = exec (selectEnc (s.advance.driveEnc p).encView) (s.advance.driveEnc p) := by
  simp [step, fetchTurn, turn, h]

/-- A step on a host write of a node word: done while the decoder is at rest, else no meaning. -/
theorem step_writeNode {s : State} {a : NodeAddr} {w : NodeWord} (h : s.nextEvent = .writeNode a w) :
    step s = if s.decBusy then .refused .memoryChangedInRun else .next (s.advance.setNode a w) := by
  have hb : s.advance.decBusy = s.decBusy := rfl
  simp only [step, fetchTurn, turn, h, hostWriteNode, hb]
  cases s.decBusy <;> rfl

/-- A step on a host write of a code entry: done at an index that exists while the encoder is at rest. -/
theorem step_writeCode {s : State} {i : Val} {e : Entry} (h : s.nextEvent = .writeCode i e) :
    step s = if 256 < i.toNat then .fault (.codeIndexAbsent i)
      else if s.encBusy then .refused .memoryChangedInRun else .next (s.advance.setCode i e) := by
  have hb : s.advance.encBusy = s.encBusy := rfl
  simp only [step, fetchTurn, turn, h, hostWriteCode, hb]
  by_cases hi : 256 < i.toNat
  · simp [hi]
  · simp only [hi, if_false]
    cases s.encBusy <;> rfl

/-- What a step that answers has done: a decoder move, an encoder move, or a host write. -/
theorem step_next_cases {s t : State} (h : step s = .next t) :
    (∃ p i, s.nextEvent = .decClock p ∧ selectDec (s.advance.driveDec p).decView = i ∧ DecMove (s.advance.driveDec p) i t) ∨
    (∃ p i o, s.nextEvent = .encClock p ∧ selectEnc (s.advance.driveEnc p).encView = i ∧
      EncMove (s.advance.driveEnc p) i o ∧ o = .next t) ∨
    (∃ a w, s.nextEvent = .writeNode a w ∧ s.decBusy = false ∧ t = s.advance.setNode a w) ∨
    (∃ i e, s.nextEvent = .writeCode i e ∧ i.toNat ≤ 256 ∧ s.encBusy = false ∧ t = s.advance.setCode i e) := by
  cases hev : s.nextEvent with
  | decClock p =>
    rw [step_decClock hev] at h
    obtain ⟨t', ht', hm⟩ := exec_selectDec (s.advance.driveDec p)
    rw [ht'] at h
    cases h
    exact .inl ⟨p, _, rfl, rfl, hm⟩
  | encClock p =>
    rw [step_encClock hev] at h
    exact .inr (.inl ⟨p, _, _, rfl, rfl, exec_selectEnc (s.advance.driveEnc p), h⟩)
  | writeNode a w =>
    rw [step_writeNode hev] at h
    cases hb : s.decBusy with
    | true => simp [hb] at h
    | false =>
      simp only [hb, Bool.false_eq_true, if_false] at h
      cases h
      exact .inr (.inr (.inl ⟨a, w, rfl, rfl, rfl⟩))
  | writeCode i e =>
    rw [step_writeCode hev] at h
    by_cases hi : 256 < i.toNat
    · simp [hi] at h
    · simp only [hi, if_false] at h
      cases hb : s.encBusy with
      | true => simp [hb] at h
      | false =>
        simp only [hb, Bool.false_eq_true, if_false] at h
        cases h
        exact .inr (.inr (.inr ⟨i, e, rfl, by omega, rfl, rfl⟩))

/-- A code bit written, in a step that answers, is the bit on the wires, with `cur` and `rem` in range. -/
theorem withBit_next {s t : State} {k : Bool → State} (h : withBit s k = .next t) :
    s.enc.cur.toNat ≤ 256 ∧ s.enc.rem.toNat ≤ 256 ∧ t = k s.nextBit := by
  unfold withBit State.fetchBit at h
  by_cases h1 : 256 < s.enc.cur.toNat
  · simp [h1] at h
  · by_cases h2 : 256 < s.enc.rem.toNat
    · simp [h1, h2] at h
    · simp only [h1, h2, if_false] at h
      cases h
      exact ⟨by omega, by omega, rfl⟩

/-- A decoder move leaves the encoder, the memories and the environment alone. -/
theorem DecMove.frame {s t : State} {i : Instr} (h : DecMove s i t) :
    t.enc = s.enc ∧ t.nodeMem = s.nodeMem ∧ t.codeMem = s.codeMem ∧ t.din = s.din ∧ t.ein = s.ein ∧ t.symsIn = s.symsIn ∧
      t.encOut = s.encOut ∧ t.events = s.events ∧ t.tick = s.tick := by
  cases h <;> exact ⟨rfl, rfl, rfl, rfl, rfl, rfl, rfl, rfl, rfl⟩

/-- An encoder move leaves the decoder, the memories and the environment alone. -/
theorem EncMove.frame {s t : State} {i : Instr} {o : Host.Outcome State Fault Refusal} (h : EncMove s i o) (ho : o = .next t) :
    t.dec = s.dec ∧ t.nodeMem = s.nodeMem ∧ t.codeMem = s.codeMem ∧ t.din = s.din ∧ t.ein = s.ein ∧ t.bitsIn = s.bitsIn ∧
      t.decOut = s.decOut ∧ t.events = s.events ∧ t.tick = s.tick := by
  cases h
  case shiftBit => obtain ⟨_, _, rfl⟩ := withBit_next ho; exact ⟨rfl, rfl, rfl, rfl, rfl, rfl, rfl, rfl, rfl⟩
  case shiftByte => obtain ⟨_, _, rfl⟩ := withBit_next ho; exact ⟨rfl, rfl, rfl, rfl, rfl, rfl, rfl, rfl, rfl⟩
  all_goals
    cases ho
    exact ⟨rfl, rfl, rfl, rfl, rfl, rfl, rfl, rfl, rfl⟩

end Sys2Proof.Machine
end

