-- ==== Sys2Proof/Laws/PerInstr.lean ====
section
/-! SUPPORT. A property of every instruction as syntax: what it encodes to fits the mask and the match of its row of
spec/opcode_table.json (the memory word) and of its line of R87 or R88 (the input vector). -/

namespace Sys2Proof.Laws.EncodingMatchesRow

-- One theorem after another: many at once each hold a thread of their own.
set_option Elab.async false

/-- The bits of a row: mask and match on the memory word and, for a step, on the input vector. -/
inductive RowBits where
  | node (mask pattern : NodeWord)
  | entry (mask pattern : BitVec 10)
  | dec (mask pattern : NodeWord) (vmask vpattern : BitVec 6)
  | enc (vmask vpattern : BitVec 13)
  | encSym (mask pattern : BitVec 10) (vmask vpattern : BitVec 13)
  | encEos (mask pattern : BitVec 10) (vmask vpattern : BitVec 13)

/-- The row of an instruction (R82, R85, R87, R88). -/
def rowBits : Instr → RowBits
  | .wordInt _ _ => .node 0x100000 0x000000
  | .wordSym _ => .node 0x1FFF00 0x100000
  | .wordEos => .node 0x1FFFFF 0x100100
  | .wordBad _ _ => .node 0x100000 0x100000
  | .cNone _ _ => .entry 0x200 0x000
  | .cCode _ _ => .entry 0x300 0x200
  | .cCode256 _ => .entry 0x3FF 0x300
  | .cBad _ _ => .entry 0x300 0x300
  | .decReset => .dec 0x000000 0x000000 0x20 0x20
  | .decStart => .dec 0x000000 0x000000 0x30 0x10
  | .decHold => .dec 0x000000 0x000000 0x30 0x00
  | .intB0 => .dec 0x100000 0x000000 0x2A 0x08
  | .intB1 => .dec 0x100000 0x000000 0x2A 0x0A
  | .intEnd0 => .dec 0x100000 0x000000 0x2C 0x04
  | .intEnd1 => .dec 0x100000 0x000000 0x2C 0x04
  | .intWait => .dec 0x100000 0x000000 0x2C 0x00
  | .symOut => .dec 0x1FFF00 0x100000 0x21 0x01
  | .symWait => .dec 0x1FFF00 0x100000 0x21 0x00
  | .eos => .dec 0x1FFFFF 0x100100 0x20 0x00
  | .bad => .dec 0x100000 0x100000 0x20 0x00
  | .encReset => .enc 0x1000 0x1000
  | .encStart => .enc 0x1800 0x0800
  | .encHold => .enc 0x1800 0x0000
  | .symOk => .encSym 0x300 0x200 0x1400 0x0400
  | .symMissing => .encSym 0x200 0x000 0x1400 0x0400
  | .symBadlen => .encSym 0x300 0x300 0x1400 0x0400
  | .endOk => .encEos 0x300 0x200 0x1600 0x0200
  | .endMissing => .encEos 0x200 0x000 0x1600 0x0200
  | .endBadlen => .encEos 0x300 0x300 0x1600 0x0200
  | .fetchWait => .enc 0x1600 0x0000
  | .shiftBit => .enc 0x1000 0x0000
  | .shiftByte => .enc 0x1100 0x0100
  | .shiftWait => .enc 0x1100 0x0000
  | .shiftNext => .enc 0x1000 0x0000
  | .shiftLast => .enc 0x1000 0x0000
  | .flushByte => .enc 0x1100 0x0100
  | .flushNone => .enc 0x1000 0x0000
  | .flushWait => .enc 0x1100 0x0000

/-- A fetched thing fits the bits of a row. -/
def Fits : RowBits → Fetched → Prop
  | .node m p, .node w => w &&& m = p
  | .entry m p, .entry e => entryHeader e &&& m = p
  | .dec m p vm vp, .dec v => v.word &&& m = p ∧ v.pins.toVec &&& vm = vp
  | .enc vm vp, .enc v => v.pins.toVec &&& vm = vp
  | .encSym m p vm vp, .enc v => entryHeader v.symEntry &&& m = p ∧ v.pins.toVec &&& vm = vp
  | .encEos m p vm vp, .enc v => entryHeader v.eosEntry &&& m = p ∧ v.pins.toVec &&& vm = vp
  | _, _ => False

/-- A well-formed instruction encodes to bits that fit its row. -/
def Statement (i : Instr) : Prop := i.wellFormed = true → Fits (rowBits i) (encode i)

/-- Masking with the leaf flag alone leaves the leaf flag. -/
theorem mask_leaf (w : NodeWord) : w &&& 0x100000 = if leafFlag w then 0x100000 else 0x000000 := by
  have h20 : ∀ i, i < 21 → (0x100000 : BitVec 21).getLsbD i = decide (i = 20) := by decide
  apply BitVec.eq_of_getLsbD_eq
  intro i hi
  rw [BitVec.getLsbD_and, h20 i hi]
  by_cases h : i = 20
  · subst h
    cases hf : leafFlag w with
    | false =>
      have : w.getLsbD 20 = false := hf
      rw [this]
      rfl
    | true =>
      have : w.getLsbD 20 = true := hf
      rw [this]
      rfl
  · rw [decide_eq_false h, Bool.and_false]
    split
    · rw [h20 i hi, decide_eq_false h]
    · exact BitVec.getLsbD_zero.symm

/-- A header masks as its flag and its length do. -/
theorem header_masks (b : Bool) (n : Len) (c : CodeField) (m p : BitVec 10) (h : (BitVec.ofBool b ++ n) &&& m = p) :
    entryHeader (encodeEntry b n c) &&& m = p := by
  rw [entryHeader_encodeEntry]
  exact h

/-- An encoder line that reads no entry fits by its vector. -/
theorem enc_fits {v : EncView} {vm vp : BitVec 13} (h : v.pins.toVec &&& vm = vp) : Fits (.enc vm vp) (.enc v) := h

theorem wordInt (left right : NodeAddr) : Statement (.wordInt left right) := by
  intro _
  show encodeInt left right &&& 0x100000 = 0x000000
  rw [mask_leaf, leafFlag_encodeInt]
  rfl

theorem wordSym (byte : Byte) : Statement (.wordSym byte) := by
  intro _
  have h : ∀ b : Byte, encodeLeaf 0 (b.setWidth 9) &&& 0x1FFF00 = 0x100000 := by decide +kernel
  exact h byte

theorem wordEos : Statement .wordEos := by
  intro _
  show (0x100100 : NodeWord) &&& 0x1FFFFF = 0x100100
  decide

theorem wordBad (reserved : BitVec 11) (val : Val) : Statement (.wordBad reserved val) := by
  intro _
  show encodeLeaf reserved val &&& 0x100000 = 0x100000
  rw [mask_leaf, leafFlag_encodeLeaf]
  rfl

theorem cNone (len : Len) (code : CodeField) : Statement (.cNone len code) := by
  intro _
  have h : ∀ n : Len, (BitVec.ofBool false ++ n) &&& 0x200 = 0x000 := by decide +kernel
  exact header_masks false len code _ _ (h len)

theorem cCode (len : Len) (code : CodeField) : Statement (.cCode len code) := by
  intro hw
  have h : ∀ n : Len, Instr.cCodeOk n = true → (BitVec.ofBool true ++ n) &&& 0x300 = 0x200 := by decide +kernel
  exact header_masks true len code _ _ (h len hw)

theorem cCode256 (code : CodeField) : Statement (.cCode256 code) :=
  fun _ => header_masks true 256 code _ _ (by decide)

theorem cBad (len : Len) (code : CodeField) : Statement (.cBad len code) := by
  intro hw
  have h : ∀ n : Len, Instr.cBadOk n = true → (BitVec.ofBool true ++ n) &&& 0x300 = 0x300 := by decide +kernel
  exact header_masks true len code _ _ (h len hw)

theorem decReset : Statement .decReset := fun _ => ⟨by decide +kernel, by decide +kernel⟩

theorem decStart : Statement .decStart := fun _ => ⟨by decide +kernel, by decide +kernel⟩

theorem decHold : Statement .decHold := fun _ => ⟨by decide +kernel, by decide +kernel⟩

theorem intB0 : Statement .intB0 := fun _ => ⟨by decide +kernel, by decide +kernel⟩

theorem intB1 : Statement .intB1 := fun _ => ⟨by decide +kernel, by decide +kernel⟩

theorem intEnd0 : Statement .intEnd0 := fun _ => ⟨by decide +kernel, by decide +kernel⟩

theorem intEnd1 : Statement .intEnd1 := fun _ => ⟨by decide +kernel, by decide +kernel⟩

theorem intWait : Statement .intWait := fun _ => ⟨by decide +kernel, by decide +kernel⟩

theorem symOut : Statement .symOut := fun _ => ⟨by decide +kernel, by decide +kernel⟩

theorem symWait : Statement .symWait := fun _ => ⟨by decide +kernel, by decide +kernel⟩

theorem eos : Statement .eos := fun _ => ⟨by decide +kernel, by decide +kernel⟩

theorem bad : Statement .bad := fun _ => ⟨by decide +kernel, by decide +kernel⟩

theorem encReset : Statement .encReset := fun _ => enc_fits (by decide +kernel)

theorem encStart : Statement .encStart := fun _ => enc_fits (by decide +kernel)

theorem encHold : Statement .encHold := fun _ => enc_fits (by decide +kernel)

theorem symOk : Statement .symOk := fun _ => ⟨by decide +kernel, by decide +kernel⟩

theorem symMissing : Statement .symMissing := fun _ => ⟨by decide +kernel, by decide +kernel⟩

theorem symBadlen : Statement .symBadlen := fun _ => ⟨by decide +kernel, by decide +kernel⟩

theorem endOk : Statement .endOk := fun _ => ⟨by decide +kernel, by decide +kernel⟩

theorem endMissing : Statement .endMissing := fun _ => ⟨by decide +kernel, by decide +kernel⟩

theorem endBadlen : Statement .endBadlen := fun _ => ⟨by decide +kernel, by decide +kernel⟩

theorem fetchWait : Statement .fetchWait := fun _ => enc_fits (by decide +kernel)

theorem shiftBit : Statement .shiftBit := fun _ => enc_fits (by decide +kernel)

theorem shiftByte : Statement .shiftByte := fun _ => enc_fits (by decide +kernel)

theorem shiftWait : Statement .shiftWait := fun _ => enc_fits (by decide +kernel)

theorem shiftNext : Statement .shiftNext := fun _ => enc_fits (by decide +kernel)

theorem shiftLast : Statement .shiftLast := fun _ => enc_fits (by decide +kernel)

theorem flushByte : Statement .flushByte := fun _ => enc_fits (by decide +kernel)

theorem flushNone : Statement .flushNone := fun _ => enc_fits (by decide +kernel)

theorem flushWait : Statement .flushWait := fun _ => enc_fits (by decide +kernel)

end Sys2Proof.Laws.EncodingMatchesRow
end

