-- ==== Sys2Proof/Laws/Tree.lean ====
section
/-! SUPPORT. The words of a tree's image (R114) as the decoder reads them, and the sizes of what the tree functions give. -/

namespace Sys2Proof.Machine

/-- A leaf word is a byte symbol's word or the sentinel's (R82, R114). -/
theorem classify_leafWord (v : LeafValue) :
    classify (leafWord v) = match v with
      | .sym _ => .sym
      | .eos => .eos := by
  cases v with
  | sym b =>
    have h : ∀ b : Byte, classify (leafWord (.sym b)) = .sym := by decide +kernel
    exact h b
  | eos => decide

/-- The byte of a symbol's leaf word (R84). -/
@[simp] theorem byteOf_leafWord (b : Byte) : byteOf (leafWord (.sym b)) = b := by
  have h : ∀ b : Byte, byteOf (leafWord (.sym b)) = b := by decide +kernel
  exact h b

/-- A leaf word has the leaf flag (R81). -/
@[simp] theorem leafFlag_leafWord (v : LeafValue) : leafFlag (leafWord v) = true := by
  cases v with
  | sym b =>
    have h : ∀ b : Byte, leafFlag (leafWord (.sym b)) = true := by decide +kernel
    exact h b
  | eos => decide

/-- A leaf word says which value it holds. -/
theorem leafWord_injective {v w : LeafValue} (h : leafWord v = leafWord w) : v = w := by
  have hc := congrArg classify h
  rw [classify_leafWord, classify_leafWord] at hc
  cases v with
  | sym a =>
    cases w with
    | sym b =>
      have hb := congrArg byteOf h
      rw [byteOf_leafWord, byteOf_leafWord] at hb
      rw [hb]
    | eos => cases hc
  | eos =>
    cases w with
    | sym b => cases hc
    | eos => rfl

/-- An Internal word is `{0, left, right}` (R81, R114). -/
theorem internalWord_eq (l r : NodeAddr) : internalWord l r = encodeInt l r := by
  apply BitVec.eq_of_toNat_eq
  have hl := l.isLt
  have hr := r.isLt
  unfold internalWord encodeInt
  rw [BitVec.toNat_or, BitVec.toNat_shiftLeft, BitVec.toNat_setWidth, BitVec.toNat_setWidth, BitVec.toNat_append,
    BitVec.toNat_append]
  have h1 : l.toNat % 2 ^ 21 = l.toNat := Nat.mod_eq_of_lt (by omega)
  have h2 : r.toNat % 2 ^ 21 = r.toNat := Nat.mod_eq_of_lt (by omega)
  have h3 : l.toNat <<< 10 % 2 ^ 21 = l.toNat <<< 10 := Nat.mod_eq_of_lt (by rw [Nat.shiftLeft_eq]; omega)
  rw [h1, h2, h3]
  simp

@[simp] theorem leafFlag_internalWord (l r : NodeAddr) : leafFlag (internalWord l r) = false := by
  rw [internalWord_eq, leafFlag_encodeInt]

@[simp] theorem leftOf_internalWord (l r : NodeAddr) : leftOf (internalWord l r) = l := by
  rw [internalWord_eq, leftOf_encodeInt]

@[simp] theorem rightOf_internalWord (l r : NodeAddr) : rightOf (internalWord l r) = r := by
  rw [internalWord_eq, rightOf_encodeInt]

/-- A memory represents at most one tree at an address (R114). -/
theorem Represents.unique {M : NodeAddr → NodeWord} {a : NodeAddr} {t u : Tree} (ht : Represents M a t)
    (hu : Represents M a u) : t = u := by
  induction t generalizing a u with
  | leaf v =>
    have hv : M a = leafWord v := ht
    cases u with
    | leaf w =>
      have hw : M a = leafWord w := hu
      rw [leafWord_injective (hv.symm.trans hw)]
    | internal l r =>
      have h : leafFlag (M a) = false := hu.1
      rw [hv, leafFlag_leafWord] at h
      cases h
  | internal l r ihl ihr =>
    cases u with
    | leaf w =>
      have hw : M a = leafWord w := hu
      have h : leafFlag (M a) = false := ht.1
      rw [hw, leafFlag_leafWord] at h
      cases h
    | internal l' r' => rw [ihl ht.2.1 hu.2.1, ihr ht.2.2 hu.2.2]

/-- The codes of a tree have its leaves, in order (R111). -/
theorem Tree.codesFrom_leaves (t : Tree) (p : List Bool) : (t.codesFrom p).map (fun x => x.1) = t.leaves := by
  induction t generalizing p with
  | leaf v => rfl
  | internal l r ihl ihr => rw [Tree.codesFrom, List.map_append, ihl, ihr, Tree.leaves]

/-- A byte sequence unpacks to eight bits a byte (R58). -/
@[simp] theorem unpack_length (bytes : List Byte) : (unpack bytes).length = 8 * bytes.length := by
  induction bytes with
  | nil => rfl
  | cons b rest ih =>
    have h : unpack (b :: rest) = bitsOfByte b ++ unpack rest := rfl
    rw [h, List.length_append, ih]
    simp only [bitsOfByte, List.length_cons, List.length_nil]
    omega

/-- Bits pack to as many bytes as they need (R58). -/
@[simp] theorem pack_length (bits : List Bool) : (pack bits).length = (bits.length + 7) / 8 := by
  simp [pack]

end Sys2Proof.Machine
end

