-- ==== Sys2Proof/Tests/Slice0.lean ====
section
/-! SUPPORT. Tests. Expected values come from 95_test_vectors.md (named V-…, P…), or by hand from the rule named. The witnesses
of the statements' hypotheses stand at the end. -/

namespace Sys2Proof.Tests

-- One theorem after another: many at once each hold a thread of their own.
set_option Elab.async false

open Sys2Proof.Machine

/-! ## Helpers -/

/-- The outcome is a next state with this property. -/
def isNext (o : Host.Outcome State Fault Refusal) (p : State → Bool) : Bool :=
  match o with
  | .next t => p t
  | .fault _ => false
  | .refused _ => false

/-- A next state, taken out of its outcome. -/
theorem next_of_isNext {o : Host.Outcome State Fault Refusal} {p : State → Bool} (h : isNext o p = true) :
    ∃ t, o = .next t ∧ p t = true := by
  cases o with
  | next t => exact ⟨t, rfl, h⟩
  | fault f => cases h
  | refused r => cases h

/-- Decoder pins from the bits of `DIN` (R87). -/
def din (v : BitVec 6) : DecPins := DecPins.ofVec v

/-- Encoder pins from the bits of `EIN` (R88). -/
def ein (v : BitVec 13) : EncPins := EncPins.ofVec v

/-- The image `T1` (95_test_vectors.md section 2). -/
def t1Image : Memory 21 := [(0, 0x000402), (1, 0x100041), (2, 0x000C04), (3, 0x100042), (4, 0x100100)]

/-- The tree `t1`. -/
def t1 : Tree := .internal (.leaf (.sym 0x41)) (.internal (.leaf (.sym 0x42)) (.leaf .eos))

/-- The tree `t3`. -/
def t3 : Tree := .internal (.leaf (.sym 0x41)) (.leaf .eos)

/-- An entry from its header and its code (R85). -/
def entryOf (h : BitVec 10) (c : CodeField) : Entry := h ++ c

/-- Some entries: `K1` at 0x41, 0x42, 0x100; `K2` at 0x64; no entry at 0x78; `V-E16`'s reserved length at 0x79. -/
def codes : Memory 266 :=
  [(0x41, entryOf 0x201 0x0), (0x42, entryOf 0x202 0x2), (0x64, entryOf 0x202 0x3), (0x78, entryOf 0x000 0x0),
   (0x79, entryOf 0x301 0x0), (0x100, entryOf 0x202 0x3)]

/-- A machine with these decoder registers over `T1`, and these pins. -/
def decAt (st : DState) (node : NodeAddr) (mid : Bool) (code : StatusCode) (p : DecPins) : State :=
  { State.reset with dec := { dstate := st, node := node, mid := mid, dstatus := code }, nodeMem := t1Image, din := p }

/-- The same over a memory of one word at node 0. -/
def decOn (w : NodeWord) (mid : Bool) (p : DecPins) : State :=
  { State.reset with dec := { dstate := .run, node := 0, mid := mid, dstatus := 0 }, nodeMem := [(0, w)], din := p }

/-- A machine with these encoder registers over `codes`, and these pins. -/
def encAt (st : EState) (cur : Val) (rem : Len) (acc : Byte) (cnt : BitVec 3) (p : EncPins) : State :=
  { State.reset with
    enc := { estate := st, cur := cur, rem := rem, acc := acc, cnt := cnt, estatus := 0, errSym := 0 }, codeMem := codes,
    ein := p }

/-- A machine whose encoder is in FETCH with one entry, for the sentinel. -/
def encEnd (e : Entry) (p : EncPins) : State :=
  { State.reset with enc := { EncRegs.reset with estate := .fetch }, codeMem := [(0x100, e)], ein := p }

/-! ## Well-formedness: an ill-formed term for each check (R82, R85) -/

/-- `val` 256 with a reserved field of 0 is the sentinel, no reserved word. -/
theorem test_wordBad_256_is_illformed : (Instr.wordBad 0 256).wellFormed = false := by decide
/-- `val` 0x41 with a reserved field of 0 is a byte symbol. -/
theorem test_wordBad_byte_is_illformed : (Instr.wordBad 0 0x41).wellFormed = false := by decide
/-- A length of 256 belongs to `C-CODE.256`. -/
theorem test_cCode_256_is_illformed : (Instr.cCode 256 0).wellFormed = false := by decide
/-- A length of 256 is not reserved. -/
theorem test_cBad_256_is_illformed : (Instr.cBad 256 0).wellFormed = false := by decide
/-- The values next to them are admitted. -/
theorem test_boundaries_are_wellformed :
    (Instr.wordBad 0 257).wellFormed = true ∧ (Instr.wordBad 1 0).wellFormed = true ∧
      (Instr.cCode 255 0).wellFormed = true ∧ (Instr.cBad 257 0).wellFormed = true := by decide

/-! ## Decoding: words written out bit by bit from R81 and R85, vectors from R87 and R88 -/

/-- V-W1 to V-W3: `{0, left, right}`. -/
theorem test_decode_int :
    decode (.node 0b0_0000000101_0000001000#21) = .wordInt 5 8 ∧
      decode (.node 0b0_1111111111_1111111111#21) = .wordInt 1023 1023 ∧ decode (.node 0#21) = .wordInt 0 0 := by decide
/-- V-W4, V-W5: `{1, 00000000000, val}`. -/
theorem test_decode_sym :
    decode (.node 0b1_00000000000_000000000#21) = .wordSym 0x00 ∧
      decode (.node 0b1_00000000000_011111111#21) = .wordSym 0xFF := by decide
/-- V-W6. -/
theorem test_decode_eos : decode (.node 0b1_00000000000_100000000#21) = .wordEos := by decide
/-- V-W7 to V-W11. -/
theorem test_decode_bad :
    decode (.node 0b1_00000000000_100000001#21) = .wordBad 0 257 ∧
      decode (.node 0b1_00000000000_111111111#21) = .wordBad 0 511 ∧
      decode (.node 0b1_00000000001_000000000#21) = .wordBad 1 0 ∧
      decode (.node 0b1_10000000000_001000001#21) = .wordBad 0x400 0x41 ∧
      decode (.node 0b1_11111111111_111111111#21) = .wordBad 0x7FF 511 := by decide
/-- V-W12, V-W13: `{0, len}`. -/
theorem test_decode_entry_none :
    decode (.entry (entryOf 0b0_000000000 0x7)) = .cNone 0 0x7 ∧
      decode (.entry (entryOf 0b0_111111111 0x0)) = .cNone 511 0x0 := by decide +kernel
/-- V-W14 to V-W16. -/
theorem test_decode_entry_code :
    decode (.entry (entryOf 0b1_000000000 0x0)) = .cCode 0 0x0 ∧
      decode (.entry (entryOf 0b1_000000011 0xFD)) = .cCode 3 0xFD ∧
      codeBits (entryOf 0b1_000000011 0x5) = [true, false, true] ∧
      codeBits (entryOf 0b1_000000011 0xFD) = [true, false, true] := by decide +kernel
/-- V-W17. -/
theorem test_decode_entry_code256 : decode (.entry (entryOf 0b1_100000000 0x1)) = .cCode256 0x1 := by decide +kernel
/-- V-W18. -/
theorem test_decode_entry_bad : decode (.entry (entryOf 0b1_100000001 0x0)) = .cBad 257 0x0 := by decide +kernel

/-- `DIN = {rst, start, bit_valid, bit_eof, bit_data, out_ready}` written out (R87; V-W24 for the first). -/
theorem test_decode_decoder_control :
    decode (.dec ⟨.run, true, 0x000402, din 0b110000⟩) = .decReset ∧
      decode (.dec ⟨.done, true, 0x100100, din 0b010000⟩) = .decStart ∧
      decode (.dec ⟨.idle, false, 0x000402, din 0b001111⟩) = .decHold := by decide
/-- R87 lines 4 to 8; V-W25 and V-W26 for the second. -/
theorem test_decode_decoder_int :
    decode (.dec ⟨.run, false, 0x000402, din 0b001000⟩) = .intB0 ∧
      decode (.dec ⟨.run, false, 0x000402, din 0b011110⟩) = .intB1 ∧
      decode (.dec ⟨.run, false, 0x000402, din 0b000111⟩) = .intEnd0 ∧
      decode (.dec ⟨.run, true, 0x000402, din 0b000100⟩) = .intEnd1 ∧
      decode (.dec ⟨.run, true, 0x000402, din 0b000011⟩) = .intWait := by decide
/-- R87 lines 9 to 12. -/
theorem test_decode_decoder_leaf :
    decode (.dec ⟨.run, true, 0x100041, din 0b000001⟩) = .symOut ∧
      decode (.dec ⟨.run, true, 0x100041, din 0b001110⟩) = .symWait ∧
      decode (.dec ⟨.run, true, 0x100100, din 0b000000⟩) = .eos ∧
      decode (.dec ⟨.run, true, 0x100101, din 0b000001⟩) = .bad := by decide

/-- `EIN = {rst, start, in_valid, in_eof, out_ready, in_data}` written out (R88). -/
theorem test_decode_encoder_control :
    decode (.enc ⟨.shift, 0, 1, 0, 0, 0, ein 0b11000_00000000⟩) = .encReset ∧
      decode (.enc ⟨.done, 0, 0, 0, 0, 0, ein 0b01111_01000001⟩) = .encStart ∧
      decode (.enc ⟨.idle, 0, 0, 0, 0, 0, ein 0b00111_01000001⟩) = .encHold := by decide +kernel
/-- R88 lines 4 to 10: `in_valid` is looked at before `in_eof` (R229). -/
theorem test_decode_encoder_fetch :
    decode (.enc ⟨.fetch, 0, 0, 0, entryOf 0x201 0, 0, ein 0b01110_01000001⟩) = .symOk ∧
      decode (.enc ⟨.fetch, 0, 0, 0, entryOf 0x1FF 0, 0, ein 0b00100_01000001⟩) = .symMissing ∧
      decode (.enc ⟨.fetch, 0, 0, 0, entryOf 0x301 0, 0, ein 0b00100_01000001⟩) = .symBadlen ∧
      decode (.enc ⟨.fetch, 0, 0, 0, 0, entryOf 0x300 0, ein 0b00010_01000001⟩) = .endOk ∧
      decode (.enc ⟨.fetch, 0, 0, 0, entryOf 0x201 0, entryOf 0x000 0, ein 0b00010_01000001⟩) = .endMissing ∧
      decode (.enc ⟨.fetch, 0, 0, 0, entryOf 0x201 0, entryOf 0x32C 0, ein 0b00010_01000001⟩) = .endBadlen ∧
      decode (.enc ⟨.fetch, 0, 0, 0, entryOf 0x201 0, entryOf 0x201 0, ein 0b01001_01000001⟩) = .fetchWait := by
  decide +kernel
/-- R88 lines 11 to 18. -/
theorem test_decode_encoder_shift_flush :
    decode (.enc ⟨.shift, 0x41, 1, 6, 0, 0, ein 0b00000_00000000⟩) = .shiftBit ∧
      decode (.enc ⟨.shift, 0x41, 1, 7, 0, 0, ein 0b00001_00000000⟩) = .shiftByte ∧
      decode (.enc ⟨.shift, 0x41, 1, 7, 0, 0, ein 0b01110_00000000⟩) = .shiftWait ∧
      decode (.enc ⟨.shift, 0x41, 0, 7, 0, 0, ein 0b00000_00000000⟩) = .shiftNext ∧
      decode (.enc ⟨.shift, 0x100, 0, 7, 0, 0, ein 0b00001_00000000⟩) = .shiftLast ∧
      decode (.enc ⟨.flush, 0x100, 0, 5, 0, 0, ein 0b00001_00000000⟩) = .flushByte ∧
      decode (.enc ⟨.flush, 0x100, 0, 0, 0, 0, ein 0b00000_00000000⟩) = .flushNone ∧
      decode (.enc ⟨.flush, 0x100, 0, 5, 0, 0, ein 0b01110_00000000⟩) = .flushWait := by decide +kernel

/-- The table's numbering, and bits that are no row. -/
theorem test_decodeTableWord :
    decodeTableWord 24 0x100041 = some (.wordSym 0x41) ∧ decodeTableWord 24 0x200000 = none ∧
      decodeTableWord 16 0x0400 = some .encHold ∧ decodeTableWord 16 0x2000 = none ∧
      decodeTableWord 8 0x10 = some .decStart ∧ decodeTableWord 32 0 = none := by decide +kernel

/-! ## One step of each row -/

/-- R250: reset beats everything (V-W24). -/
theorem test_decReset :
    isNext (decEdge (din 0b111111) (decAt .run 3 true 0 DecPins.low))
      (fun t => t.dec == { dstate := .idle, node := 0, mid := false, dstatus := 0 } && t.bitsIn == []) = true := by decide
/-- V-D20: the status of the run before is cleared. -/
theorem test_decStart :
    isNext (decEdge (din 0b010000) (decAt .done 2 true 3 DecPins.low))
      (fun t => t.dec == { dstate := .run, node := 0, mid := false, dstatus := 0 }) = true := by decide
/-- R142: `node` and `mid` keep their values in DONE. -/
theorem test_decHold :
    isNext (decEdge (din 0b001111) (decAt .done 4 true 1 DecPins.low))
      (fun t => t.dec == { dstate := .done, node := 4, mid := true, dstatus := 1 } && t.bitsIn == []) = true := by decide
/-- V-D3 step 1. -/
theorem test_intB0 :
    isNext (decEdge (din 0b001001) (decAt .run 0 false 0 DecPins.low))
      (fun t => t.dec == { dstate := .run, node := 1, mid := true, dstatus := 0 } && t.bitsIn == [false]) = true := by decide
/-- V-D3 step 3, with `bit_eof` set as in V-D19. -/
theorem test_intB1 :
    isNext (decEdge (din 0b001110) (decAt .run 0 false 0 DecPins.low))
      (fun t => t.dec == { dstate := .run, node := 2, mid := true, dstatus := 0 } && t.bitsIn == [true]) = true := by decide
/-- V-D7. -/
theorem test_intEnd0 :
    isNext (decEdge (din 0b000101) (decAt .run 0 false 0 DecPins.low))
      (fun t => t.dec == { dstate := .done, node := 0, mid := false, dstatus := 2 } && !t.decErr) = true := by decide
/-- V-D6: exhaustion at node 2 of `T1`. -/
theorem test_intEnd1 :
    isNext (decEdge (din 0b000101) (decAt .run 2 true 0 DecPins.low))
      (fun t => t.dec == { dstate := .done, node := 2, mid := true, dstatus := 3 } && t.decErr) = true := by decide
/-- R137: `bit_data` without `bit_valid` is no bit. -/
theorem test_intWait :
    isNext (decEdge (din 0b010011) (decAt .run 2 true 0 DecPins.low))
      (fun t => t.dec == { dstate := .run, node := 2, mid := true, dstatus := 0 } && t.bitsIn == []) = true := by decide
/-- V-D3 step 2. -/
theorem test_symOut :
    isNext (decEdge (din 0b001001) (decAt .run 1 true 0 DecPins.low))
      (fun t => t.dec == { dstate := .run, node := 0, mid := false, dstatus := 0 } && t.decOut == [0x41] && t.bitsIn == [])
      = true := by decide
/-- V-D16 step 2. -/
theorem test_symWait :
    isNext (decEdge (din 0b001100) (decAt .run 1 true 0 DecPins.low))
      (fun t => t.dec == { dstate := .run, node := 1, mid := true, dstatus := 0 } && t.decOut == []) = true := by decide
/-- V-D3 step 8. -/
theorem test_eos :
    isNext (decEdge (din 0b001001) (decAt .run 4 true 0 DecPins.low))
      (fun t => t.dec == { dstate := .done, node := 4, mid := true, dstatus := 1 } && t.decOut == [] && t.bitsIn == [])
      = true := by decide
/-- V-D14: a reserved word. -/
theorem test_bad :
    isNext (decEdge (din 0b001001) (decOn 0x100101 true DecPins.low))
      (fun t => t.dec == { dstate := .done, node := 0, mid := true, dstatus := 4 } && t.decOut == [] && t.decErr)
      = true := by decide

/-- R250. -/
theorem test_encReset :
    isNext (encEdge (ein 0b11111_01000001) (encAt .flush 0x100 0 0x58 5 EncPins.low))
      (fun t => t.enc == { estate := .idle, cur := 0, rem := 0, acc := 0, cnt := 0, estatus := 0, errSym := 0 } &&
        t.symsIn == [] && t.encOut == []) = true := by decide
/-- V-E20: the pending bits of a failed run are gone. -/
theorem test_encStart :
    isNext (encEdge (ein 0b01000_00000000) (encAt .done 0x41 0 0x80 1 EncPins.low))
      (fun t => t.enc == { estate := .fetch, cur := 0, rem := 0, acc := 0, cnt := 0, estatus := 0, errSym := 0 })
      = true := by decide
/-- R185. -/
theorem test_encHold :
    isNext (encEdge (ein 0b00111_01000001) (encAt .done 0x41 0 0x10 4 EncPins.low))
      (fun t => t.enc == { estate := .done, cur := 0x41, rem := 0, acc := 0x10, cnt := 4, estatus := 0, errSym := 0 } &&
        t.symsIn == []) = true := by decide
/-- V-E3 step 4. -/
theorem test_symOk :
    isNext (encEdge (ein 0b00100_01000010) (encAt .fetch 0x41 0 0x00 1 EncPins.low))
      (fun t => t.enc == { estate := .shift, cur := 0x42, rem := 2, acc := 0x00, cnt := 1, estatus := 0, errSym := 0 } &&
        t.symsIn == [0x42]) = true := by decide +kernel
/-- P4, last step. -/
theorem test_symMissing :
    isNext (encEdge (ein 0b00100_01111000) (encAt .fetch 0x62 0 0x10 4 EncPins.low))
      (fun t => t.enc == { estate := .done, cur := 0x62, rem := 0, acc := 0x10, cnt := 4, estatus := 5, errSym := 0x78 } &&
        t.symsIn == [0x78] && t.encOut == [] && t.encErr) = true := by decide +kernel
/-- V-E16. -/
theorem test_symBadlen :
    isNext (encEdge (ein 0b00100_01111001) (encAt .fetch 0 0 0x00 0 EncPins.low))
      (fun t => t.enc == { estate := .done, cur := 0, rem := 0, acc := 0, cnt := 0, estatus := 6, errSym := 0x79 } &&
        t.symsIn == [0x79]) = true := by decide +kernel
/-- V-E3 step 8. -/
theorem test_endOk :
    isNext (encEdge (ein 0b00010_00000000) (encAt .fetch 0x42 0 0x40 3 EncPins.low))
      (fun t => t.enc == { estate := .shift, cur := 0x100, rem := 2, acc := 0x40, cnt := 3, estatus := 0, errSym := 0 } &&
        t.symsIn == []) = true := by decide +kernel
/-- V-E12: a table without the sentinel. -/
theorem test_endMissing :
    isNext (encEdge (ein 0b00010_01000001) (encEnd (entryOf 0x000 0) EncPins.low))
      (fun t => t.enc == { estate := .done, cur := 0, rem := 0, acc := 0, cnt := 0, estatus := 5, errSym := 0x100 } &&
        t.symsIn == []) = true := by decide +kernel
/-- V-E17: a sentinel of length 300. -/
theorem test_endBadlen :
    isNext (encEdge (ein 0b00010_01000001) (encEnd (entryOf 0x32C 0) EncPins.low))
      (fun t => t.enc == { estate := .done, cur := 0, rem := 0, acc := 0, cnt := 0, estatus := 6, errSym := 0x100 } &&
        t.symsIn == []) = true := by decide +kernel
/-- R177. -/
theorem test_fetchWait :
    isNext (encEdge (ein 0b01001_01000001) (encAt .fetch 0x42 0 0x40 3 EncPins.low))
      (fun t => t.enc == { estate := .fetch, cur := 0x42, rem := 0, acc := 0x40, cnt := 3, estatus := 0, errSym := 0 } &&
        t.symsIn == []) = true := by decide +kernel
/-- V-E3 step 9. -/
theorem test_shiftBit :
    isNext (encEdge (ein 0) (encAt .shift 0x100 2 0x40 3 EncPins.low))
      (fun t => t.enc == { estate := .shift, cur := 0x100, rem := 1, acc := 0x50, cnt := 4, estatus := 0, errSym := 0 } &&
        t.encOut == []) = true := by decide +kernel
/-- V-E13a at the byte boundary. -/
theorem test_shiftByte :
    isNext (encEdge (ein 0b00001_00000000) (encAt .shift 0x64 2 0x18 7 EncPins.low))
      (fun t => t.enc == { estate := .shift, cur := 0x64, rem := 1, acc := 0x00, cnt := 0, estatus := 0, errSym := 0 } &&
        t.encOut == [0x19]) = true := by decide +kernel
/-- R180: the same byte stands on the wires while the sink is not ready. -/
theorem test_shiftWait :
    isNext (encEdge (ein 0b00110_00000000) (encAt .shift 0x64 2 0x18 7 EncPins.low))
      (fun t => t.enc == { estate := .shift, cur := 0x64, rem := 2, acc := 0x18, cnt := 7, estatus := 0, errSym := 0 } &&
        t.encOutData == 0x19 && t.encOut == []) = true := by decide +kernel
/-- V-E3 step 7. -/
theorem test_shiftNext :
    isNext (encEdge (ein 0) (encAt .shift 0x42 0 0x40 3 EncPins.low))
      (fun t => t.enc == { estate := .fetch, cur := 0x42, rem := 0, acc := 0x40, cnt := 3, estatus := 0, errSym := 0 })
      = true := by decide
/-- V-E3 step 11. -/
theorem test_shiftLast :
    isNext (encEdge (ein 0) (encAt .shift 0x100 0 0x58 5 EncPins.low))
      (fun t => t.enc == { estate := .flush, cur := 0x100, rem := 0, acc := 0x58, cnt := 5, estatus := 0, errSym := 0 })
      = true := by decide
/-- V-E3 step 12. -/
theorem test_flushByte :
    isNext (encEdge (ein 0b00001_00000000) (encAt .flush 0x100 0 0x58 5 EncPins.low))
      (fun t => t.enc == { estate := .done, cur := 0x100, rem := 0, acc := 0x00, cnt := 0, estatus := 1, errSym := 0 } &&
        t.encOut == [0x58]) = true := by decide
/-- V-E6: a stream of whole bytes. -/
theorem test_flushNone :
    isNext (encEdge (ein 0) (encAt .flush 0x100 0 0x00 0 EncPins.low))
      (fun t => t.enc == { estate := .done, cur := 0x100, rem := 0, acc := 0x00, cnt := 0, estatus := 1, errSym := 0 } &&
        t.encOut == []) = true := by decide
/-- V-E18: a FLUSH.WAIT step. -/
theorem test_flushWait :
    isNext (encEdge (ein 0b00110_00000000) (encAt .flush 0x100 0 0x58 5 EncPins.low))
      (fun t => t.enc == { estate := .flush, cur := 0x100, rem := 0, acc := 0x58, cnt := 5, estatus := 0, errSym := 0 } &&
        t.encOutData == 0x58 && t.encOut == []) = true := by decide

/-- A node word executed under pins: both children of V-W3. -/
theorem test_wordInt :
    isNext (exec (.wordInt 5 8) (decOn 0x001408 false (din 0b001000))) (fun t => t.dec.node == 5) = true ∧
      isNext (exec (.wordInt 5 8) (decOn 0x001408 false (din 0b001010))) (fun t => t.dec.node == 8) = true := by decide
/-- V-W5 with a ready sink (R138). -/
theorem test_wordSym :
    isNext (exec (.wordSym 0xFF) (decOn 0x1000FF true (din 0b000001))) (fun t => t.decOut == [0xFF] && !t.dec.mid)
      = true := by decide
/-- V-D10. -/
theorem test_wordEos :
    isNext (exec .wordEos (decOn 0x100100 false (din 0b001000))) (fun t => t.dec.dstatus == 1 && t.bitsIn == [])
      = true := by decide
/-- V-W9 (R141). -/
theorem test_wordBad :
    isNext (exec (.wordBad 1 0) (decOn 0x100200 false (din 0b001000))) (fun t => t.dec.dstatus == 4 && t.bitsIn == [])
      = true := by decide
/-- V-W13 looked up (R173). -/
theorem test_cNone :
    isNext (exec (.cNone 511 0) (encAt .fetch 0 0 0 0 (ein 0b00100_01111000)))
      (fun t => t.enc.estatus == 5 && t.enc.errSym == 0x78) = true := by decide
/-- V-W15 looked up (R172). -/
theorem test_cCode :
    isNext (exec (.cCode 3 5) (encAt .fetch 0 0 0 0 (ein 0b00100_01000001)))
      (fun t => t.enc.cur == 0x41 && t.enc.rem == 3) = true := by decide
/-- V-W17 looked up for the sentinel (R175). -/
theorem test_cCode256 :
    isNext (exec (.cCode256 0) (encAt .fetch 0 0 0 0 (ein 0b00010_01000001)))
      (fun t => t.enc.cur == 0x100 && t.enc.rem == 256) = true := by decide
/-- V-W18 looked up (R174). -/
theorem test_cBad :
    isNext (exec (.cBad 257 0) (encAt .fetch 0 0 0 0 (ein 0b00010_01000001)))
      (fun t => t.enc.estatus == 6 && t.enc.errSym == 0x100) = true := by decide

/-- A row placed after reset is what the next step runs: V-W3 takes the bit 0 and goes to node 5. -/
theorem test_withFetchWord_node :
    isNext (step (State.reset.withFetchWord 24 0x001408)) (fun t => t.dec.node == 5 && t.dec.mid) = true := by decide
/-- A header placed after reset is what the next step looks up. -/
theorem test_withFetchWord_entry :
    isNext (step (State.reset.withFetchWord 16 0x203)) (fun t => t.enc.rem == 3 && t.enc.estate == .shift) = true := by
  decide +kernel

/-! ## The functions of the spec around the blocks -/

/-- V-W19 to V-W23. -/
theorem test_pack_unpack :
    unpack [0x58] = [false, true, false, true, true, false, false, false] ∧
      pack [false, true, false, true, true] = [0x58] ∧ pack [] = [] ∧
      pack [true, false, true, false, true, false, true, true] = [0xAB] ∧
      pack [false, false, false, false, false, false, false, false, true] = [0x00, 0x80] := by decide +kernel
/-- `T1` is the image of `t1` (section 2). -/
theorem test_buildImage : buildImage t1 = some t1Image := by decide +kernel
/-- The codes of `t1` (section 2). -/
theorem test_buildTable :
    buildTable t1 = .ok [(.sym 0x41, [false]), (.sym 0x42, [true, false]), (.eos, [true, true])] := by decide
/-- An entry of `K1` (section 2). -/
theorem test_entryOfCode : entryOfCode [true, false] = entryOf 0x202 0x2 := by decide +kernel
/-- V-D3: `58` decodes to `41 42` with the last three bits left. -/
theorem test_decodeAll :
    decodeAll 3 t1 (unpack [0x58]) [] = some { out := [0x41, 0x42], status := 1, rest := [false, false, false] } := by
  decide +kernel
/-- V-D6: `55` is truncated. -/
theorem test_decodeAll_truncated :
    decodeAll 5 t1 (unpack [0x55]) [] = some { out := [0x41, 0x42, 0x42, 0x42], status := 3, rest := [] } := by
  decide +kernel
/-- V-E3: `41 42` encodes to `58`. -/
theorem test_encodeAll :
    encodeAll (State.codeFn (encAt .idle 0 0 0 0 EncPins.low)) [0x41, 0x42] =
      { bytes := [0x58], status := 1, errSym := 0, taken := [0x41, 0x42] } := by decide +kernel
/-- A byte the table does not have: the pending bits are not put out (R170). -/
theorem test_encodeAll_fails :
    encodeAll (State.codeFn (encAt .idle 0 0 0 0 EncPins.low)) [0x42, 0x78] =
      { bytes := [], status := 5, errSym := 0x78, taken := [0x42, 0x78] } := by decide +kernel

/-! ## Witnesses: states and operands that meet the hypotheses of each statement

A witness of a statement about a step gives the next state too, so the case is one that completes. -/

/-- The outcome is some next state. -/
abbrev Completes (o : Host.Outcome State Fault Refusal) : Prop := isNext o (fun _ => true) = true

/-- An outcome that completes is a next state. -/
theorem Completes.next {o : Host.Outcome State Fault Refusal} (h : Completes o) : ∃ t, o = .next t :=
  let ⟨t, ht, _⟩ := next_of_isNext h
  ⟨t, ht⟩

/-- A clock edge of the decoder put before the others of a state. -/
def onDec (p : BitVec 6) (s : State) : State := s.before (.decClock (din p))

/-- A clock edge of the encoder put before the others of a state. -/
def onEnc (p : BitVec 13) (s : State) : State := s.before (.encClock (ein p))

theorem witness_ResetLeavesTheResetValues :
    Completes (exec .decReset (decAt .run 3 true 0 (din 0x20))) ∧
      Completes (exec .encReset (encAt .flush 0x100 0 0x58 5 (ein 0x1000))) ∧
      Completes (exec .decStart (decAt .done 4 true 1 (din 0x10))) ∧
      State.reset.dec = State.reset.dec ∧ State.reset.enc = State.reset.enc := by decide

theorem witness_ResetStepWritesEveryRegister :
    (decAt .run 3 true 0 (din 0x3F)).din.rst = true ∧ (encAt .shift 0x41 1 0 7 (ein 0x1FFF)).ein.rst = true ∧
      State.reset.dec = DecRegs.reset ∧ State.reset.enc = EncRegs.reset := by decide

theorem witness_DecStartBeginsARun :
    ((decAt .idle 0 false 0 (din 0x1F)).din.rst = false ∧ (decAt .idle 0 false 0 (din 0x1F)).decAtRest ∧
      (decAt .idle 0 false 0 (din 0x1F)).din.start = true) ∧
    ((decAt .done 4 true 1 (din 0x10)).din.rst = false ∧ (decAt .done 4 true 1 (din 0x10)).decAtRest ∧
      (decAt .done 4 true 1 (din 0x10)).din.start = true) ∧
    (DecView.runWith true 0x100041 0x10).dstate = .run := by decide

theorem witness_HoldWritesNothing :
    ((decAt .idle 0 false 0 (din 0x0F)).din.rst = false ∧ (decAt .idle 0 false 0 (din 0x0F)).decAtRest ∧
      (decAt .idle 0 false 0 (din 0x0F)).din.start = false) ∧
    ((encAt .done 0x41 0 0x10 4 (ein 0x741)).ein.rst = false ∧ (encAt .done 0x41 0 0x10 4 (ein 0x741)).encAtRest ∧
      (encAt .done 0x41 0 0x10 4 (ein 0x741)).ein.start = false) := by decide

theorem witness_IntB0GoesLeft :
    (decOn 0x0FFFFF false (din 0x08)).decRuns .int ∧ (decOn 0x0FFFFF false (din 0x08)).din.bitValid = true ∧
      (decOn 0x0FFFFF false (din 0x08)).din.bitData = false := by decide

theorem witness_IntB1GoesRight :
    (decOn 0x000000 true (din 0x0E)).decRuns .int ∧ (decOn 0x000000 true (din 0x0E)).din.bitValid = true ∧
      (decOn 0x000000 true (din 0x0E)).din.bitData = true := by decide

theorem witness_IntEnd0ReportsEndNoEos :
    (decOn 0x000402 false (din 0x06)).decRuns .int ∧ (decOn 0x000402 false (din 0x06)).din.bitValid = false ∧
      (decOn 0x000402 false (din 0x06)).din.bitEof = true ∧ (decOn 0x000402 false (din 0x06)).dec.mid = false := by decide

theorem witness_IntEnd1ReportsTruncated :
    (decOn 0x000402 true (din 0x04)).decRuns .int ∧ (decOn 0x000402 true (din 0x04)).din.bitValid = false ∧
      (decOn 0x000402 true (din 0x04)).din.bitEof = true ∧ (decOn 0x000402 true (din 0x04)).dec.mid = true := by decide

theorem witness_DecoderWaitsWriteNothing :
    ((decOn 0x000402 true (din 0x03)).decRuns .int ∧ (decOn 0x000402 true (din 0x03)).din.bitValid = false ∧
      (decOn 0x000402 true (din 0x03)).din.bitEof = false) ∧
    ((decOn 0x1000FF true (din 0x0E)).decRuns .sym ∧ (decOn 0x1000FF true (din 0x0E)).din.outReady = false) := by decide

theorem witness_SymOutPutsOutTheByte :
    (decOn 0x100000 true (din 0x01)).decRuns .sym ∧ (decOn 0x100000 true (din 0x01)).din.outReady = true := by decide

theorem witness_EosEndsTheRunWithOk :
    (decOn 0x100100 true (din 0x00)).din.rst = false ∧ (decOn 0x100100 true (din 0x00)).dec.dstate = .run ∧
      (decOn 0x100100 true (din 0x00)).nodeWord = 0x100100 := by decide

/-- Each way to be reserved, at its smallest value. -/
theorem witness_BadEndsTheRunWithBadNode :
    ((decOn 0x100101 true (din 0x00)).din.rst = false ∧ (decOn 0x100101 true (din 0x00)).dec.dstate = .run ∧
      (decOn 0x100101 true (din 0x00)).nodeWord.getLsbD 20 = true ∧
      256 < ((decOn 0x100101 true (din 0x00)).nodeWord.extractLsb' 0 9).toNat) ∧
    ((decOn 0x100200 true (din 0x00)).nodeWord.getLsbD 20 = true ∧
      (decOn 0x100200 true (din 0x00)).nodeWord.extractLsb' 9 11 ≠ 0) := by decide

theorem witness_EncStartBeginsARun :
    ((encAt .idle 0 0 0 0 (ein 0xFFF)).ein.rst = false ∧ (encAt .idle 0 0 0 0 (ein 0xFFF)).encAtRest ∧
      (encAt .idle 0 0 0 0 (ein 0xFFF)).ein.start = true) ∧
    ((encAt .done 0x41 0 0x80 1 (ein 0x800)).encAtRest ∧ (encAt .done 0x41 0 0x80 1 (ein 0x800)).ein.start = true) ∧
    (EncView.busyWith .flush 256 0 5 0x800).estate = .flush := by decide

/-- A code of 0 bits, of 2 bits and of 256 bits. -/
theorem witness_SymOkLoadsTheCode :
    (encAt .fetch 0 0 0 0 (ein 0x442)).encIn .fetch ∧ (encAt .fetch 0 0 0 0 (ein 0x442)).ein.inValid = true ∧
      classifyEntry ((encAt .fetch 0 0 0 0 (ein 0x442)).codeAt
        ((encAt .fetch 0 0 0 0 (ein 0x442)).ein.inData.setWidth 9)) = .code ∧
      classifyEntry (entryOf 0x200 0) = .code ∧ classifyEntry (entryOf 0x300 0) = .code := by decide +kernel

theorem witness_SymMissingIsUnencodable :
    (encAt .fetch 0 0 0 0 (ein 0x678)).encIn .fetch ∧ (encAt .fetch 0 0 0 0 (ein 0x678)).ein.inValid = true ∧
      ((encAt .fetch 0 0 0 0 (ein 0x678)).codeAt
        ((encAt .fetch 0 0 0 0 (ein 0x678)).ein.inData.setWidth 9)).getLsbD 265 = false := by decide +kernel

/-- The smallest reserved length, 257, for a symbol and for the sentinel. -/
theorem witness_ReservedLengthIsBadEntry :
    ((encAt .fetch 0 0 0 0 (ein 0x479)).encIn .fetch ∧ (encAt .fetch 0 0 0 0 (ein 0x479)).ein.inValid = true ∧
      ((encAt .fetch 0 0 0 0 (ein 0x479)).codeAt 0x79).getLsbD 265 = true ∧
      256 < (((encAt .fetch 0 0 0 0 (ein 0x479)).codeAt 0x79).extractLsb' 256 9).toNat ∧
      (encAt .fetch 0 0 0 0 (ein 0x479)).ein.inData.setWidth 9 = (0x79 : Val)) ∧
    ((encEnd (entryOf 0x301 0) (ein 0x200)).encIn .fetch ∧ (encEnd (entryOf 0x301 0) (ein 0x200)).ein.inValid = false ∧
      (encEnd (entryOf 0x301 0) (ein 0x200)).ein.inEof = true ∧
      ((encEnd (entryOf 0x301 0) (ein 0x200)).codeAt 256).getLsbD 265 = true ∧
      256 < (((encEnd (entryOf 0x301 0) (ein 0x200)).codeAt 256).extractLsb' 256 9).toNat) := by decide +kernel

theorem witness_EndOkLoadsTheSentinel :
    (encEnd (entryOf 0x300 0) (ein 0x200)).encIn .fetch ∧ (encEnd (entryOf 0x300 0) (ein 0x200)).ein.inValid = false ∧
      (encEnd (entryOf 0x300 0) (ein 0x200)).ein.inEof = true ∧
      classifyEntry ((encEnd (entryOf 0x300 0) (ein 0x200)).codeAt 256) = .code := by decide +kernel

theorem witness_EndMissingIsUnencodable :
    (encEnd (entryOf 0x1FF 0) (ein 0x200)).encIn .fetch ∧ (encEnd (entryOf 0x1FF 0) (ein 0x200)).ein.inValid = false ∧
      (encEnd (entryOf 0x1FF 0) (ein 0x200)).ein.inEof = true ∧
      ((encEnd (entryOf 0x1FF 0) (ein 0x200)).codeAt 256).getLsbD 265 = false := by decide +kernel

theorem witness_EncoderWaitsWriteNothing :
    ((encAt .fetch 0 0 0 0 (ein 0x1FF)).encIn .fetch ∧ (encAt .fetch 0 0 0 0 (ein 0x1FF)).ein.inValid = false ∧
      (encAt .fetch 0 0 0 0 (ein 0x1FF)).ein.inEof = false) ∧
    ((encAt .shift 0x64 1 0x18 7 (ein 0x600)).encIn .shift ∧ (encAt .shift 0x64 1 0x18 7 (ein 0x600)).enc.rem ≠ 0 ∧
      (encAt .shift 0x64 1 0x18 7 (ein 0x600)).enc.cnt = 7 ∧
      (encAt .shift 0x64 1 0x18 7 (ein 0x600)).ein.outReady = false) ∧
    ((encAt .flush 0x100 0 0x80 1 (ein 0x600)).encIn .flush ∧ (encAt .flush 0x100 0 0x80 1 (ein 0x600)).enc.cnt ≠ 0 ∧
      (encAt .flush 0x100 0 0x80 1 (ein 0x600)).ein.outReady = false) := by decide

/-- The last bit of a byte but one, and the longest code. -/
theorem witness_ShiftBitWritesOneBit :
    (encAt .shift 0x100 256 0x40 6 (ein 0)).encIn .shift ∧ (encAt .shift 0x100 256 0x40 6 (ein 0)).enc.rem ≠ 0 ∧
      (encAt .shift 0x100 256 0x40 6 (ein 0)).enc.cnt.toNat < 7 ∧
      (encAt .shift 0x100 256 0x40 6 (ein 0)).enc.cur.toNat ≤ 256 ∧
      (encAt .shift 0x100 256 0x40 6 (ein 0)).enc.rem.toNat ≤ 256 := by decide

theorem witness_ShiftByteCompletesAByte :
    (encAt .shift 0x64 1 0x18 7 (ein 0x100)).encIn .shift ∧ (encAt .shift 0x64 1 0x18 7 (ein 0x100)).enc.rem ≠ 0 ∧
      (encAt .shift 0x64 1 0x18 7 (ein 0x100)).enc.cnt = 7 ∧
      (encAt .shift 0x64 1 0x18 7 (ein 0x100)).ein.outReady = true ∧
      (encAt .shift 0x64 1 0x18 7 (ein 0x100)).enc.cur.toNat ≤ 256 ∧
      (encAt .shift 0x64 1 0x18 7 (ein 0x100)).enc.rem.toNat ≤ 256 := by decide

theorem witness_FinishedCodeGoesOn :
    ((encAt .shift 0xFF 0 0x18 7 (ein 0)).encIn .shift ∧ (encAt .shift 0xFF 0 0x18 7 (ein 0)).enc.rem = 0 ∧
      (encAt .shift 0xFF 0 0x18 7 (ein 0)).enc.cur ≠ 256) ∧
    ((encAt .shift 0x100 0 0x18 7 (ein 0)).encIn .shift ∧ (encAt .shift 0x100 0 0x18 7 (ein 0)).enc.rem = 0 ∧
      (encAt .shift 0x100 0 0x18 7 (ein 0)).enc.cur = 256) := by decide

theorem witness_FlushNoneAddsNoByte :
    (encAt .flush 0x100 0 0 0 (ein 0)).encIn .flush ∧ (encAt .flush 0x100 0 0 0 (ein 0)).enc.cnt = 0 := by decide

/-- The values next to the ranges: `cur` 257 and `rem` 257, with the byte complete and not. -/
theorem witness_AbsentCodeBitFaults :
    ((encAt .shift 257 1 0 6 (ein 0)).encIn .shift ∧ (encAt .shift 257 1 0 6 (ein 0)).enc.rem ≠ 0 ∧
      256 < (encAt .shift 257 1 0 6 (ein 0)).enc.cur.toNat ∧ (encAt .shift 257 1 0 6 (ein 0)).enc.cnt ≠ 7) ∧
    ((encAt .shift 257 1 0 7 (ein 0x100)).enc.cnt = 7 ∧ (encAt .shift 257 1 0 7 (ein 0x100)).ein.outReady = true) ∧
    ((encAt .shift 256 257 0 6 (ein 0)).encIn .shift ∧ (encAt .shift 256 257 0 6 (ein 0)).enc.rem ≠ 0 ∧
      (encAt .shift 256 257 0 6 (ein 0)).enc.cur.toNat ≤ 256 ∧ 256 < (encAt .shift 256 257 0 6 (ein 0)).enc.rem.toNat ∧
      (encAt .shift 256 257 0 6 (ein 0)).enc.cnt ≠ 7) ∧
    ((encAt .shift 256 257 0 7 (ein 0x100)).enc.cnt = 7 ∧ (encAt .shift 256 257 0 7 (ein 0x100)).ein.outReady = true) := by
  decide

theorem witness_NodeWordsExecute :
    (decOn 0 false (din 0x08)).din.rst = false ∧ (decOn 0 false (din 0x08)).dec.dstate = .run ∧
      (decOn 0 false (din 0x08)).din.bitValid = true ∧ (decOn 0 false (din 0x0A)).din.bitData = true ∧
      (decOn 0 false (din 0x04)).din.bitValid = false ∧ (decOn 0 false (din 0x04)).din.bitEof = true ∧
      (decOn 0 false (din 0x01)).din.bitEof = false ∧ (decOn 0 false (din 0x01)).din.outReady = true ∧
      (decOn 0 false (din 0x0E)).din.outReady = false := by decide

theorem witness_CodeEntriesExecute :
    (encAt .fetch 0 0 0 0 (ein 0x441)).encIn .fetch ∧ (encAt .fetch 0 0 0 0 (ein 0x441)).ein.inValid = true ∧
      (encAt .fetch 0 0 0 0 (ein 0x241)).ein.inValid = false ∧ (encAt .fetch 0 0 0 0 (ein 0x241)).ein.inEof = true ∧
      (encAt .fetch 0 0 0 0 (ein 0x141)).ein.inEof = false := by decide

/-- A step that R87 does not select, one that R88 does not select, a word outside RUN and an entry outside FETCH. -/
theorem witness_UnselectedStepsAreRefused :
    selectDec (decOn 0x100041 true (din 0x00)).decView ≠ .symOut ∧
      selectEnc (encAt .shift 0x41 0 0 0 (ein 0)).encView ≠ .shiftBit ∧
      ¬ ((decAt .idle 0 false 0 (din 0)).din.rst = false ∧ (decAt .idle 0 false 0 (din 0)).dec.dstate = .run) ∧
      ¬ (encAt .idle 0 0 0 0 (ein 0)).encIn .fetch := by decide

theorem witness_StepRunsTheSelectedStep :
    (onDec 0x09 (decAt .run 0 false 0 DecPins.low)).nextEvent = .decClock (din 0x09) ∧
      Completes (step (onDec 0x09 (decAt .run 0 false 0 DecPins.low))) ∧
      (onEnc 0x100 (encAt .flush 0x100 0 0x58 5 EncPins.low)).nextEvent = .encClock (ein 0x100) ∧
      Completes (step (onEnc 0x100 (encAt .flush 0x100 0 0x58 5 EncPins.low))) := by decide

theorem witness_StepRunsTheDecodedWord :
    ((onDec 0x09 (decAt .run 0 false 0 DecPins.low)).nextEvent = .decClock (din 0x09) ∧ (din 0x09).rst = false ∧
      (onDec 0x09 (decAt .run 0 false 0 DecPins.low)).dec.dstate = .run) ∧
    ((onEnc 0x441 (encAt .fetch 0 0 0 0 EncPins.low)).nextEvent = .encClock (ein 0x441) ∧ (ein 0x441).rst = false ∧
      (onEnc 0x441 (encAt .fetch 0 0 0 0 EncPins.low)).enc.estate = .fetch ∧ (ein 0x441).inValid = true) ∧
    ((onEnc 0x200 (encAt .fetch 0 0 0 0 EncPins.low)).nextEvent = .encClock (ein 0x200) ∧ (ein 0x200).rst = false ∧
      (ein 0x200).inValid = false) := by decide

/-- A write in each of the states; the index 256 is the last that exists. -/
theorem witness_HostWritesOnlyAtRest :
    (((decAt .run 0 false 0 DecPins.low).before (.writeNode 1023 0)).nextEvent = .writeNode 1023 0 ∧
      ((decAt .run 0 false 0 DecPins.low).before (.writeNode 1023 0)).dec.dstate = .run) ∧
    ((decAt .done 0 false 1 DecPins.low).before (.writeNode 1023 0)).dec.dstate ≠ .run ∧
    (((encAt .idle 0 0 0 0 EncPins.low).before (.writeCode 257 0)).nextEvent = .writeCode 257 0 ∧
      256 < (257 : Val).toNat) ∧
    ((256 : Val).toNat ≤ 256 ∧ ((encAt .shift 0 1 0 0 EncPins.low).before (.writeCode 256 0)).encBusy = true) ∧
    ((encAt .done 0 0 0 0 EncPins.low).before (.writeCode 256 0)).encBusy = false := by decide +kernel

/-- The invariant holds of a decoder inside `T1`. -/
theorem inv_decAt_run : (decAt .run 2 true 0 DecPins.low).Inv :=
  ⟨by decide, by decide, by decide, by decide, by decide, by decide, by decide, by decide, by decide, by decide, by decide,
   by decide, by decide, by decide⟩

/-- The invariant holds of a decoder that stopped in `T1` with TRUNCATED. -/
theorem inv_decAt_done : (decAt .done 2 true 3 DecPins.low).Inv :=
  ⟨by decide, by decide, by decide, by decide, by decide, by decide, by decide, by decide, by decide, by decide, by decide,
   by decide, by decide, by decide⟩

/-- The invariant holds of an encoder with five bits pending. -/
theorem inv_encAt_flush : (encAt .flush 0x100 0 0x58 5 (ein 0x100)).Inv :=
  ⟨by decide, by decide, by decide, by decide, by decide, by decide, by decide, by decide, by decide, by decide, by decide,
   by decide, by decide, by decide⟩

/-- An encoder that met a byte its table does not have (P4). -/
def encFailed : State :=
  { State.reset with
    enc := { estate := .done, cur := 0x62, rem := 0, acc := 0x10, cnt := 4, estatus := 5, errSym := 0x78 }, codeMem := codes }

/-- The invariant holds of it. -/
theorem inv_encFailed : encFailed.Inv :=
  ⟨by decide, by decide, by decide, by decide, by decide, by decide, by decide, by decide, by decide, by decide, by decide,
   by decide, by decide, by decide⟩

/-- The invariant holds of an encoder with six bits pending and the longest code before it. -/
theorem inv_encAt_shift : (encAt .shift 0x100 256 0x40 6 (ein 0)).Inv :=
  ⟨by decide, by decide, by decide, by decide, by decide, by decide, by decide, by decide, by decide, by decide, by decide,
   by decide, by decide, by decide⟩

/-- Events change no part of the invariant. -/
theorem inv_before {s : State} (h : s.Inv) (ev : Event) : (s.before ev).Inv :=
  ⟨h.1, h.2, h.3, h.4, h.5, h.6, h.7, h.8, h.9, h.10, h.11, h.12, h.13, h.14⟩

theorem witness_FlushByteEmptiesTheWriter :
    (encAt .flush 0x100 0 0x58 5 (ein 0x100)).encIn .flush ∧ (encAt .flush 0x100 0 0x58 5 (ein 0x100)).enc.cnt ≠ 0 ∧
      (encAt .flush 0x100 0 0x58 5 (ein 0x100)).ein.outReady = true ∧ (encAt .flush 0x100 0 0x58 5 (ein 0x100)).Inv :=
  ⟨by decide, by decide, by decide, inv_encAt_flush⟩

theorem witness_EveryStepAnswers :
    ((decAt .done 2 true 3 DecPins.low).before (.writeNode 1023 0)).Inv ∧
      ((decAt .done 2 true 3 DecPins.low).before (.writeNode 1023 0)).nextEvent.allowed
        ((decAt .done 2 true 3 DecPins.low).before (.writeNode 1023 0)) ∧
      (encFailed.before (.writeCode 256 0)).Inv ∧
      (encFailed.before (.writeCode 256 0)).nextEvent.allowed
        (encFailed.before (.writeCode 256 0)) :=
  ⟨inv_before inv_decAt_done _, rfl, inv_before inv_encFailed _, ⟨by decide, rfl⟩⟩

theorem witness_DecodeInvertsEncode :
    (Instr.wordBad 0 257).wellFormed = true ∧ (Instr.wordBad 1 0).wellFormed = true ∧ (Instr.cCode 255 0).wellFormed = true ∧
      (Instr.cBad 257 0).wellFormed = true := by decide

theorem witness_StepKeepsInv :
    (onDec 0x08 (decAt .run 2 true 0 DecPins.low)).Inv ∧ (∃ t, step (onDec 0x08 (decAt .run 2 true 0 DecPins.low)) = .next t) ∧
      (onEnc 0x100 (encAt .flush 0x100 0 0x58 5 (ein 0x100))).Inv ∧
      ∃ t, step (onEnc 0x100 (encAt .flush 0x100 0 0x58 5 EncPins.low)) = .next t :=
  ⟨inv_before inv_decAt_run _, Completes.next (by decide), inv_before inv_encAt_flush _, Completes.next (by decide)⟩

/-- A status cleared by `start` in each block, and `OK` written in each. -/
theorem witness_StatusIsNeverSwallowed :
    ((onDec 0x10 (decAt .done 2 true 3 DecPins.low)).Inv ∧
      isNext (step (onDec 0x10 (decAt .done 2 true 3 DecPins.low))) (fun t => t.dec.dstatus != 3) = true) ∧
    ((onEnc 0x800 encFailed).Inv ∧
      isNext (step (onEnc 0x800 encFailed)) (fun t => t.enc.estatus != 5) = true) ∧
    isNext (step (onDec 0x00 (decAt .run 4 true 0 DecPins.low))) (fun t => t.dec.dstatus == 1) = true ∧
    ((onEnc 0x100 (encAt .flush 0x100 0 0x58 5 (ein 0x100))).Inv ∧
      isNext (step (onEnc 0x100 (encAt .flush 0x100 0 0x58 5 EncPins.low))) (fun t => t.enc.estatus == 1) = true) :=
  ⟨⟨inv_before inv_decAt_done _, by decide⟩, ⟨inv_before inv_encFailed _, by decide⟩, by decide, ⟨inv_before inv_encAt_flush _, by decide⟩⟩

/-- Two machines that agree on one block and not on the other. -/
theorem witness_BlocksAreIndependent :
    (Completes (step (onDec 0x09 (decAt .run 0 false 0 DecPins.low))) ∧
      Completes (step (onDec 0x09 { decAt .run 0 false 0 DecPins.low with enc := encFailed.enc })) ∧
      encFailed.enc ≠ (decAt .run 0 false 0 DecPins.low).enc) ∧
    (Completes (step (onEnc 0x100 (encAt .flush 0x100 0 0x58 5 EncPins.low))) ∧
      Completes (step (onEnc 0x100 { encAt .flush 0x100 0 0x58 5 EncPins.low with nodeMem := t1Image }))) := by decide

theorem witness_OneItemMovesPerDecoderStep :
    (din 0x09).rst = false ∧ (decAt .run 1 true 0 DecPins.low).dec.dstate = .run ∧
      Completes (step (onDec 0x09 (decAt .run 0 false 0 DecPins.low))) ∧
      Completes (step (onDec 0x09 (decAt .run 1 true 0 DecPins.low))) ∧
      Completes (step (onDec 0x00 (decAt .run 1 true 0 DecPins.low))) := by decide

theorem witness_HandshakeMovesAndHolds :
    ((din 0x0E).rst = false ∧ Completes (step (onDec 0x0E (decAt .run 1 true 0 DecPins.low))) ∧
      (onDec 0x0E (decAt .run 1 true 0 DecPins.low)).decOutValid = true ∧ (din 0x0E).outReady = false) ∧
    ((ein 0x600).rst = false ∧ Completes (step (onEnc 0x600 (encAt .shift 0x64 1 0x18 7 EncPins.low))) ∧
      (onEnc 0x600 (encAt .shift 0x64 1 0x18 7 EncPins.low)).encOutValid = true ∧ (ein 0x600).outReady = false) := by decide

/-- Each way of the statement, with another block's edge and a reset beside them. -/
theorem witness_NodeMovesInThreeWays :
    ((onEnc 0x100 (encAt .flush 0x100 0 0x58 5 EncPins.low)).nextEvent ≠ .decClock DecPins.low ∧
      Completes (step (onEnc 0x100 (encAt .flush 0x100 0 0x58 5 EncPins.low)))) ∧
    ((din 0x20).rst = true ∧ Completes (step (onDec 0x20 (decAt .run 2 true 0 DecPins.low)))) ∧
    ((decAt .run 0 false 0 DecPins.low).dec.dstate = .run ∧
      Completes (step (onDec 0x0A (decAt .run 0 false 0 DecPins.low)))) ∧
    ((decAt .done 4 true 1 DecPins.low).dec.dstate ≠ .run ∧
      Completes (step (onDec 0x10 (decAt .done 4 true 1 DecPins.low))) ∧
      Completes (step (onDec 0x0F (decAt .done 4 true 1 DecPins.low)))) := by decide

theorem witness_ConditionChangesOnlyItsCode :
    ((decAt .run 2 true 0 DecPins.low).dec.dstate ≠ .done ∧
      isNext (step (onDec 0x04 (decAt .run 2 true 0 DecPins.low)))
        (fun t => t.dec.dstate == .done && t.dec.dstatus != 1) = true) ∧
    ((encAt .fetch 0x62 0 0x10 4 EncPins.low).enc.estate ≠ .done ∧
      isNext (step (onEnc 0x478 (encAt .fetch 0x62 0 0x10 4 EncPins.low)))
        (fun t => t.enc.estate == .done && t.enc.estatus != 1) = true) := by decide +kernel

theorem witness_DoneIsLeftOnlyByStartOrReset :
    ((decAt .done 4 true 1 DecPins.low).dec.dstate = .done ∧
      Completes (step (onDec 0x0F (decAt .done 4 true 1 DecPins.low))) ∧
      Completes (step (onDec 0x10 (decAt .done 4 true 1 DecPins.low))) ∧
      Completes (step (onDec 0x30 (decAt .done 4 true 1 DecPins.low)))) ∧
    (encFailed.enc.estate = .done ∧ Completes (step (onEnc 0x7FF encFailed)) ∧
      Completes (step (onEnc 0x800 encFailed)) ∧
      Completes (step (onEnc 0x1800 encFailed))) := by decide

theorem witness_StartWhileBusyIsIgnored :
    ((decAt .run 0 false 0 DecPins.low).decBusy = true ∧
      Completes (step (onDec 0x08 (decAt .run 0 false 0 DecPins.low))) ∧
      Completes (step (onDec 0x18 (decAt .run 0 false 0 DecPins.low)))) ∧
    ((encAt .flush 0x100 0 0x58 5 EncPins.low).encBusy = true ∧
      Completes (step (onEnc 0x100 (encAt .flush 0x100 0 0x58 5 EncPins.low))) ∧
      Completes (step (onEnc 0x900 (encAt .flush 0x100 0 0x58 5 EncPins.low)))) := by decide

/-- A bit taken on a node that is its own child: no register changes, an item moves (V-D17). -/
theorem witness_EdgesMakeProgress :
    ((din 0x08).rst = false ∧ Completes (step (onDec 0x08 (decOn 0x000000 true DecPins.low))) ∧
      selectDec ((onDec 0x08 (decOn 0x000000 true DecPins.low)).driveDec (din 0x08)).decView = .intB0) ∧
    ((ein 0).rst = false ∧ Completes (step (onEnc 0 (encAt .flush 0x100 0 0 0 EncPins.low))) ∧
      selectEnc ((onEnc 0 (encAt .flush 0x100 0 0 0 EncPins.low)).driveEnc (ein 0)).encView = .flushNone) := by decide

theorem witness_TreeBounds : t1.DistinctLeaves := by decide

theorem witness_BuildImageIsAnImage :
    buildImage t1 = some t1Image ∧ ((2, 0x000C04) : Nat × NodeWord) ∈ t1Image ∧ leafFlag 0x000C04 = false ∧
      State.reset.decAtRest ∧ (decAt .done 4 true 1 DecPins.low).decAtRest := by decide +kernel

/-- A tree with distinct leaf values and one with the sentinel twice. -/
theorem witness_BuildTableRecordsTheCodes :
    t1.DistinctLeaves ∧ ¬ (Tree.internal (.leaf .eos) (.leaf .eos)).DistinctLeaves := by decide

/-- A table with codes of 0 and of 256 bits, and without the sentinel. -/
theorem witness_BuildCodeMemHoldsTheTable :
    (buildCodeMem [(.sym 0, []), (.sym 255, List.replicate 256 true)]).isSome = true ∧ State.reset.encAtRest ∧
      CodeTable.find [(.sym 0, []), (.sym 255, List.replicate 256 true)] (.sym 0) = some [] ∧
      CodeTable.find [(.sym 0, []), (.sym 255, List.replicate 256 true)] .eos = none := by decide +kernel

/-- `T1` is an image of `t1` in a machine that holds it. -/
theorem image_t1 : Image (decAt .run 0 false 0 DecPins.low).nodes t1 := by
  refine ⟨?_, ?_, ?_, ?_, ?_⟩ <;> show _ = _ <;> decide +kernel

/-- A decoder at the root of `T1`. -/
theorem onImage_root : (onDec 0x08 (decAt .run 0 false 0 DecPins.low)).OnImage t1 :=
  ⟨image_t1, by decide, fun _ => .inl ⟨rfl, rfl⟩⟩

/-- A decoder at node 2 of `T1`. -/
theorem onImage_inside : (onDec 0x08 (decAt .run 2 true 0 DecPins.low)).OnImage t1 :=
  ⟨image_t1, by decide,
   fun _ => .inr ⟨rfl, .internal (.leaf (.sym 0x42)) (.leaf .eos), .inr (.inl rfl), image_t1.2.2⟩⟩

theorem witness_WellFormedImageIsWalked :
    (Image ((decAt .done 4 true 1 DecPins.low).before (.decClock DecPins.low)).nodes t1 ∧
      Completes (exec .decStart (decAt .done 4 true 1 (din 0x10)))) ∧
    ((onDec 0x08 (decAt .run 2 true 0 DecPins.low)).OnImage t1 ∧ (onDec 0x08 (decAt .run 2 true 0 DecPins.low)).clocked ∧
      ∃ t, step (onDec 0x08 (decAt .run 2 true 0 DecPins.low)) = .next t) ∧
    ((onDec 0x08 (decAt .run 0 false 0 DecPins.low)).OnImage t1 ∧
      (onDec 0x08 (decAt .run 0 false 0 DecPins.low)).dec.dstate = .run) :=
  ⟨⟨image_t1, by decide⟩, ⟨onImage_inside, .inl ⟨_, rfl⟩, Completes.next (by decide)⟩, ⟨onImage_root, rfl⟩⟩

/-- A root that is the sentinel (V-D10), and a root that is a byte, with the sink ready and not (V-D11). -/
theorem witness_RootLeafRuns :
    ((decOn 0x100100 false DecPins.low).dec.dstate = .run ∧ (decOn 0x100100 false DecPins.low).dec.node = 0 ∧
      (decOn 0x100100 false DecPins.low).nodeAt 0 = 0x100100 ∧
      Completes (step (onDec 0x00 (decOn 0x100100 false DecPins.low)))) ∧
    ((decOn 0x100041 false DecPins.low).nodeAt 0 = leafWord (.sym 0x41) ∧
      Completes (step (onDec 0x01 (decOn 0x100041 false DecPins.low))) ∧
      Completes (step (onDec 0x00 (decOn 0x100041 false DecPins.low)))) := by decide

/-- The last bit of the last byte of two. -/
theorem witness_UnpackOfPackPadsWithZeros :
    1 < ([0x58, 0xAB] : List Byte).length ∧ 7 < 8 ∧ 0 < (([true] : List Bool).length + 7) / 8 := by decide

/-- An environment that never stalls is fair. -/
theorem never_fair : Stalls.never.Fair := ⟨fun n => ⟨n, Nat.le_refl n, rfl⟩, fun n => ⟨n, Nat.le_refl n, rfl⟩⟩

/-- An environment that answers in every second step only is fair. -/
theorem every_second_fair : Stalls.Fair { answers := fun n => n % 2 == 0, ready := fun n => n % 2 == 0 } := by
  constructor <;> intro n <;> refine ⟨2 * n, by omega, ?_⟩ <;> simp

/-- A tree that is one byte symbol never ends a run (R144). -/
theorem root_symbol_never_ends (b : Byte) (bits : List Bool) : ¬ ∃ r, DecodesTo (.leaf (.sym b)) bits r := by
  rintro ⟨r, fuel, h⟩
  have : ∀ (n : Nat) (out : List Byte), decodeAll n (.leaf (.sym b)) bits out ≠ some r := by
    intro n
    induction n with
    | zero => intro out hh; cases hh
    | succ n ih => intro out hh; exact ih (out ++ [b]) hh
  exact this fuel [] h

theorem witness_DecoderRefinesDecodeAll :
    ((decAt .done 4 true 1 DecPins.low).before (.decClock DecPins.low)).decAtRest ∧
      Image ((decAt .done 4 true 1 DecPins.low).before (.decClock DecPins.low)).nodes t1 ∧ Stalls.never.Fair ∧
      DecodesTo t1 (unpack [0x58]) { out := [0x41, 0x42], status := 1, rest := [false, false, false] } ∧
      Image (State.setDec DecRegs.reset (decOn 0x100041 false DecPins.low)).nodes (.leaf (.sym 0x41)) ∧
      ¬ ∃ r, DecodesTo (.leaf (.sym 0x41)) [] r :=
  ⟨by decide, image_t1, never_fair, ⟨3, test_decodeAll⟩, by show _ = _; decide, root_symbol_never_ends _ _⟩

theorem witness_EncoderRefinesEncodeAll :
    (encAt .idle 0 0 0 0 EncPins.low).encAtRest ∧ encFailed.encAtRest ∧
      Stalls.Fair { answers := fun n => n % 2 == 0, ready := fun n => n % 2 == 0 } :=
  ⟨by decide, by decide, every_second_fair⟩

/-! ### A tree format, to meet the contract of R117 and R118 -/

/-- A writer: 0 and the two sub-trees, 1 and the byte, or 2. -/
def writeTree : Tree → List Byte
  | .leaf (.sym b) => [1, b]
  | .leaf .eos => [2]
  | .internal l r => 0 :: (writeTree l ++ writeTree r)

/-- A reader of what `writeTree` writes, for trees of at most `fuel` levels. -/
def readTree : Nat → List Byte → Option (Tree × List Byte)
  | 0, _ => none
  | _ + 1, [] => none
  | fuel + 1, c :: rest =>
    if c = 0 then
      match readTree fuel rest with
      | none => none
      | some (l, rest1) =>
        match readTree fuel rest1 with
        | none => none
        | some (r, rest2) => some (.internal l r, rest2)
    else if c = 1 then rest.head?.map (fun b => (.leaf (.sym b), rest.tail))
    else if c = 2 then some (.leaf .eos, rest)
    else none

/-- Levels of a tree. -/
def levels : Tree → Nat
  | .leaf _ => 1
  | .internal l r => 1 + max (levels l) (levels r)

/-- The reader reads what the writer wrote. -/
theorem readTree_writeTree (t : Tree) : ∀ (fuel : Nat) (rest : List Byte), levels t ≤ fuel →
    readTree fuel (writeTree t ++ rest) = some (t, rest) := by
  induction t with
  | leaf v =>
    intro fuel rest h
    cases fuel with
    | zero => simp [levels] at h
    | succ n => cases v <;> rfl
  | internal l r ihl ihr =>
    intro fuel rest h
    cases fuel with
    | zero => simp [levels] at h
    | succ n =>
      have h' : 1 + max (levels l) (levels r) ≤ n + 1 := h
      have hl : levels l ≤ n := by omega
      have hr : levels r ≤ n := by omega
      simp only [writeTree, List.cons_append, List.append_assoc, readTree, if_true, ihl n _ hl, ihr n _ hr]

/-- A tree has no more levels than bytes written. -/
theorem levels_le_length (t : Tree) : levels t ≤ (writeTree t).length := by
  induction t with
  | leaf v => cases v <;> simp [levels, writeTree]
  | internal l r ihl ihr => simp only [levels, writeTree, List.length_cons, List.length_append]; omega

/-- What the reader reads is what the writer writes, and it stops immediately after it. -/
theorem readTree_sound : ∀ (fuel : Nat) (bytes : List Byte) (t : Tree) (rest : List Byte),
    readTree fuel bytes = some (t, rest) → bytes = writeTree t ++ rest := by
  intro fuel
  induction fuel with
  | zero => intro bytes t rest h; cases h
  | succ fuel ih =>
    intro bytes t rest h
    cases bytes with
    | nil => cases h
    | cons c tail =>
      rw [readTree] at h
      split_ifs at h with h0 h1 h2
      · split at h
        · cases h
        · rename_i l rest1 hl
          split at h
          · cases h
          · rename_i r rest2 hr
            cases h
            rw [ih _ _ _ hl, ih _ _ _ hr, h0]
            simp [writeTree]
      · cases tail with
        | nil => cases h
        | cons b tail => cases h; rw [h1]; rfl
      · cases h; rw [h2]; rfl

/-- A tree format that keeps the contract. -/
def someFormat : TreeFormat :=
  { describes := fun d t => d = writeTree t
    write := writeTree
    read := fun bytes =>
      match readTree bytes.length bytes with
      | some (t, rest) => .tree t rest
      | none => .malformed }

theorem someFormat_contract : someFormat.Contract := by
  refine ⟨fun _ => rfl, ?_, ?_⟩
  · rintro _ t rest rfl
    have h := readTree_writeTree t (writeTree t ++ rest).length rest
      (by have := levels_le_length t; rw [List.length_append]; omega)
    simp only [someFormat, h]
  · intro bytes h
    cases hr : readTree bytes.length bytes with
    | none => simp only [someFormat, hr, or_true]
    | some p => exact absurd (readTree_sound _ _ p.1 p.2 hr) (h _ _ _ rfl)

/-! ### The host's source and output -/

/-- A container: the description of `t1` in `someFormat`, then the payload 58H of the bytes 41H 42H (95_test_vectors.md V-E3). -/
def someContainer : List Byte := writeTree t1 ++ [0x58]

/-- Step 5 of R202 and step 4 of R203: exhaustion once shown is held in a step in which the source would stall. -/
theorem test_exhaustion_is_held :
    (sourcePinsDec { answers := fun _ => false, ready := fun _ => true } 7
      { src := [], shown := true, state := State.reset }).bitEof = true ∧
    (sourcePinsEnc { answers := fun _ => false, ready := fun _ => true } 7
      { src := [], shown := true, state := State.reset }).inEof = true := by decide

/-- R202: a write of the tree description that fails makes compress fail, and the encoder does not start. -/
theorem test_compress_write_fails :
    compress someFormat { takes := fun i => i != 1 } Stalls.never 40 t1 [0x41, 0x42] State.reset =
      { ending := .writeFailed, output := [0] } := by decide

/-- R165: a tree with a repeated leaf value fails, with the description written and no payload. -/
theorem test_compress_duplicate_leaf :
    compress someFormat { takes := fun _ => true } Stalls.never 40 (.internal (.leaf .eos) (.leaf .eos)) [] State.reset =
      { ending := .duplicateLeaf .eos, output := [0, 2, 2] } := by decide +kernel

/-- R118: a description cut off before its end gives no tree, and decompress neither starts nor writes. -/
theorem test_decompress_cut_off :
    decompress someFormat { takes := fun _ => true } true Stalls.never 40 ((writeTree t1).take 4) State.reset =
      { ending := .malformed, output := [] } := by decide +kernel

/-- R210: a write of the second byte that fails makes decompress fail with the first written (V-D3); an output that cannot be
finalized makes it fail with both written (R203 step 7). -/
theorem test_decompress_write_fails :
    decompress someFormat { takes := fun i => i != 1 } true Stalls.never 12 someContainer State.reset =
      { ending := .writeFailed, output := [0x41] } ∧
    decompress someFormat { takes := fun _ => true, finalizes := false } true Stalls.never 12 someContainer State.reset =
      { ending := .finalizeFailed, output := [0x41, 0x42] } := by decide +kernel

/-- The hypotheses of the round trip, with an output that takes every byte and outputs that fail within the container and within
the data. -/
theorem witness_CompressThenDecompressIsIdentity :
    someFormat.Contract ∧ t1.DistinctLeaves ∧ t1.HasEos ∧ t1.Covers [0x41, 0x42] ∧
      (encAt .idle 0 0 0 0 EncPins.low).encAtRest ∧ State.reset.decAtRest ∧ Stalls.never.Fair ∧
      (∀ i, i < someContainer.length → ({ takes := fun _ => true } : OutputStream).takes i = true) ∧
      (7 < someContainer.length ∧ ({ takes := fun i => i != 7 } : OutputStream).takes 7 = false ∧
        ∀ i, i < 7 → ({ takes := fun i => i != 7 } : OutputStream).takes i = true) ∧
      (∀ i, i < ([0x41, 0x42] : List Byte).length →
        ({ takes := fun _ => true, finalizes := false } : OutputStream).takes i = true) ∧
      (1 < ([0x41, 0x42] : List Byte).length ∧ ({ takes := fun i => i != 1 } : OutputStream).takes 1 = false ∧
        ∀ i, i < 1 → ({ takes := fun i => i != 1 } : OutputStream).takes i = true) :=
  ⟨someFormat_contract, by decide, by decide, by decide, by decide, by decide, never_fair, fun _ _ => rfl,
    ⟨by decide, by decide, by decide⟩, fun _ _ => rfl, by decide, by decide, by decide⟩

end Sys2Proof.Tests
end

section
/-! PROOF of O42. Two states agree on a block when they agree on its registers, its streams, the memory it reads and its pins.
Every operation of a block keeps that agreement, hence so does every move of R87 and R88: agreeing states select the same move.
The frame half reads off `DecMove.frame` and `EncMove.frame`. -/

namespace Sys2Proof.Machine

/-! ## What a clock edge that answers has done -/

/-- A decoder edge that answers has made the decoder move R87 selects. -/
theorem decMove_of_step {s t : State} {p : DecPins} (hev : s.nextEvent = .decClock p) (h : step s = .next t) :
    DecMove (s.advance.driveDec p) (selectDec (s.advance.driveDec p).decView) t := by
  obtain ⟨u, hu, hm⟩ := exec_selectDec (s.advance.driveDec p)
  rw [step_decClock hev, hu] at h
  cases h
  exact hm

/-- An encoder edge that answers has made the encoder move R88 selects. -/
theorem encMove_of_step {s t : State} {p : EncPins} (hev : s.nextEvent = .encClock p) (h : step s = .next t) :
    EncMove (s.advance.driveEnc p) (selectEnc (s.advance.driveEnc p).encView) (.next t) := by
  rw [← h, step_encClock hev]
  exact exec_selectEnc _

/-- What `NODE` reads as depends on the words written alone. -/
theorem State.nodeAt_congr {s t : State} (h : t.nodeMem = s.nodeMem) (a : NodeAddr) : t.nodeAt a = s.nodeAt a := by
  simp only [State.nodeAt, h]

/-- What `CODE` reads as depends on the entries written alone. -/
theorem State.codeAt_congr {s t : State} (h : t.codeMem = s.codeMem) (i : Val) : t.codeAt i = s.codeAt i := by
  simp only [State.codeAt, h]

/-! ## Agreement on the decoder -/

/-- The two states agree on the decoder: registers, streams, `NODE` and pins. -/
structure SameDec (s s' : State) : Prop where
  dec : s.dec = s'.dec
  bitsIn : s.bitsIn = s'.bitsIn
  decOut : s.decOut = s'.decOut
  nodeAt : ∀ a, s.nodeAt a = s'.nodeAt a
  din : s.din = s'.din

/-! The node word, the view of R87 and each operation of the decoder, under the agreement. -/

namespace SameDec

variable {s s' : State} (h : SameDec s s')
include h

theorem nodeWord : s.nodeWord = s'.nodeWord := by
  simp only [State.nodeWord, h.dec, h.nodeAt]

theorem decView : s.decView = s'.decView := by
  simp only [State.decView, h.dec, h.nodeWord, h.din]

theorem setDec {d d' : DecRegs} (hd : d = d') : SameDec (s.setDec d) (s'.setDec d') := { h with dec := hd }

theorem takeBit (b : Bool) : SameDec (s.takeBit b) (s'.takeBit b) :=
  { h with bitsIn := congrArg (· ++ [b]) h.bitsIn }

theorem putDecByte (v : Byte) : SameDec (s.putDecByte v) (s'.putDecByte v) :=
  { h with decOut := congrArg (· ++ [v]) h.decOut }

theorem endDec (code : StatusCode) : SameDec (s.endDec code) (s'.endDec code) := h.setDec (by rw [h.dec])

theorem startDec : SameDec s.startDec s'.startDec := h.setDec rfl

theorem goChild (a : NodeAddr) : SameDec (s.goChild a) (s'.goChild a) := h.setDec (by rw [h.dec])

theorem goRoot : SameDec s.goRoot s'.goRoot := h.setDec (by rw [h.dec])

end SameDec

/-- A move of the decoder keeps the agreement on it. -/
theorem DecMove.same {s s' t t' : State} {i : Instr} (h : SameDec s s') (hm : DecMove s i t) (hm' : DecMove s' i t') :
    SameDec t t' := by
  cases hm with
  | reset => cases hm'; exact h.setDec rfl
  | start => cases hm'; exact h.startDec
  | hold => cases hm'; exact h
  | bit0 => cases hm'; rw [h.nodeWord]; exact (h.takeBit false).goChild _
  | bit1 => cases hm'; rw [h.nodeWord]; exact (h.takeBit true).goChild _
  | end0 => cases hm'; exact h.endDec _
  | end1 => cases hm'; exact h.endDec _
  | intWait => cases hm'; exact h
  | symOut => cases hm'; rw [h.nodeWord]; exact (h.putDecByte _).goRoot
  | symWait => cases hm'; exact h
  | eos => cases hm'; exact h.endDec _
  | bad => cases hm'; exact h.endDec _

/-- Decoder edges on the same pins keep the agreement on the decoder. -/
theorem sameDec_of_steps {s s' t t' : State} {p : DecPins} (hev : s.nextEvent = .decClock p)
    (hev' : s'.nextEvent = .decClock p) (h : SameDec (s.advance.driveDec p) (s'.advance.driveDec p))
    (hs : step s = .next t) (hs' : step s' = .next t') :
    SameDec t t' :=
  DecMove.same h (decMove_of_step hev hs) (h.decView ▸ decMove_of_step hev' hs')

/-! ## Agreement on the encoder -/

/-- The two states agree on the encoder: registers, streams, `CODE` and pins. -/
structure SameEnc (s s' : State) : Prop where
  enc : s.enc = s'.enc
  symsIn : s.symsIn = s'.symsIn
  encOut : s.encOut = s'.encOut
  codeAt : ∀ i, s.codeAt i = s'.codeAt i
  ein : s.ein = s'.ein

/-! The next code bit, the view of R88 and each operation of the encoder, under the agreement. -/

namespace SameEnc

variable {s s' : State} (h : SameEnc s s')
include h

theorem nextBit : s.nextBit = s'.nextBit := by
  simp only [State.nextBit, h.enc, h.codeAt]

theorem encView : s.encView = s'.encView := by
  simp only [State.encView, h.enc, h.codeAt, h.ein]

theorem setEnc {e e' : EncRegs} (he : e = e') : SameEnc (s.setEnc e) (s'.setEnc e') := { h with enc := he }

theorem takeSym (v : Byte) : SameEnc (s.takeSym v) (s'.takeSym v) :=
  { h with symsIn := congrArg (· ++ [v]) h.symsIn }

theorem putEncByte (v : Byte) : SameEnc (s.putEncByte v) (s'.putEncByte v) :=
  { h with encOut := congrArg (· ++ [v]) h.encOut }

theorem raiseEnc (code : StatusCode) (v : Val) : SameEnc (s.raiseEnc code v) (s'.raiseEnc code v) :=
  h.setEnc (by rw [h.enc])

theorem endEnc (code : StatusCode) : SameEnc (s.endEnc code) (s'.endEnc code) := h.setEnc (by rw [h.enc])

theorem startEnc : SameEnc s.startEnc s'.startEnc := h.setEnc rfl

theorem loadCode (v : Val) (len : Len) : SameEnc (s.loadCode v len) (s'.loadCode v len) := h.setEnc (by rw [h.enc])

theorem goEnc (st : EState) : SameEnc (s.goEnc st) (s'.goEnc st) := h.setEnc (by rw [h.enc])

theorem pushBit (b : Bool) : SameEnc (s.pushBit b) (s'.pushBit b) := h.setEnc (by rw [h.enc])

theorem byteDone : SameEnc s.byteDone s'.byteDone := h.setEnc (by rw [h.enc])

theorem clearWriter : SameEnc s.clearWriter s'.clearWriter := h.setEnc (by rw [h.enc])

end SameEnc

/-- A move of the encoder that answers keeps the agreement on it. -/
theorem EncMove.same {s s' t t' : State} {i : Instr} {o o' : Host.Outcome State Fault Refusal} (h : SameEnc s s')
    (hm : EncMove s i o) (hm' : EncMove s' i o') (ho : o = .next t) (ho' : o' = .next t') : SameEnc t t' := by
  cases hm <;> cases hm'
  case shiftBit.shiftBit =>
    obtain ⟨-, -, rfl⟩ := withBit_next ho
    obtain ⟨-, -, rfl⟩ := withBit_next ho'
    rw [h.nextBit]
    exact h.pushBit _
  case shiftByte.shiftByte =>
    obtain ⟨-, -, rfl⟩ := withBit_next ho
    obtain ⟨-, -, rfl⟩ := withBit_next ho'
    rw [h.nextBit, h.enc]
    exact (h.putEncByte _).byteDone
  all_goals cases ho; cases ho'
  case reset.reset => exact h.setEnc rfl
  case start.start => exact h.startEnc
  case symOk.symOk => rw [h.ein, h.codeAt]; exact (h.takeSym _).loadCode _ _
  case symMissing.symMissing => rw [h.ein]; exact (h.takeSym _).raiseEnc _ _
  case symBadlen.symBadlen => rw [h.ein]; exact (h.takeSym _).raiseEnc _ _
  case endOk.endOk => rw [h.codeAt]; exact h.loadCode _ _
  case endMissing.endMissing => exact h.raiseEnc _ _
  case endBadlen.endBadlen => exact h.raiseEnc _ _
  case shiftNext.shiftNext => exact h.goEnc _
  case shiftLast.shiftLast => exact h.goEnc _
  case flushByte.flushByte => rw [h.enc]; exact ((h.putEncByte _).clearWriter).endEnc _
  case flushNone.flushNone => exact h.endEnc _
  -- HOLD and the three waits write nothing.
  all_goals exact h

/-- Encoder edges on the same pins keep the agreement on the encoder. -/
theorem sameEnc_of_steps {s s' t t' : State} {p : EncPins} (hev : s.nextEvent = .encClock p)
    (hev' : s'.nextEvent = .encClock p) (h : SameEnc (s.advance.driveEnc p) (s'.advance.driveEnc p))
    (hs : step s = .next t) (hs' : step s' = .next t') :
    SameEnc t t' :=
  EncMove.same h (encMove_of_step hev hs) (h.encView ▸ encMove_of_step hev' hs') rfl rfl

/-- Settles O42: the frames of the moves, and the agreement every move keeps. -/
theorem blocksAreIndependent : Obligations.BlocksAreIndependent := by
  unfold Obligations.BlocksAreIndependent
  refine ⟨?decFrame, ?encFrame, ?decAlone, ?encAlone⟩
  case decFrame =>
    intro s t p hev h
    obtain ⟨henc, hnodes, hcodes, -, hein, hsyms, hout, -, -⟩ := (decMove_of_step hev h).frame
    exact ⟨henc, hein, hsyms, hout, State.nodeAt_congr hnodes, State.codeAt_congr hcodes⟩
  case encFrame =>
    intro s t p hev h
    obtain ⟨hdec, hnodes, hcodes, hdin, -, hbits, hout, -, -⟩ := (encMove_of_step hev h).frame rfl
    exact ⟨hdec, hdin, hbits, hout, State.nodeAt_congr hnodes, State.codeAt_congr hcodes⟩
  case decAlone =>
    intro s s' t t' p hev hev' hdec hbits hout hnodes hs hs'
    have same := sameDec_of_steps hev hev' ⟨hdec, hbits, hout, hnodes, rfl⟩ hs hs'
    exact ⟨same.dec, same.bitsIn, same.decOut⟩
  case encAlone =>
    intro s s' t t' p hev hev' henc hsyms hout hcodes hs hs'
    have same := sameEnc_of_steps hev hev' ⟨henc, hsyms, hout, hcodes, rfl⟩ hs hs'
    exact ⟨same.enc, same.symsIn, same.encOut⟩

end Sys2Proof.Machine
end

section
/-! PROOF of O45 and O1. The decoder's registers change on a decoder edge only, and there the move of R87 says where `node` goes.
The reset steps load the reset values whatever the state, and every output is a function of the registers alone under them. -/

namespace Sys2Proof.Machine

/-! ## Where `node` goes (R22) -/

/-- An event that is no decoder edge leaves the decoder's registers alone. -/
theorem dec_of_step_of_no_decClock {s t : State} (hev : ∀ p, s.nextEvent ≠ .decClock p) (h : step s = .next t) :
    t.dec = s.dec := by
  rcases step_next_cases h with
    ⟨p, -, hp, -⟩ | ⟨p, i, o, -, -, hm, ho⟩ | ⟨a, w, -, -, rfl⟩ | ⟨i, e, -, -, -, rfl⟩
  · exact absurd hp (hev p)
  · obtain ⟨hdec, -⟩ := hm.frame ho
    exact hdec
  · rfl
  · rfl

section DecMove

variable {s t : State} {i : Instr} (hm : DecMove s i t)
include hm

/-- Under reset the decoder loads its reset values. -/
theorem DecMove.dec_of_rst (hrst : s.din.rst = true) : t.dec = DecRegs.reset := by
  cases hm with
  | reset => rfl
  | _ hlow => simp [hrst] at hlow

/-- A move in RUN takes a bit and goes to a child, puts a byte out and goes to ROOT, or leaves `node` and `mid` alone. -/
theorem DecMove.node_of_run (hrst : s.din.rst = false) (hrun : s.dec.dstate = .run) :
    (t.bitsIn = s.bitsIn ++ [false] ∧ t.dec.node = leftOf s.nodeWord ∧ t.dec.mid = true) ∨
    (t.bitsIn = s.bitsIn ++ [true] ∧ t.dec.node = rightOf s.nodeWord ∧ t.dec.mid = true) ∨
    (t.bitsIn = s.bitsIn ∧ (∃ v, t.decOut = s.decOut ++ [v]) ∧ t.dec.node = Config.root ∧ t.dec.mid = false) ∨
    (t.bitsIn = s.bitsIn ∧ t.decOut = s.decOut ∧ t.dec.node = s.dec.node ∧ t.dec.mid = s.dec.mid) := by
  cases hm with
  | reset hhigh => simp [hrst] at hhigh
  | start _ hrest | hold _ hrest => simp [hrun] at hrest
  | bit0 => exact .inl ⟨rfl, rfl, rfl⟩
  | bit1 => exact .inr (.inl ⟨rfl, rfl, rfl⟩)
  | symOut => exact .inr (.inr (.inl ⟨rfl, ⟨_, rfl⟩, rfl, rfl⟩))
  | end0 | end1 | intWait | symWait | eos | bad => exact .inr (.inr (.inr ⟨rfl, rfl, rfl, rfl⟩))

/-- A move outside RUN is an accepted start, which goes to ROOT, or leaves `node` and `mid` alone. -/
theorem DecMove.node_of_not_run (hrst : s.din.rst = false) (hrest : s.dec.dstate ≠ .run) :
    (s.din.start = true ∧ t.dec.node = Config.root ∧ t.dec.mid = false) ∨
    (s.din.start = false ∧ t.dec.node = s.dec.node ∧ t.dec.mid = s.dec.mid) := by
  cases hm with
  | reset hhigh => simp [hrst] at hhigh
  | start _ _ hstart => exact .inl ⟨hstart, rfl, rfl⟩
  | hold _ _ hstart => exact .inr ⟨hstart, rfl, rfl⟩
  | _ _ hrun => exact absurd hrun hrest

end DecMove

/-- Settles O45: `node` is the decoder's own, and each move of R87 sends it one of the three ways. -/
theorem nodeMovesInThreeWays : Obligations.NodeMovesInThreeWays := by
  unfold Obligations.NodeMovesInThreeWays
  refine ⟨?otherEvents, ?reset, ?edge⟩
  case otherEvents =>
    intro s t hev h
    rw [dec_of_step_of_no_decClock hev h]
  case reset =>
    intro s t p hev hrst h
    rw [(decMove_of_step hev h).dec_of_rst hrst]
    rfl
  case edge =>
    intro s t p hev hrst h
    have hm := decMove_of_step hev h
    exact ⟨hm.node_of_run hrst, hm.node_of_not_run hrst⟩

/-! ## The reset values (R33) -/

/-- A decoder step whose effect is a state answers that state or nothing. -/
theorem eq_of_onDecLine_next {i : Instr} {s t u : State} (h : onDecLine i s (.next u) = .next t) : t = u := by
  obtain ⟨-, heffect⟩ := onDecLine_next.mp h
  exact (Host.Outcome.next.inj heffect).symm

/-- An encoder step whose effect is a state answers that state or nothing. -/
theorem eq_of_onEncLine_next {i : Instr} {s t u : State} (h : onEncLine i s (.next u) = .next t) : t = u := by
  obtain ⟨-, heffect⟩ := onEncLine_next.mp h
  exact (Host.Outcome.next.inj heffect).symm

/-- With the decoder's registers at their reset values its outputs are 0 (R25). -/
theorem decOutputs_of_reset {s : State} (h : s.dec = DecRegs.reset) :
    s.decBusy = false ∧ s.decDone = false ∧ s.decErr = false ∧ s.bitReady = false ∧ s.decOutValid = false ∧
      s.decStatus = 0 := by
  simp [State.decBusy, State.decDone, State.decErr, State.bitReady, State.decOutValid, State.decStatus, h,
    DecRegs.reset, stTruncated, stBadNode]

/-- With the encoder's registers at their reset values its outputs are 0 (R31). -/
theorem encOutputs_of_reset {s : State} (h : s.enc = EncRegs.reset) :
    s.encBusy = false ∧ s.encDone = false ∧ s.encErr = false ∧ s.inReady = false ∧ s.encOutValid = false ∧
      s.encStatus = 0 ∧ s.encErrSym = 0 := by
  simp [State.encBusy, State.encDone, State.encErr, State.inReady, State.encOutValid, State.shiftFull,
    State.flushFull, State.encStatus, State.encErrSym, h, EncRegs.reset, stUnencodable, stBadEntry]

/-- Settles O1: what the reset steps write, and the outputs of the registers they leave. -/
theorem resetLeavesTheResetValues : Obligations.ResetLeavesTheResetValues := by
  unfold Obligations.ResetLeavesTheResetValues
  refine ⟨rfl, rfl, ?resetSteps, ?outputs, ?runBegins⟩
  case resetSteps =>
    intro s t
    constructor <;> intro h
    · obtain rfl : t = s.setDec DecRegs.reset := eq_of_onDecLine_next h
      exact ⟨rfl, fun _ _ => ⟨rfl, rfl⟩⟩
    · obtain rfl : t = s.setEnc EncRegs.reset := eq_of_onEncLine_next h
      exact ⟨rfl, fun _ _ => ⟨rfl, rfl⟩⟩
  case outputs =>
    intro s hdec henc
    obtain ⟨hbusy, hdone, herr, hready, hvalid, hstatus⟩ := decOutputs_of_reset hdec
    exact ⟨hbusy, hdone, herr, hready, hvalid, hstatus, encOutputs_of_reset henc⟩
  case runBegins =>
    intro s t h
    obtain rfl : t = s.startDec := eq_of_onDecLine_next h
    rfl

end Sys2Proof.Machine
end

section
/-! PROOF of O55. Place `8k+j` of the unpacked bits is bit `7-j` of byte `k`, and bit `7-j` of the packed byte `k` is place `8k+j`
of the bits, so that `Unpack(Pack(x))` and `x` followed by zeros agree at every place. -/

namespace Sys2Proof.Machine

/-- The bits of a byte stand most significant first (R57). -/
theorem bitsOfByte_getElem? (b : Byte) {j : Nat} (hj : j < 8) : (bitsOfByte b)[j]? = some (b.getLsbD (7 - j)) := by
  interval_cases j <;> rfl

/-- The bits of a packed byte, one by one (R58). -/
theorem packByte_getLsbD (bits : List Bool) (k : Nat) {j : Nat} (hj : j < 8) :
    (packByte bits k).getLsbD (7 - j) = bits.getD (8 * k + j) false := by
  rw [packByte, BitVec.getLsbD_ofBoolListBE]
  interval_cases j <;> simp

theorem unpack_cons (b : Byte) (rest : List Byte) : unpack (b :: rest) = bitsOfByte b ++ unpack rest := rfl

/-- The bits of `Unpack`, one by one (R58). -/
theorem unpack_getElem? (bytes : List Byte) (k : Nat) {j : Nat} (hj : j < 8) :
    (unpack bytes)[8 * k + j]? = (bytes[k]?).map (fun b => b.getLsbD (7 - j)) := by
  induction bytes generalizing k with
  | nil => rfl
  | cons b rest ih =>
    have hlen : (bitsOfByte b).length = 8 := rfl
    rw [unpack_cons]
    cases k with
    | zero => rw [List.getElem?_append_left (by omega), Nat.mul_zero, Nat.zero_add, bitsOfByte_getElem? b hj]; rfl
    | succ k =>
      rw [List.getElem?_append_right (by omega), hlen, show 8 * (k + 1) + j - 8 = 8 * k + j by omega, ih k]
      rfl

/-- The bytes of `Pack`, one by one (R58). -/
theorem pack_getElem? (bits : List Bool) {k : Nat} (hk : k < (bits.length + 7) / 8) :
    (pack bits)[k]? = some (packByte bits k) := by
  simp [pack, hk]

/-- Every place of the packed bytes holds the bit of `x` there, or 0 past its end. -/
theorem unpack_pack_getElem? (x : List Bool) {i : Nat} (hi : i < 8 * ((x.length + 7) / 8)) :
    (unpack (pack x))[i]? = some (x.getD i false) := by
  have hj : i % 8 < 8 := Nat.mod_lt i (by omega)
  have hbyte := unpack_getElem? (pack x) (i / 8) hj
  rw [pack_getElem? x (by omega), Option.map_some, packByte_getLsbD x _ hj, Nat.div_add_mod] at hbyte
  exact hbyte

/-- So does every place of `x` followed by zeros. -/
theorem getElem?_append_zeros (x : List Bool) {p i : Nat} (hi : i < x.length + p) :
    (x ++ List.replicate p false)[i]? = some (x.getD i false) := by
  rcases Nat.lt_or_ge i x.length with h | h
  · rw [List.getElem?_append_left h, List.getD_eq_getElem _ _ h, List.getElem?_eq_getElem h]
  · rw [List.getElem?_append_right h, List.getD_eq_default _ _ h, List.getElem?_replicate_of_lt (by omega)]

/-- Unpacking what was packed fills the last byte with zeros (R58). -/
theorem unpack_pack (x : List Bool) :
    unpack (pack x) = x ++ List.replicate ((8 - x.length % 8) % 8) false := by
  have hbytes : x.length + (8 - x.length % 8) % 8 = 8 * ((x.length + 7) / 8) := by omega
  refine List.ext_getElem?' fun i hi => ?_
  rw [unpack_length, pack_length, List.length_append, List.length_replicate, hbytes, Nat.max_self] at hi
  rw [unpack_pack_getElem? x hi, getElem?_append_zeros x (by omega)]

/-- Settles O55: the bits of `Unpack` and of `Pack` one by one, and from the two the padding law. -/
theorem unpackOfPackPadsWithZeros : Obligations.UnpackOfPackPadsWithZeros := by
  unfold Obligations.UnpackOfPackPadsWithZeros
  refine ⟨rfl, ?unpackBits, ?packBits, fun x => ⟨pack_length x, unpack_pack x⟩⟩
  case unpackBits => exact fun bytes => ⟨unpack_length bytes, fun k j _ hj => unpack_getElem? bytes k hj⟩
  case packBits =>
    intro bits k j hk hj
    rw [pack_getElem? bits hk, Option.map_some, packByte_getLsbD bits k hj]

end Sys2Proof.Machine
end

section
/-! PROOF of O37, O38 and O33. Mask and match of an input vector are a test of each pin by itself. Under the conditions of a branch
of the selection every line's tests are then decided, and only the line of the step selected passes. -/

namespace Sys2Proof

/-! ## Mask and match of an input vector, pin by pin (R87, R88) -/

/-- The bits of a word written most significant first, counted from the least significant. -/
theorem getLsbD_ofBoolListBE_reverse (bs : List Bool) (i : Nat) :
    (BitVec.ofBoolListBE bs).getLsbD i = bs.reverse.getD i false := by
  rw [BitVec.getLsbD_ofBoolListBE]
  rcases Nat.lt_or_ge i bs.length with hi | hi
  · simp [hi, List.getElem?_eq_getElem (show bs.length - 1 - i < bs.length by omega)]
  · simp [hi]

/-- `DIN & mask == match` (R87): each pin under its mask bit is its match bit. -/
theorem DecPins.toVec_and_beq (p : DecPins) (m q : BitVec 6) :
    (p.toVec &&& m == q) = ((p.outReady && m.getLsbD 0) == q.getLsbD 0 && (p.bitData && m.getLsbD 1) == q.getLsbD 1 &&
      (p.bitEof && m.getLsbD 2) == q.getLsbD 2 && (p.bitValid && m.getLsbD 3) == q.getLsbD 3 &&
      (p.start && m.getLsbD 4) == q.getLsbD 4 && (p.rst && m.getLsbD 5) == q.getLsbD 5) := by
  rw [Bool.eq_iff_iff, beq_iff_eq, BitVec.eq_of_getLsbD_eq_iff, DecPins.toVec]
  simp only [Nat.forall_lt_succ_right, BitVec.getLsbD_and, getLsbD_ofBoolListBE_reverse]
  simp

/-- `EIN & mask == match` (R88): `in_data` under its part of the mask, and each other pin under its mask bit, are their match. -/
theorem EncPins.toVec_and_beq (p : EncPins) (m q : BitVec 13) :
    (p.toVec &&& m == q) = (p.inData &&& m.extractLsb' 0 8 == q.extractLsb' 0 8 &&
      (p.outReady && m.getLsbD 8) == q.getLsbD 8 && (p.inEof && m.getLsbD 9) == q.getLsbD 9 &&
      (p.inValid && m.getLsbD 10) == q.getLsbD 10 && (p.start && m.getLsbD 11) == q.getLsbD 11 &&
      (p.rst && m.getLsbD 12) == q.getLsbD 12) := by
  have hdata : p.inData &&& m.extractLsb' 0 8 = q.extractLsb' 0 8 ↔
      ∀ i < 8, (p.inData.getLsbD i && m.getLsbD i) = q.getLsbD i := by
    rw [BitVec.eq_of_getLsbD_eq_iff]
    simp +contextual
  rw [Bool.eq_iff_iff, beq_iff_eq, BitVec.eq_of_getLsbD_eq_iff, EncPins.toVec]
  simp only [Bool.and_eq_true, beq_iff_eq, hdata]
  simp only [Nat.forall_lt_succ_right, BitVec.getLsbD_and, BitVec.getLsbD_append, getLsbD_ofBoolListBE_reverse]
  simp

/-! ## The tables -/

/-- Settles O37, by the branches of `selectDec`: each fixes what the lines of R87 ask of the view. -/
theorem decoderTableIsTotal : Obligations.DecoderTableIsTotal := by
  unfold Obligations.DecoderTableIsTotal
  intro v
  fun_cases selectDec v
  -- Under reset the branch leaves the FSM state open, and line 1 names every one of them.
  case case1 hrst => cases hstate : v.dstate <;> simp [decLines, DecLine.applies, DecPins.toVec_and_beq, hrst, hstate]
  all_goals simp [decLines, DecLine.applies, DecPins.toVec_and_beq, *]

/-- Settles O38, by the branches of `selectEnc`: each fixes what the lines of R88 ask of the view. -/
theorem encoderTableIsTotal : Obligations.EncoderTableIsTotal := by
  unfold Obligations.EncoderTableIsTotal
  intro v
  fun_cases selectEnc v
  -- Under reset the branch leaves the FSM state open, and line 1 names every one of them.
  case case1 hrst =>
    cases hstate : v.estate <;> simp [encLines, EncLine.applies, EncCond.holds, EncPins.toVec_and_beq, hrst, hstate]
  all_goals simp_all [encLines, EncLine.applies, EncCond.holds, EncPins.toVec_and_beq]

/-- Settles O33: twelve closed decodings, evaluated; the kernel does so because an entry header is read out of 266 bits. -/
theorem specWordsDecode : Obligations.SpecWordsDecode := by
  unfold Obligations.SpecWordsDecode
  decide +kernel

end Sys2Proof
end

section
/-! PROOF of O3 to O12. A move of R87, and a move of R88, is selected under its own conditions, so exec answers it. What the decoder
asks for and offers in RUN is fixed by the kind of its node word, and outside RUN it asks for nothing and offers nothing. -/

namespace Sys2Proof.Machine

/-! ## A move is the step selected, and exec answers it -/

/-- The step of a decoder move is the one R87 selects. -/
theorem DecMove.selected {s t : State} {i : Instr} (hm : DecMove s i t) : selectDec s.decView = i := by
  cases hm with
  | start _ hrest | hold _ hrest => rcases hrest with h | h <;> simp [selectDec, State.decView, *]
  | _ => simp [selectDec, State.decView, *]

/-- On a decoder move exec answers the state the move goes to. -/
theorem DecMove.exec_eq {s t : State} {i : Instr} (hm : DecMove s i t) : exec i s = .next t := by
  have hsel := hm.selected
  cases hm <;> exact onDecLine_selected hsel

/-- The step of an encoder move is the one R88 selects. -/
theorem EncMove.selected {s : State} {i : Instr} {o : Host.Outcome State Fault Refusal} (hm : EncMove s i o) :
    selectEnc s.encView = i := by
  cases hm with
  | start _ hrest | hold _ hrest => rcases hrest with h | h <;> simp [selectEnc, State.encView, *]
  | symOk _ _ _ hk | symMissing _ _ _ hk | symBadlen _ _ _ hk =>
    rw [symIndex] at hk
    simp [selectEnc, State.encView, *]
  -- `simp_all` brings the numerals of the conditions and of the selection to one spelling.
  | _ => simp_all [selectEnc, State.encView]

/-- On an encoder move exec answers the outcome of the move. -/
theorem EncMove.exec_eq {s : State} {i : Instr} {o : Host.Outcome State Fault Refusal} (hm : EncMove s i o) :
    exec i s = o := by
  have hsel := hm.selected
  cases hm <;> exact onEncLine_selected hsel

/-- In RUN the selection does not look at `start` (R131). -/
theorem selectDec_start_of_run (v : DecView) (b : Bool) (hrun : v.dstate = .run) :
    selectDec { v with pins := { v.pins with start := b } } = selectDec v := by
  simp only [selectDec, hrun]

/-! ## The handshake outputs (R25, R31) -/

section Outputs

variable {s : State}

/-- The decoder asks for a bit in RUN exactly at an Internal node. -/
theorem State.bitReady_of_decRuns {k : NodeKind} (h : s.decRuns k) : s.bitReady = (k == .int) := by
  obtain ⟨-, hrun, hkind⟩ := h
  simp [State.bitReady, hrun, hkind]

/-- The decoder offers a byte in RUN exactly at a byte leaf. -/
theorem State.decOutValid_of_decRuns {k : NodeKind} (h : s.decRuns k) : s.decOutValid = (k == .sym) := by
  obtain ⟨-, hrun, hkind⟩ := h
  simp [State.decOutValid, hrun, hkind]

/-- The byte offered is that of the leaf. -/
theorem State.decOutData_of_valid (h : s.decOutValid = true) : s.decOutData = byteOf s.nodeWord := if_pos h

/-- At rest the decoder asks for no bit. -/
theorem State.bitReady_of_decAtRest (h : s.decAtRest) : s.bitReady = false := by
  rcases h with h | h <;> simp [State.bitReady, h]

/-- At rest the decoder offers no byte. -/
theorem State.decOutValid_of_decAtRest (h : s.decAtRest) : s.decOutValid = false := by
  rcases h with h | h <;> simp [State.decOutValid, h]

/-- At rest the encoder asks for no symbol. -/
theorem State.inReady_of_encAtRest (h : s.encAtRest) : s.inReady = false := by
  rcases h with h | h <;> simp [State.inReady, h]

/-- At rest the encoder offers no byte. -/
theorem State.encOutValid_of_encAtRest (h : s.encAtRest) : s.encOutValid = false := by
  rcases h with h | h <;> simp [State.encOutValid, State.shiftFull, State.flushFull, h]

end Outputs

/-! ## At rest -/

/-- Settles O3, by the move START, and in RUN by the selection. -/
theorem decStartBeginsARun : Obligations.DecStartBeginsARun := by
  unfold Obligations.DecStartBeginsARun
  refine ⟨?accepted, selectDec_start_of_run⟩
  case accepted =>
    intro s hrst hrest hstart
    exact ⟨(DecMove.start hrst hrest hstart).exec_eq, s.bitReady_of_decAtRest hrest, s.decOutValid_of_decAtRest hrest⟩

/-- Settles O4, by the move HOLD of each block. -/
theorem holdWritesNothing : Obligations.HoldWritesNothing := by
  unfold Obligations.HoldWritesNothing
  refine fun s => ⟨?decoder, ?encoder⟩
  case decoder =>
    intro hrst hrest hstart
    refine ⟨(DecMove.hold hrst hrest hstart).exec_eq, s.bitReady_of_decAtRest hrest, s.decOutValid_of_decAtRest hrest, ?_⟩
    exact fun hdone => ⟨beq_iff_eq.mpr hdone, rfl⟩
  case encoder =>
    intro hrst hrest hstart
    refine ⟨(EncMove.hold hrst hrest hstart).exec_eq, s.inReady_of_encAtRest hrest, s.encOutValid_of_encAtRest hrest, ?_⟩
    exact fun hdone => ⟨beq_iff_eq.mpr hdone, rfl, rfl⟩

/-! ## At an Internal node -/

/-- Settles O5, by the move INT.B0. -/
theorem intB0GoesLeft : Obligations.IntB0GoesLeft := by
  unfold Obligations.IntB0GoesLeft
  intro s hruns hvalid hbit
  have ⟨hrst, hrun, hint⟩ := hruns
  exact ⟨(DecMove.bit0 hrst hrun hint hvalid hbit).exec_eq, s.bitReady_of_decRuns hruns, s.decOutValid_of_decRuns hruns⟩

/-- Settles O6, by the move INT.B1. -/
theorem intB1GoesRight : Obligations.IntB1GoesRight := by
  unfold Obligations.IntB1GoesRight
  intro s hruns hvalid hbit
  have ⟨hrst, hrun, hint⟩ := hruns
  exact ⟨(DecMove.bit1 hrst hrun hint hvalid hbit).exec_eq, s.bitReady_of_decRuns hruns, s.decOutValid_of_decRuns hruns⟩

/-- Settles O7, by the move INT.END0. -/
theorem intEnd0ReportsEndNoEos : Obligations.IntEnd0ReportsEndNoEos := by
  unfold Obligations.IntEnd0ReportsEndNoEos
  intro s ⟨hrst, hrun, hint⟩ hvalid heof hmid
  exact ⟨_, (DecMove.end0 hrst hrun hint hvalid heof hmid).exec_eq, rfl, rfl⟩

/-- Settles O8, by the move INT.END1. -/
theorem intEnd1ReportsTruncated : Obligations.IntEnd1ReportsTruncated := by
  unfold Obligations.IntEnd1ReportsTruncated
  intro s ⟨hrst, hrun, hint⟩ hvalid heof hmid
  exact ⟨_, (DecMove.end1 hrst hrun hint hvalid heof hmid).exec_eq, rfl, rfl⟩

/-- Settles O9, by the moves INT.WAIT and SYM.WAIT. -/
theorem decoderWaitsWriteNothing : Obligations.DecoderWaitsWriteNothing := by
  unfold Obligations.DecoderWaitsWriteNothing
  refine fun s => ⟨?int, ?sym⟩
  case int =>
    intro hruns hvalid heof
    have ⟨hrst, hrun, hint⟩ := hruns
    exact ⟨(DecMove.intWait hrst hrun hint hvalid heof).exec_eq, s.bitReady_of_decRuns hruns⟩
  case sym =>
    intro hruns hready
    have ⟨hrst, hrun, hsym⟩ := hruns
    have hoffer : s.decOutValid = true := s.decOutValid_of_decRuns hruns
    exact ⟨(DecMove.symWait hrst hrun hsym hready).exec_eq, hoffer, s.decOutData_of_valid hoffer⟩

/-! ## At a leaf -/

/-- Settles O10, by the move SYM.OUT. -/
theorem symOutPutsOutTheByte : Obligations.SymOutPutsOutTheByte := by
  unfold Obligations.SymOutPutsOutTheByte
  intro s hruns hready
  have ⟨hrst, hrun, hsym⟩ := hruns
  have hoffer : s.decOutValid = true := s.decOutValid_of_decRuns hruns
  exact ⟨(DecMove.symOut hrst hrun hsym hready).exec_eq, hoffer, s.decOutData_of_valid hoffer, s.bitReady_of_decRuns hruns⟩

/-- Settles O11, by the move EOS: the word is the one R82 names. -/
theorem eosEndsTheRunWithOk : Obligations.EosEndsTheRunWithOk := by
  unfold Obligations.EosEndsTheRunWithOk
  intro s hrst hrun hword
  have heos : classify s.nodeWord = .eos := by rw [hword]; decide
  have hruns : s.decRuns .eos := ⟨hrst, hrun, heos⟩
  exact ⟨_, (DecMove.eos hrst hrun heos).exec_eq, rfl, rfl, s.decOutValid_of_decRuns hruns, s.bitReady_of_decRuns hruns⟩

/-- Settles O12, by the move BAD: the word is reserved by R82. -/
theorem badEndsTheRunWithBadNode : Obligations.BadEndsTheRunWithBadNode := by
  unfold Obligations.BadEndsTheRunWithBadNode
  intro s hrst hrun hleaf hreserved
  have hbad : classify s.nodeWord = .bad := classify_bad hleaf hreserved
  have hruns : s.decRuns .bad := ⟨hrst, hrun, hbad⟩
  exact ⟨_, (DecMove.bad hrst hrun hbad).exec_eq, rfl, rfl, s.decOutValid_of_decRuns hruns, s.bitReady_of_decRuns hruns⟩

end Sys2Proof.Machine
end

section
/-! PROOF of O13 to O24. What the encoder asks for and offers in a busy state is fixed by the FSM state, `rem` and `cnt`. exec answers
the move of R88 selected under its conditions, and a code bit written is the one on the wires. -/

namespace Sys2Proof.Machine

/-! ## The outputs in the busy states (R31) -/

section Outputs

variable {s : State}

/-- The encoder asks for a symbol exactly in FETCH. -/
theorem State.inReady_of_encIn {st : EState} (h : s.encIn st) : s.inReady = (st == .fetch) := by
  obtain ⟨-, hstate⟩ := h
  simp [State.inReady, hstate]

/-- In FETCH the encoder offers no byte. -/
theorem State.encOutValid_of_fetch (h : s.encIn .fetch) : s.encOutValid = false := by
  obtain ⟨-, hfetch⟩ := h
  simp [State.encOutValid, State.shiftFull, State.flushFull, hfetch]

/-- In SHIFT the encoder offers a byte exactly where a code bit is left and seven bits are pending. -/
theorem State.encOutValid_of_shift (h : s.encIn .shift) : s.encOutValid = (s.enc.rem != 0 && s.enc.cnt == 7) := by
  obtain ⟨-, hshift⟩ := h
  simp [State.encOutValid, State.shiftFull, State.flushFull, hshift]

/-- In FLUSH the encoder offers a byte exactly where bits are pending. -/
theorem State.encOutValid_of_flush (h : s.encIn .flush) : s.encOutValid = (s.enc.cnt != 0) := by
  obtain ⟨-, hflush⟩ := h
  simp [State.encOutValid, State.shiftFull, State.flushFull, hflush]

/-- A byte offered in SHIFT ends with the next code bit. -/
theorem State.encOut_of_shift (h : s.encIn .shift) (hrem : s.enc.rem ≠ 0) (hcnt : s.enc.cnt = 7) :
    s.encOutValid = true ∧ s.encOutData = accByte s.enc.acc s.nextBit := by
  obtain ⟨-, hshift⟩ := h
  have hfull : s.shiftFull = true := by simpa [State.shiftFull, hshift, hcnt] using hrem
  simp [State.encOutValid, State.encOutData, hfull]

/-- The byte offered in FLUSH is the accumulator. -/
theorem State.encOut_of_flush (h : s.encIn .flush) (hcnt : s.enc.cnt ≠ 0) :
    s.encOutValid = true ∧ s.encOutData = s.enc.acc := by
  obtain ⟨-, hflush⟩ := h
  have hfull : s.flushFull = true := by simpa [State.flushFull, hflush] using hcnt
  simp [State.encOutValid, State.encOutData, State.shiftFull, hflush, hfull]

end Outputs

/-! ## At rest -/

/-- In a busy state the selection does not look at `start` (R171). -/
theorem selectEnc_start_of_busy (v : EncView) (b : Bool)
    (hbusy : v.estate = .fetch ∨ v.estate = .shift ∨ v.estate = .flush) :
    selectEnc { v with pins := { v.pins with start := b } } = selectEnc v := by
  rcases hbusy with hstate | hstate | hstate <;> simp only [selectEnc, hstate]

/-- Settles O13, by the move START, and in a busy state by the selection. -/
theorem encStartBeginsARun : Obligations.EncStartBeginsARun := by
  unfold Obligations.EncStartBeginsARun
  refine ⟨?accepted, selectEnc_start_of_busy⟩
  case accepted =>
    intro s hrst hrest hstart
    exact ⟨(EncMove.start hrst hrest hstart).exec_eq, s.inReady_of_encAtRest hrest, s.encOutValid_of_encAtRest hrest⟩

/-! ## A symbol looked up in FETCH -/

/-- Settles O14, by the move SYM.OK. -/
theorem symOkLoadsTheCode : Obligations.SymOkLoadsTheCode := by
  unfold Obligations.SymOkLoadsTheCode
  intro s hin hvalid hcode
  have ⟨hrst, hfetch⟩ := hin
  exact ⟨(EncMove.symOk hrst hfetch hvalid hcode).exec_eq, s.inReady_of_encIn hin, s.encOutValid_of_fetch hin⟩

/-- Settles O15, by the move SYM.MISSING: the entry has `valid = 0`. -/
theorem symMissingIsUnencodable : Obligations.SymMissingIsUnencodable := by
  unfold Obligations.SymMissingIsUnencodable
  intro s hin hvalid habsent
  have ⟨hrst, hfetch⟩ := hin
  have hmove := EncMove.symMissing hrst hfetch hvalid (classifyEntry_none habsent)
  exact ⟨_, hmove.exec_eq, rfl, rfl, s.inReady_of_encIn hin⟩

/-- Settles O16, by the moves SYM.BADLEN and END.BADLEN: the length of the entry is reserved by R85. -/
theorem reservedLengthIsBadEntry : Obligations.ReservedLengthIsBadEntry := by
  unfold Obligations.ReservedLengthIsBadEntry
  intro s hin
  have ⟨hrst, hfetch⟩ := hin
  refine ⟨?symbol, ?sentinel⟩
  case symbol =>
    intro hvalid hentry hlen
    have hmove := EncMove.symBadlen hrst hfetch hvalid (classifyEntry_bad hentry hlen)
    exact ⟨_, hmove.exec_eq, rfl, rfl, s.inReady_of_encIn hin⟩
  case sentinel =>
    intro hvalid heof hentry hlen
    have hmove := EncMove.endBadlen hrst hfetch hvalid heof (classifyEntry_bad hentry hlen)
    exact ⟨_, hmove.exec_eq, rfl, rfl⟩

/-! ## The sentinel looked up in FETCH -/

/-- Settles O17, by the move END.OK. -/
theorem endOkLoadsTheSentinel : Obligations.EndOkLoadsTheSentinel := by
  unfold Obligations.EndOkLoadsTheSentinel
  intro s hin hvalid heof hcode
  have ⟨hrst, hfetch⟩ := hin
  exact ⟨(EncMove.endOk hrst hfetch hvalid heof hcode).exec_eq, s.inReady_of_encIn hin, s.encOutValid_of_fetch hin⟩

/-- Settles O18, by the move END.MISSING: the sentinel's entry has `valid = 0`. -/
theorem endMissingIsUnencodable : Obligations.EndMissingIsUnencodable := by
  unfold Obligations.EndMissingIsUnencodable
  intro s ⟨hrst, hfetch⟩ hvalid heof habsent
  exact ⟨_, (EncMove.endMissing hrst hfetch hvalid heof (classifyEntry_none habsent)).exec_eq, rfl, rfl⟩

/-! ## The waits -/

/-- Settles O19, by the moves FETCH.WAIT, SHIFT.WAIT and FLUSH.WAIT. -/
theorem encoderWaitsWriteNothing : Obligations.EncoderWaitsWriteNothing := by
  unfold Obligations.EncoderWaitsWriteNothing
  refine fun s => ⟨?fetch, ?shift, ?flush⟩
  case fetch =>
    intro hin hvalid heof
    have ⟨hrst, hfetch⟩ := hin
    exact ⟨(EncMove.fetchWait hrst hfetch hvalid heof).exec_eq, s.inReady_of_encIn hin⟩
  case shift =>
    intro hin hrem hcnt hready
    have ⟨hrst, hshift⟩ := hin
    exact ⟨(EncMove.shiftWait hrst hshift hrem hcnt hready).exec_eq, s.encOut_of_shift hin hrem hcnt⟩
  case flush =>
    intro hin hcnt hready
    have ⟨hrst, hflush⟩ := hin
    exact ⟨(EncMove.flushWait hrst hflush hcnt hready).exec_eq, s.encOut_of_flush hin hcnt⟩

/-! ## The bits of a code -/

/-- Settles O20, by the move SHIFT.BIT: the accumulator takes the bit on the wires, bit by bit as `accWith` says. -/
theorem shiftBitWritesOneBit : Obligations.ShiftBitWritesOneBit := by
  unfold Obligations.ShiftBitWritesOneBit
  intro s hin hrem hcnt hcur hlen
  have ⟨hrst, hshift⟩ := hin
  have hnotFull : s.enc.cnt ≠ 7 := fun h => by simp [h] at hcnt
  have hexec : exec .shiftBit s = .next (s.pushBit s.nextBit) :=
    (EncMove.shiftBit hrst hshift hrem hnotFull).exec_eq.trans (withBit_ok hcur hlen)
  refine ⟨accWith s.enc.acc s.enc.cnt s.nextBit, hexec, ?written, ?others, ?noOffer, ?wasZero⟩
  case written => rw [accWith_getLsbD, if_pos rfl, State.nextBit]
  case others => exact fun j hj => by rw [accWith_getLsbD, if_neg hj]
  case noOffer => rw [s.encOutValid_of_shift hin, beq_false_of_ne hnotFull, Bool.and_false]
  case wasZero => exact fun hinv => hinv.writer _ (by omega)

/-- Settles O21, by the move SHIFT.BYTE: the byte offered is the one put out, bit by bit as `accByte` says. -/
theorem shiftByteCompletesAByte : Obligations.ShiftByteCompletesAByte := by
  unfold Obligations.ShiftByteCompletesAByte
  intro s hin hrem hcnt hready hcur hlen
  have ⟨hrst, hshift⟩ := hin
  have hexec : exec .shiftByte s = .next ((s.putEncByte (accByte s.enc.acc s.nextBit)).byteDone) :=
    (EncMove.shiftByte hrst hshift hrem hcnt hready).exec_eq.trans (withBit_ok hcur hlen)
  refine ⟨accByte s.enc.acc s.nextBit, hexec, ?last, ?others, s.encOut_of_shift hin hrem hcnt⟩
  case last => rw [accByte_getLsbD, if_pos rfl, State.nextBit]
  case others => exact fun j hj => by rw [accByte_getLsbD, if_neg (by omega)]

/-- Settles O22, by the moves SHIFT.NEXT and SHIFT.LAST. -/
theorem finishedCodeGoesOn : Obligations.FinishedCodeGoesOn := by
  unfold Obligations.FinishedCodeGoesOn
  intro s hin hrem
  have ⟨hrst, hshift⟩ := hin
  refine ⟨?next, ?last, ?noOffer, s.inReady_of_encIn hin⟩
  case next => exact fun hcur => (EncMove.shiftNext hrst hshift hrem hcur).exec_eq
  case last => exact fun hcur => (EncMove.shiftLast hrst hshift hrem hcur).exec_eq
  case noOffer => simp [s.encOutValid_of_shift hin, hrem]

/-! ## The flush -/

/-- Settles O23, by the move FLUSH.BYTE and the invariant of the bit writer (R28). -/
theorem flushByteEmptiesTheWriter : Obligations.FlushByteEmptiesTheWriter := by
  unfold Obligations.FlushByteEmptiesTheWriter
  intro s hin hcnt hready
  have ⟨hrst, hflush⟩ := hin
  obtain ⟨hoffer, hdata⟩ := s.encOut_of_flush hin hcnt
  exact ⟨(EncMove.flushByte hrst hflush hcnt hready).exec_eq, hoffer, hdata, fun hinv => hinv.writer⟩

/-- Settles O24, by the move FLUSH.NONE. -/
theorem flushNoneAddsNoByte : Obligations.FlushNoneAddsNoByte := by
  unfold Obligations.FlushNoneAddsNoByte
  intro s hin hcnt
  have ⟨hrst, hflush⟩ := hin
  refine ⟨(EncMove.flushNone hrst hflush hcnt).exec_eq, ?noOffer⟩
  case noOffer => simp [s.encOutValid_of_flush hin, hcnt]

end Sys2Proof.Machine
end

section
/-! PROOF of O46 and O47. A step that answers moves a block or leaves its registers and streams alone. Of the moves, those that raise a
condition and those that are possible in DONE are named once for each block; the two statements read off them. -/

namespace Sys2Proof.Machine

/-! ## A step moves a block or leaves it alone -/

section Step

variable {s t : State} (h : step s = .next t)
include h

/-- A step that answers is a decoder edge with its move, or leaves the decoder's registers and streams alone. -/
theorem decMove_or_dec_kept_of_step :
    (∃ p i, s.nextEvent = .decClock p ∧ DecMove (s.advance.driveDec p) i t) ∨
    (t.dec = s.dec ∧ t.bitsIn = s.bitsIn ∧ t.decOut = s.decOut) := by
  rcases step_next_cases h with
    ⟨p, i, hev, -, hm⟩ | ⟨p, i, o, -, -, hm, ho⟩ | ⟨a, w, -, -, rfl⟩ | ⟨i, e, -, -, -, rfl⟩
  · exact .inl ⟨p, i, hev, hm⟩
  · obtain ⟨hdec, -, -, -, -, hbits, hout, -⟩ := hm.frame ho
    exact .inr ⟨hdec, hbits, hout⟩
  · exact .inr ⟨rfl, rfl, rfl⟩
  · exact .inr ⟨rfl, rfl, rfl⟩

/-- A step that answers is an encoder edge with its move, or leaves the encoder's registers and streams alone. -/
theorem encMove_or_enc_kept_of_step :
    (∃ p i, s.nextEvent = .encClock p ∧ EncMove (s.advance.driveEnc p) i (.next t)) ∨
    (t.enc = s.enc ∧ t.symsIn = s.symsIn ∧ t.encOut = s.encOut) := by
  rcases step_next_cases h with
    ⟨p, i, -, -, hm⟩ | ⟨p, i, o, hev, -, hm, rfl⟩ | ⟨a, w, -, -, rfl⟩ | ⟨i, e, -, -, -, rfl⟩
  · obtain ⟨henc, -, -, -, -, hsyms, hout, -⟩ := hm.frame
    exact .inr ⟨henc, hsyms, hout⟩
  · exact .inl ⟨p, i, hev, hm⟩
  · exact .inr ⟨rfl, rfl, rfl⟩
  · exact .inr ⟨rfl, rfl, rfl⟩

end Step

/-! ## The moves that raise a condition (R230) -/

/-- A decoder move that enters DONE with a status other than `OK` ends the run with a code of 2 to 4 and does nothing else. -/
theorem DecMove.eq_endDec_of_condition {s t : State} {i : Instr} (hm : DecMove s i t) (hnotDone : s.dec.dstate ≠ .done)
    (hdone : t.dec.dstate = .done) (hnotOk : t.dec.dstatus ≠ stOk) :
    ∃ code, (code = 2 ∨ code = 3 ∨ code = 4) ∧ t = s.endDec code := by
  cases hm with
  | end0 => exact ⟨stEndNoEos, .inl rfl, rfl⟩
  | end1 => exact ⟨stTruncated, .inr (.inl rfl), rfl⟩
  | bad => exact ⟨stBadNode, .inr (.inr rfl), rfl⟩
  | eos => exact absurd rfl hnotOk
  | reset | start => cases hdone
  | hold | bit0 | bit1 | intWait | symOut | symWait => exact absurd hdone hnotDone

/-- An encoder move that enters DONE with a status other than `OK` raises code 5 or 6 and does nothing else, but that the symbol
looked up, if there is one, has been accepted. -/
theorem EncMove.eq_raiseEnc_of_condition {s t : State} {i : Instr} (hm : EncMove s i (.next t))
    (hnotDone : s.enc.estate ≠ .done) (hdone : t.enc.estate = .done) (hnotOk : t.enc.estatus ≠ stOk) :
    ∃ code v, (code = 5 ∨ code = 6) ∧ (t = s.raiseEnc code v ∨ ∃ b, t = (s.takeSym b).raiseEnc code v) := by
  -- The answer is made a variable: that of SHIFT.BIT and SHIFT.BYTE is no constructor.
  generalize ho : Host.Outcome.next t = o at hm
  cases hm with
  | shiftBit | shiftByte => obtain ⟨-, -, rfl⟩ := withBit_next ho.symm; exact absurd hdone hnotDone
  | symMissing => cases ho; exact ⟨stUnencodable, _, .inl rfl, .inr ⟨_, rfl⟩⟩
  | symBadlen => cases ho; exact ⟨stBadEntry, _, .inr rfl, .inr ⟨_, rfl⟩⟩
  | endMissing => cases ho; exact ⟨stUnencodable, _, .inl rfl, .inl rfl⟩
  | endBadlen => cases ho; exact ⟨stBadEntry, _, .inr rfl, .inl rfl⟩
  | flushByte | flushNone => cases ho; exact absurd rfl hnotOk
  | reset | start | symOk | endOk | shiftNext | shiftLast => cases ho; cases hdone
  | hold | fetchWait | shiftWait | flushWait => cases ho; exact absurd hdone hnotDone

/-- Settles O46: the step is a move of the block, and one that raises a condition does nothing else. -/
theorem conditionChangesOnlyItsCode : Obligations.ConditionChangesOnlyItsCode := by
  unfold Obligations.ConditionChangesOnlyItsCode
  refine fun s t h => ⟨?decoder, ?encoder⟩
  case decoder =>
    intro hnotDone hdone hnotOk
    have hready : t.bitReady = false := t.bitReady_of_decAtRest (.inr hdone)
    have hoffer : t.decOutValid = false := t.decOutValid_of_decAtRest (.inr hdone)
    rcases decMove_or_dec_kept_of_step h with ⟨p, i, -, hm⟩ | ⟨hkept, -⟩
    · obtain ⟨code, hcode, rfl⟩ := hm.eq_endDec_of_condition hnotDone hdone hnotOk
      exact ⟨rfl, rfl, rfl, rfl, rfl, rfl, hready, hoffer, hcode⟩
    · exact absurd (hkept ▸ hdone) hnotDone
  case encoder =>
    intro hnotDone hdone hnotOk
    have hready : t.inReady = false := t.inReady_of_encAtRest (.inr hdone)
    have hoffer : t.encOutValid = false := t.encOutValid_of_encAtRest (.inr hdone)
    rcases encMove_or_enc_kept_of_step h with ⟨p, i, -, hm⟩ | ⟨hkept, -⟩
    · obtain ⟨code, v, hcode, rfl | ⟨b, rfl⟩⟩ := hm.eq_raiseEnc_of_condition hnotDone hdone hnotOk <;>
        exact ⟨rfl, rfl, rfl, rfl, rfl, hready, hoffer, hcode⟩
    · exact absurd (hkept ▸ hdone) hnotDone

/-! ## The moves possible in DONE (R232) -/

/-- In DONE the decoder is reset, starts a run, or holds. -/
theorem DecMove.eq_of_done {s t : State} {i : Instr} (hm : DecMove s i t) (hdone : s.dec.dstate = .done) :
    t = s ∨ (s.din.rst = false ∧ s.din.start = true ∧ t = s.startDec) ∨
      (s.din.rst = true ∧ t = s.setDec DecRegs.reset) := by
  cases hm with
  | reset hrst => exact .inr (.inr ⟨hrst, rfl⟩)
  | start hrst _ hstart => exact .inr (.inl ⟨hrst, hstart, rfl⟩)
  | hold => exact .inl rfl
  | _ _ hrun => simp [hdone] at hrun

/-- In DONE the encoder is reset, starts a run, or holds. -/
theorem EncMove.eq_of_done {s t : State} {i : Instr} (hm : EncMove s i (.next t)) (hdone : s.enc.estate = .done) :
    t = s ∨ (s.ein.rst = false ∧ s.ein.start = true ∧ t = s.startEnc) ∨
      (s.ein.rst = true ∧ t = s.setEnc EncRegs.reset) := by
  -- The answer is made a variable: that of SHIFT.BIT and SHIFT.BYTE is no constructor.
  generalize ho : Host.Outcome.next t = o at hm
  cases hm with
  | reset hrst => cases ho; exact .inr (.inr ⟨hrst, rfl⟩)
  | start hrst _ hstart => cases ho; exact .inr (.inl ⟨hrst, hstart, rfl⟩)
  | hold => cases ho; exact .inl rfl
  | _ _ hbusy => simp [hdone] at hbusy

/-- Settles O47: the step is one of the three moves possible in DONE, or no move of the block. -/
theorem doneIsLeftOnlyByStartOrReset : Obligations.DoneIsLeftOnlyByStartOrReset := by
  unfold Obligations.DoneIsLeftOnlyByStartOrReset
  refine fun s t h => ⟨?decoder, ?encoder⟩
  case decoder =>
    intro hdone
    rcases decMove_or_dec_kept_of_step h with ⟨p, i, hev, hm⟩ | ⟨hkept, hbits, hout⟩
    · rcases hm.eq_of_done hdone with rfl | ⟨hrst, hstart, rfl⟩ | ⟨hrst, rfl⟩
      · exact ⟨.inl rfl, rfl, rfl⟩
      · exact ⟨.inr (.inl ⟨p, hev, hrst, hstart, rfl⟩), rfl, rfl⟩
      · exact ⟨.inr (.inr ⟨p, hev, hrst, rfl⟩), rfl, rfl⟩
    · exact ⟨.inl hkept, hbits, hout⟩
  case encoder =>
    intro hdone
    rcases encMove_or_enc_kept_of_step h with ⟨p, i, hev, hm⟩ | ⟨hkept, hsyms, hout⟩
    · rcases hm.eq_of_done hdone with rfl | ⟨hrst, hstart, rfl⟩ | ⟨hrst, rfl⟩
      · exact ⟨.inl rfl, rfl, rfl⟩
      · exact ⟨.inr (.inl ⟨p, hev, hrst, hstart, rfl⟩), rfl, rfl⟩
      · exact ⟨.inr (.inr ⟨p, hev, hrst, rfl⟩), rfl, rfl⟩
    · exact ⟨.inl hkept, hsyms, hout⟩

end Sys2Proof.Machine
end

section
/-! PROOF of O48 and O2. Once selected, a move does the same on other pins of its block with the same `in_data`, and the selection of a busy
block does not look at `start`. The reset step is a move under `rst` alone, whose effect is the reset values. -/

namespace Sys2Proof.Machine

/-! ## A move on other pins -/

/-- Beyond its selection a decoder move does not look at the pins. -/
theorem DecMove.eq_driveDec {s t t' : State} {i : Instr} {p : DecPins} (hm : DecMove s i t)
    (hm' : DecMove (s.driveDec p) i t') : t' = t.driveDec p := by
  -- The instruction fixes the move, so both are the same one of the twelve.
  cases hm <;> (cases hm'; rfl)

/-- Beyond its selection an encoder move looks at the pins for the byte offered alone. -/
theorem EncMove.eq_driveEnc {s t t' : State} {i : Instr} {o o' : Host.Outcome State Fault Refusal} {p : EncPins}
    (hdata : p.inData = s.ein.inData) (hm : EncMove s i o) (hm' : EncMove (s.driveEnc p) i o') (ho : o = .next t)
    (ho' : o' = .next t') : t' = t.driveEnc p := by
  cases hm <;> cases hm'
  case shiftBit.shiftBit | shiftByte.shiftByte =>
    obtain ⟨-, -, rfl⟩ := withBit_next ho
    obtain ⟨-, -, rfl⟩ := withBit_next ho'
    rfl
  all_goals cases ho; cases ho'
  case symOk.symOk | symMissing.symMissing | symBadlen.symBadlen => rw [State.driveEnc_ein, hdata]; rfl
  all_goals rfl

/-! ## While a block is busy (R255) -/

/-- The encoder is busy in FETCH, SHIFT and FLUSH (R31). -/
theorem State.encBusy_iff {s : State} :
    s.encBusy = true ↔ s.enc.estate = .fetch ∨ s.enc.estate = .shift ∨ s.enc.estate = .flush := by
  simp [State.encBusy, or_assoc]

/-- Settles O48: the edges with `start` at 1 and at 0 select the same step, and its move does the same on both. -/
theorem startWhileBusyIsIgnored : Obligations.StartWhileBusyIsIgnored := by
  unfold Obligations.StartWhileBusyIsIgnored
  refine ⟨?decoder, ?encoder⟩
  case decoder =>
    intro s p b t t' hbusy h h'
    have hrun : s.dec.dstate = .run := beq_iff_eq.mp hbusy
    have hm' := decMove_of_step rfl h'
    have hsel := selectDec_start_of_run (s.driveDec p).decView b hrun
    obtain rfl := (decMove_of_step rfl h).eq_driveDec (hsel ▸ hm')
    rfl
  case encoder =>
    intro s p b t t' hbusy h h'
    have hm' := encMove_of_step rfl h'
    have hsel := selectEnc_start_of_busy (s.driveEnc p).encView b (State.encBusy_iff.mp hbusy)
    obtain rfl := (encMove_of_step rfl h).eq_driveEnc (p := { p with start := b }) rfl (hsel ▸ hm') rfl rfl
    rfl

/-! ## The reset step (R250) -/

/-- Settles O2, by the move RESET of each block and the outputs of the reset registers. -/
theorem resetStepWritesEveryRegister : Obligations.ResetStepWritesEveryRegister := by
  unfold Obligations.ResetStepWritesEveryRegister
  refine fun s => ⟨?decoder, ?encoder, ?decOutputs, ?encOutputs⟩
  case decoder =>
    intro hrst
    have hm := DecMove.reset hrst
    exact ⟨hm.selected, hm.exec_eq⟩
  case encoder =>
    intro hrst
    have hm := EncMove.reset hrst
    exact ⟨hm.selected, hm.exec_eq⟩
  case decOutputs =>
    intro hreset
    obtain ⟨-, -, -, hready, hvalid, -⟩ := decOutputs_of_reset hreset
    exact ⟨hready, hvalid⟩
  case encOutputs =>
    intro hreset
    obtain ⟨-, -, -, hready, hvalid, -⟩ := encOutputs_of_reset hreset
    exact ⟨hready, hvalid⟩

end Sys2Proof.Machine
end

section
/-! PROOF of O34, O35 and O36. A node word is an Internal word or a Leaf word, and a code entry is its three fields; on each of these
forms the classification, the decoding and the mask tables are read off the fields. -/

namespace Sys2Proof

/-! ## Node words (R81, R82) -/

/-- A node word is an Internal word or a Leaf word of its fields (R81). -/
theorem nodeWord_cases (w : NodeWord) : (∃ l r, w = encodeInt l r) ∨ (∃ x v, w = encodeLeaf x v) := by
  cases hleaf : leafFlag w with
  | false => exact .inl ⟨_, _, (encodeInt_eta hleaf).symm⟩
  | true => exact .inr ⟨_, _, (encodeLeaf_eta hleaf).symm⟩

/-- The byte of a leaf is the low part of its value (R84). -/
theorem byteOf_eq_setWidth_valOf (w : NodeWord) : byteOf w = (valOf w).setWidth 8 := by
  apply BitVec.eq_of_getLsbD_eq
  intro i hi
  simp [byteOf, valOf, hi, show i < 9 by omega]

@[simp] theorem classify_encodeInt (l r : NodeAddr) : classify (encodeInt l r) = .int :=
  classify_int (leafFlag_encodeInt l r)

@[simp] theorem decodeNode_encodeInt (l r : NodeAddr) : decodeNode (encodeInt l r) = .wordInt l r := by
  simp [decodeNode]

/-- What a Leaf word decodes to, by its fields (R82). -/
theorem decodeNode_encodeLeaf (x : BitVec 11) (v : Val) :
    decodeNode (encodeLeaf x v) =
      if x = 0 then (if v.toNat < 256 then .wordSym (v.setWidth 8) else if v = 256 then .wordEos else .wordBad x v)
      else .wordBad x v := by
  rw [decodeNode, classify_encodeLeaf, byteOf_eq_setWidth_valOf, valOf_encodeLeaf, reservedOf_encodeLeaf]
  split_ifs <;> rfl

/-- The reserved words are the Leaf words that are neither a byte symbol nor the sentinel (R82, R90). -/
theorem wordBadOk_iff (x : BitVec 11) (v : Val) :
    Instr.wordBadOk x v = true ↔ ¬ (x = 0 ∧ (v.toNat < 256 ∨ v = 256)) := by
  have hval : v = 256 ↔ v.toNat = 256 := by rw [← BitVec.toNat_inj]; rfl
  simp only [Instr.wordBadOk, Bool.or_eq_true, bne_iff_ne, Nat.blt_eq, hval, ne_eq]
  by_cases hx : x = 0
  · simp only [hx, not_true_eq_false, false_or, true_and]
    omega
  · exact iff_of_true (.inl hx) fun h => hx h.1

/-! ## Code entries (R85) -/

/-- The kind of an entry, by its flag and its length (R85). -/
theorem classifyEntry_encodeEntry (b : Bool) (n : Len) (c : CodeField) :
    classifyEntry (encodeEntry b n c) = if b = false then .none else if n.toNat ≤ 256 then .code else .bad := by
  rw [classifyEntry, entryValid_encodeEntry, entryLen_encodeEntry]

/-- What an entry decodes to, by its fields (R85). -/
theorem decodeEntry_encodeEntry (b : Bool) (n : Len) (c : CodeField) :
    decodeEntry (encodeEntry b n c) =
      if b = false then .cNone n c
      else if n.toNat ≤ 256 then (if n.toNat = 256 then .cCode256 c else .cCode n c)
      else .cBad n c := by
  rw [decodeEntry, classifyEntry_encodeEntry, entryLen_encodeEntry, entryCode_encodeEntry]
  split_ifs <;> rfl

/-! ## The round trips -/

/-- Settles O34: the words by what their fields decode to, the steps by the line of R87 or R88 their view stands on. -/
theorem decodeInvertsEncode : Obligations.DecodeInvertsEncode := by
  unfold Obligations.DecodeInvertsEncode
  intro i hwf
  cases i with
  | wordInt l r => exact decodeNode_encodeInt l r
  | wordSym b =>
    have hbyte : (b.setWidth 9).toNat < 256 := by have := b.isLt; simp; omega
    show decodeNode (encodeLeaf 0 (b.setWidth 9)) = .wordSym b
    rw [decodeNode_encodeLeaf, if_pos rfl, if_pos hbyte, BitVec.setWidth_setWidth_of_le b (by decide), BitVec.setWidth_eq]
  | wordEos => decide
  | wordBad x v =>
    have hbad := (wordBadOk_iff x v).mp hwf
    show decodeNode (encodeLeaf x v) = .wordBad x v
    rw [decodeNode_encodeLeaf]
    split_ifs with hx hlt heos
    · exact absurd ⟨hx, .inl hlt⟩ hbad
    · exact absurd ⟨hx, .inr heos⟩ hbad
    · rfl
    · rfl
  | cNone n c => exact decodeEntry_encodeEntry false n c
  | cCode n c =>
    have hlen : n.toNat ≤ 255 := Nat.ble_eq.mp hwf
    show decodeEntry (encodeEntry true n c) = .cCode n c
    rw [decodeEntry_encodeEntry, if_neg (by decide), if_pos (by omega), if_neg (by omega)]
  | cCode256 c => exact decodeEntry_encodeEntry true 256 c
  | cBad n c =>
    have hlen : 256 < n.toNat := Nat.blt_eq.mp hwf
    show decodeEntry (encodeEntry true n c) = .cBad n c
    rw [decodeEntry_encodeEntry, if_neg (by decide), if_neg (by omega)]
  -- A step carries no operand: its view is closed, and the selection runs on it.
  | _ => decide +kernel

/-- Settles O35: each word and entry in the form of its fields. -/
theorem encodeInvertsDecodeOfWords : Obligations.EncodeInvertsDecodeOfWords := by
  unfold Obligations.EncodeInvertsDecodeOfWords
  refine ⟨fun w => ?node, fun e => ?entry⟩
  case node =>
    rcases nodeWord_cases w with ⟨l, r, rfl⟩ | ⟨x, v, rfl⟩
    · rw [decodeNode_encodeInt]
      exact ⟨rfl, rfl⟩
    · rw [decodeNode_encodeLeaf]
      split_ifs with hx hlt heos
      · have hval : (v.setWidth 8).setWidth 9 = v := by
          apply BitVec.eq_of_toNat_eq
          simp
          omega
        exact ⟨rfl, by rw [encode, hval, hx]⟩
      · rw [hx, heos]
        exact ⟨rfl, by decide⟩
      · exact ⟨(wordBadOk_iff x v).mpr (by tauto), rfl⟩
      · exact ⟨(wordBadOk_iff x v).mpr (by tauto), rfl⟩
  case entry =>
    obtain ⟨b, n, c, rfl⟩ : ∃ b n c, e = encodeEntry b n c := ⟨_, _, _, (encodeEntry_eta e).symm⟩
    rw [decodeEntry_encodeEntry]
    split_ifs with hb hle h256
    · exact ⟨rfl, by rw [encode, hb]⟩
    · have hn : n = 256 := BitVec.eq_of_toNat_eq h256
      exact ⟨rfl, by rw [encode, hn, Bool.eq_true_of_not_eq_false hb]⟩
    · exact ⟨Nat.ble_eq.mpr (by omega), by rw [encode, Bool.eq_true_of_not_eq_false hb]⟩
    · exact ⟨Nat.blt_eq.mpr (by omega), by rw [encode, Bool.eq_true_of_not_eq_false hb]⟩

/-! ## The mask tables (R82, R85) -/

/-- The row of a byte symbol fits a word exactly under the leaf flag with bits 19 to 8 at 0 (R82). -/
theorem and_symMask_iff (w : NodeWord) : w &&& 0x1FFF00 = 0x100000 ↔ leafFlag w = true ∧ w.extractLsb' 8 12 = 0#12 := by
  simp only [BitVec.eq_of_getLsbD_eq_iff, leafFlag, Nat.forall_lt_succ_right, BitVec.getLsbD_and]
  simp
  tauto

/-- The first row that fits is tried before the others. -/
theorem firstRow_cons {α : Type} {n : Nat} (k : α) (m p : BitVec n) (rows : List (α × BitVec n × BitVec n)) (w : BitVec n) :
    firstRow ((k, m, p) :: rows) w = if w &&& m = p then some k else firstRow rows w := by
  by_cases h : w &&& m = p <;> simp [firstRow, h]

/-- The row a node word falls under is that of its kind (R82). -/
theorem firstRow_nodeRows (w : NodeWord) : firstRow nodeRows w = some (classify w) := by
  have hint : w &&& 0x100000 = 0x000000 ↔ leafFlag w = false := by
    rw [Laws.EncodingMatchesRow.mask_leaf]
    cases leafFlag w <;> decide
  have heos : w &&& 0x1FFFFF = 0x100100 ↔ w = 0x100100#21 := by
    rw [show w &&& 0x1FFFFF = w from BitVec.and_allOnes]
    rfl
  have hbad : w &&& 0x100000 = 0x100000 ↔ leafFlag w = true := by
    rw [Laws.EncodingMatchesRow.mask_leaf]
    cases leafFlag w <;> decide
  simp only [nodeRows, firstRow_cons, hint, and_symMask_iff, heos, hbad, classify]
  cases hleaf : leafFlag w with
  | false => rfl
  | true => simp only [true_and, if_true, Bool.true_eq_false, if_false]; split_ifs <;> rfl

/-- Settles O36: the node words by their bits, the entries by every header. -/
theorem kindsFollowTheMaskTables : Obligations.KindsFollowTheMaskTables := by
  unfold Obligations.KindsFollowTheMaskTables
  refine ⟨firstRow_nodeRows, fun e => ?entry⟩
  case entry =>
    have hheader : ∀ (b : Bool) (n : Len), firstRow entryRows (BitVec.ofBool b ++ n) =
        some (if b = false then .none else if n.toNat ≤ 256 then .code else .bad) := by decide +kernel
    obtain ⟨b, n, c, rfl⟩ : ∃ b n c, e = encodeEntry b n c := ⟨_, _, _, (encodeEntry_eta e).symm⟩
    rw [entryHeader_encodeEntry, classifyEntry_encodeEntry, hheader]

end Sys2Proof
end

section
/-! PROOF of O39, O40, O41 and O32. The invariant is that of the two memories, of the decoder's registers and of the encoder's; each move
of R87 and R88 keeps the part of its block, and a host write that of its memory. -/

namespace Sys2Proof.Machine

/-! ## The invariant in its parts -/

/-- What holds of the decoder's registers in every reachable state (R23, R24, R34). -/
structure DecRegs.Inv (d : DecRegs) : Prop where
  boundary : d.mid = false → d.node = Config.root
  dstatus_none : d.dstate ≠ .done → d.dstatus = stNone
  dstatus_done : d.dstate = .done → d.dstatus = stOk ∨ d.dstatus = stEndNoEos ∨ d.dstatus = stTruncated ∨ d.dstatus = stBadNode

/-- What holds of the encoder's registers in every reachable state (R27, R28, R29, R34). -/
structure EncRegs.Inv (e : EncRegs) : Prop where
  writer : WriterInv e
  cur_le : e.cur.toNat ≤ 256
  rem_le : e.rem.toNat ≤ 256
  fetch_rem : e.estate = .fetch → e.rem = 0
  flush_cur : e.estate = .flush → e.cur = Config.eosVal ∧ e.rem = 0
  estatus_none : e.estate ≠ .done → e.estatus = stNone
  estatus_done : e.estate = .done → e.estatus = stOk ∨ e.estatus = stUnencodable ∨ e.estatus = stBadEntry
  err_sym_zero : e.estatus ≠ stUnencodable → e.estatus ≠ stBadEntry → e.errSym = 0
  err_sym_le : e.errSym.toNat ≤ 256

/-- The invariant of a state is that of its two memories and of the registers of its two blocks. -/
theorem State.inv_iff {s : State} : s.Inv ↔
    Memory.wf Config.nodeDepth s.nodeMem = true ∧ Memory.wf Config.codeN s.codeMem = true ∧ s.dec.Inv ∧ s.enc.Inv := by
  constructor
  · intro h
    exact ⟨h.nodes_wf, h.codes_wf, { h with }, { h with }⟩
  · rintro ⟨hnodes, hcodes, hdec, henc⟩
    exact { hdec, henc with nodes_wf := hnodes, codes_wf := hcodes }

/-! ## The moves of the decoder -/

theorem DecRegs.inv_reset : DecRegs.reset.Inv := ⟨fun _ => rfl, fun _ => rfl, nofun⟩

/-- A decoder move keeps the invariant of the decoder's registers. -/
theorem DecMove.keeps_inv {s t : State} {i : Instr} (hm : DecMove s i t) (h : s.dec.Inv) : t.dec.Inv := by
  cases hm with
  | reset => exact DecRegs.inv_reset
  | start => exact ⟨fun _ => rfl, fun _ => rfl, nofun⟩
  | bit0 | bit1 => exact { h with boundary := nofun }
  | symOut => exact { h with boundary := fun _ => rfl }
  | eos => exact { h with dstatus_none := (absurd rfl ·), dstatus_done := fun _ => .inl rfl }
  | end0 => exact { h with dstatus_none := (absurd rfl ·), dstatus_done := fun _ => .inr (.inl rfl) }
  | end1 => exact { h with dstatus_none := (absurd rfl ·), dstatus_done := fun _ => .inr (.inr (.inl rfl)) }
  | bad => exact { h with dstatus_none := (absurd rfl ·), dstatus_done := fun _ => .inr (.inr (.inr rfl)) }
  | hold | intWait | symWait => exact h

/-! ## The moves of the encoder -/

/-- The index of a byte is one the code memory has (R52). -/
theorem symIndex_le (b : Byte) : (symIndex b).toNat ≤ 256 := by
  have := b.isLt
  simp [symIndex]
  omega

/-- A cleared accumulator meets the writer's invariant (R28). -/
theorem writerInv_of_acc_zero {e : EncRegs} (h : e.acc = 0) : WriterInv e := by
  intro j _
  simp [h]

/-- A code bit written keeps the writer's invariant where the byte is not complete (R28, R178). -/
theorem State.pushBit_writer {s : State} (h : WriterInv s.enc) (hcnt : s.enc.cnt ≠ 7) (b : Bool) :
    WriterInv (s.pushBit b).enc := by
  intro j hj
  have hlt : s.enc.cnt.toNat < 7 := by
    have := s.enc.cnt.isLt
    have : s.enc.cnt.toNat ≠ 7 := fun h7 => hcnt (BitVec.eq_of_toNat_eq h7)
    omega
  have hnext : (s.enc.cnt + 1).toNat = s.enc.cnt.toNat + 1 := by simp; omega
  have hj' : j < 8 - (s.enc.cnt + 1).toNat := hj
  show (accWith s.enc.acc s.enc.cnt b).getLsbD j = false
  rw [accWith_getLsbD, if_neg (by omega)]
  exact h j (by omega)

/-- A code bit less is left. -/
theorem rem_sub_one_le {r : Len} (hle : r.toNat ≤ 256) (hne : r ≠ 0) : (r - 1).toNat ≤ 256 := by
  have : r.toNat ≠ 0 := fun h => hne (BitVec.eq_of_toNat_eq h)
  simp [BitVec.toNat_sub]
  omega

theorem EncRegs.inv_reset : EncRegs.reset.Inv :=
  ⟨writerInv_of_acc_zero rfl, by decide, by decide, nofun, nofun, fun _ => rfl, nofun, fun _ _ => rfl, by decide⟩

section Enc

variable {s : State} (h : s.enc.Inv)
include h

/-- The encoder loads a code it looked up. -/
theorem State.loadCode_inv (hst : s.enc.estate ≠ .done) {v : Val} {n : Len} (hv : v.toNat ≤ 256) (hn : n.toNat ≤ 256) :
    (s.loadCode v n).enc.Inv :=
  { h with cur_le := hv, rem_le := hn, fetch_rem := nofun, flush_cur := nofun, estatus_none := fun _ => h.estatus_none hst,
           estatus_done := nofun }

/-- The encoder raises a condition. -/
theorem State.raiseEnc_inv {c : StatusCode} (hc : c = stUnencodable ∨ c = stBadEntry) {v : Val} (hv : v.toNat ≤ 256) :
    (s.raiseEnc c v).enc.Inv :=
  { h with fetch_rem := nofun, flush_cur := nofun, estatus_none := (absurd rfl ·), estatus_done := fun _ => .inr hc,
           err_sym_zero := fun h5 h6 => absurd hc (not_or.mpr ⟨h5, h6⟩), err_sym_le := hv }

/-- The encoder ends a run normally. -/
theorem State.endEnc_inv (hst : s.enc.estate ≠ .done) : (s.endEnc stOk).enc.Inv :=
  { h with fetch_rem := nofun, flush_cur := nofun, estatus_none := (absurd rfl ·), estatus_done := fun _ => .inl rfl,
           err_sym_zero := fun _ _ => by
             have hnone := h.estatus_none hst
             exact h.err_sym_zero (by rw [hnone]; decide) (by rw [hnone]; decide) }

end Enc

/-- An encoder move that answers keeps the invariant of the encoder's registers. -/
theorem EncMove.keeps_inv {s t : State} {i : Instr} (hm : EncMove s i (.next t)) (h : s.enc.Inv) : t.enc.Inv := by
  -- The answer is made a variable: that of SHIFT.BIT and SHIFT.BYTE is no constructor.
  generalize ho : Host.Outcome.next t = o at hm
  cases hm with
  | shiftBit _ hst hrem hcnt =>
    obtain ⟨-, -, rfl⟩ := withBit_next ho.symm
    have hshift : (s.pushBit s.nextBit).enc.estate = .shift := hst
    exact { h with writer := s.pushBit_writer h.writer hcnt _, rem_le := rem_sub_one_le h.rem_le hrem,
                   fetch_rem := fun hf => by simp [hshift] at hf,
                   flush_cur := fun hf => by simp [hshift] at hf }
  | shiftByte _ hst hrem hcnt =>
    obtain ⟨-, -, rfl⟩ := withBit_next ho.symm
    have hshift : ((s.putEncByte (accByte s.enc.acc s.nextBit)).byteDone).enc.estate = .shift := hst
    exact { h with writer := writerInv_of_acc_zero rfl, rem_le := rem_sub_one_le h.rem_le hrem,
                   fetch_rem := fun hf => by simp [hshift] at hf,
                   flush_cur := fun hf => by simp [hshift] at hf }
  | reset => cases ho; exact EncRegs.inv_reset
  | start => cases ho; exact { EncRegs.inv_reset with fetch_rem := fun _ => rfl, flush_cur := nofun, estatus_none := fun _ => rfl,
                                                             estatus_done := nofun }
  | symOk _ hst _ hk =>
    cases ho
    exact State.loadCode_inv (s := s.takeSym _) h (by simp [hst]) (symIndex_le _) (entryLen_of_code hk)
  | endOk _ hst _ _ hk => cases ho; exact State.loadCode_inv h (by simp [hst]) (by decide) (entryLen_of_code hk)
  | symMissing => cases ho; exact State.raiseEnc_inv (s := s.takeSym _) h (.inl rfl) (symIndex_le _)
  | symBadlen => cases ho; exact State.raiseEnc_inv (s := s.takeSym _) h (.inr rfl) (symIndex_le _)
  | endMissing => cases ho; exact State.raiseEnc_inv h (.inl rfl) (by decide)
  | endBadlen => cases ho; exact State.raiseEnc_inv h (.inr rfl) (by decide)
  | shiftNext _ hst hrem =>
    cases ho
    exact { h with fetch_rem := fun _ => hrem, flush_cur := nofun, estatus_none := fun _ => h.estatus_none (by simp [hst]),
                   estatus_done := nofun }
  | shiftLast _ hst hrem hcur =>
    cases ho
    exact { h with fetch_rem := nofun, flush_cur := fun _ => ⟨hcur, hrem⟩,
                   estatus_none := fun _ => h.estatus_none (by simp [hst]), estatus_done := nofun }
  | flushByte _ hst =>
    cases ho
    have hcleared : ((s.putEncByte s.enc.acc).clearWriter).enc.Inv := { h with writer := writerInv_of_acc_zero rfl }
    exact State.endEnc_inv hcleared (by show s.enc.estate ≠ .done; simp [hst])
  | flushNone _ hst => cases ho; exact State.endEnc_inv h (by simp [hst])
  | hold | fetchWait | shiftWait | flushWait => cases ho; exact h

/-! ## The machine -/

/-- Settles O39: empty memories and the reset values. -/
theorem invHoldsAtReset : Obligations.InvHoldsAtReset := by
  unfold Obligations.InvHoldsAtReset
  exact State.inv_iff.mpr ⟨rfl, rfl, DecRegs.inv_reset, EncRegs.inv_reset⟩

/-- Settles O40: a step is a move of one block, or a host write, and keeps the part of the invariant it touches. -/
theorem stepKeepsInv : Obligations.StepKeepsInv := by
  unfold Obligations.StepKeepsInv
  intro s t hinv h
  obtain ⟨hnodes, hcodes, hdec, henc⟩ := State.inv_iff.mp hinv
  apply State.inv_iff.mpr
  rcases step_next_cases h with
    ⟨p, i, -, -, hm⟩ | ⟨p, i, o, -, -, hm, rfl⟩ | ⟨a, w, -, -, rfl⟩ | ⟨i, e, -, hi, -, rfl⟩
  · obtain ⟨henc', hnodes', hcodes', -⟩ := hm.frame
    rw [hnodes', hcodes', henc']
    exact ⟨hnodes, hcodes, hm.keeps_inv hdec, henc⟩
  · obtain ⟨hdec', hnodes', hcodes', -⟩ := hm.frame rfl
    rw [hnodes', hcodes', hdec']
    exact ⟨hnodes, hcodes, hdec, hm.keeps_inv henc⟩
  · exact ⟨Memory.wf_set _ _ _ _ a.isLt hnodes, hcodes, hdec, henc⟩
  · exact ⟨hnodes, Memory.wf_set _ _ _ _ (Nat.lt_succ_of_le hi) hcodes, hdec, henc⟩

/-- Only EOS writes the status `OK` into the decoder (R140). -/
theorem DecMove.eq_eos_of_ok {s t : State} {i : Instr} (hm : DecMove s i t) (hbefore : s.dec.dstatus ≠ stOk)
    (hafter : t.dec.dstatus = stOk) : i = .eos := by
  cases hm with
  | eos => rfl
  | reset | start | end0 | end1 | bad => cases hafter
  | hold | bit0 | bit1 | intWait | symOut | symWait => exact absurd hafter hbefore

/-- Only FLUSH.BYTE and FLUSH.NONE write the status `OK` into the encoder (R182, R183). -/
theorem EncMove.eq_flush_of_ok {s t : State} {i : Instr} (hm : EncMove s i (.next t)) (hbefore : s.enc.estatus ≠ stOk)
    (hafter : t.enc.estatus = stOk) : i = .flushByte ∨ i = .flushNone := by
  generalize ho : Host.Outcome.next t = o at hm
  cases hm with
  | flushByte => exact .inl rfl
  | flushNone => exact .inr rfl
  | shiftBit | shiftByte => obtain ⟨-, -, rfl⟩ := withBit_next ho.symm; exact absurd hafter hbefore
  | reset | start | symMissing | symBadlen | endMissing | endBadlen => cases ho; cases hafter
  | hold | symOk | endOk | fetchWait | shiftWait | shiftNext | shiftLast | flushWait => cases ho; exact absurd hafter hbefore

/-- Settles O41: a status other than 0 stands in DONE, which only reset and an accepted start leave. -/
theorem statusIsNeverSwallowed : Obligations.StatusIsNeverSwallowed := by
  unfold Obligations.StatusIsNeverSwallowed
  intro s t hinv h
  refine ⟨?decChanges, ?encChanges, ?decOk, ?encOk⟩
  case decChanges =>
    intro hset hchange
    have hdone : s.dec.dstate = .done := by_contra fun hne => hset (hinv.dstatus_none hne)
    rcases decMove_or_dec_kept_of_step h with ⟨p, i, hev, hm⟩ | ⟨hkept, -⟩
    · rcases hm.eq_of_done hdone with rfl | ⟨-, hstart, rfl⟩ | ⟨hrst, rfl⟩
      · exact absurd rfl hchange
      · exact ⟨p, hev, .inr hstart, rfl⟩
      · exact ⟨p, hev, .inl hrst, rfl⟩
    · exact absurd (congrArg DecRegs.dstatus hkept) hchange
  case encChanges =>
    intro hset hchange
    have hdone : s.enc.estate = .done := by_contra fun hne => hset (hinv.estatus_none hne)
    rcases encMove_or_enc_kept_of_step h with ⟨p, i, hev, hm⟩ | ⟨hkept, -⟩
    · rcases hm.eq_of_done hdone with rfl | ⟨-, hstart, rfl⟩ | ⟨hrst, rfl⟩
      · exact absurd rfl hchange
      · exact ⟨p, hev, .inr hstart, rfl⟩
      · exact ⟨p, hev, .inl hrst, rfl⟩
    · exact absurd (congrArg EncRegs.estatus hkept) hchange
  case decOk =>
    intro hbefore hafter
    rcases decMove_or_dec_kept_of_step h with ⟨p, i, hev, hm⟩ | ⟨hkept, -⟩
    · exact ⟨p, hev, hm.selected.trans (hm.eq_eos_of_ok hbefore hafter)⟩
    · exact absurd (hkept ▸ hafter) hbefore
  case encOk =>
    intro hbefore hafter
    rcases encMove_or_enc_kept_of_step h with ⟨p, i, hev, hm⟩ | ⟨hkept, -⟩
    · exact ⟨p, hev, (hm.eq_flush_of_ok hbefore hafter).imp hm.selected.trans hm.selected.trans⟩
    · exact absurd (hkept ▸ hafter) hbefore

/-- An encoder move answers a next state where `cur` and `rem` are in range. -/
theorem EncMove.answers {s : State} {i : Instr} {o : Host.Outcome State Fault Refusal} (hm : EncMove s i o)
    (hcur : s.enc.cur.toNat ≤ 256) (hrem : s.enc.rem.toNat ≤ 256) : ∃ t, o = .next t := by
  cases hm with
  | shiftBit | shiftByte => exact ⟨_, withBit_ok hcur hrem⟩
  | _ => exact ⟨_, rfl⟩

/-- Settles O32, by the events: a move always answers in the invariant, and a host write where its duty is kept. -/
theorem everyStepAnswers : Obligations.EveryStepAnswers := by
  unfold Obligations.EveryStepAnswers Answers
  intro s hinv hallowed
  cases hev : s.nextEvent with
  | decClock p =>
    obtain ⟨t, ht, -⟩ := exec_selectDec (s.advance.driveDec p)
    exact ⟨t, (step_decClock hev).trans ht⟩
  | encClock p =>
    obtain ⟨t, ht⟩ := (exec_selectEnc (s.advance.driveEnc p)).answers hinv.cur_le hinv.rem_le
    exact ⟨t, (step_encClock hev).trans ht⟩
  | writeNode a w =>
    have hrest : s.decBusy = false := by rwa [hev] at hallowed
    exact ⟨s.advance.setNode a w, by rw [step_writeNode hev, hrest]; rfl⟩
  | writeCode i e =>
    obtain ⟨hi, hrest⟩ : i.toNat ≤ 256 ∧ s.encBusy = false := by rwa [hev] at hallowed
    exact ⟨s.advance.setCode i e, by rw [step_writeCode hev, if_neg (by omega), hrest]; rfl⟩

end Sys2Proof.Machine
end

section
/-! PROOF of O26, O27 and O30. A word executed in RUN, or an entry looked up in FETCH, does what the move of R87 or R88 does that is
selected on it: the rows of words and the rows of steps are two accounts of one step. -/

namespace Sys2Proof.Machine

/-! ## Node words in RUN (R132) -/

section NodeWords

variable {s : State} (hrst : s.din.rst = false) (hrun : s.dec.dstate = .run)
include hrst hrun

/-- WORD.INT takes the bit offered and goes to its child. -/
theorem exec_wordInt_bit (l r : NodeAddr) (hvalid : s.din.bitValid = true) :
    exec (.wordInt l r) s = .next ((s.takeBit s.din.bitData).goChild (if s.din.bitData then r else l)) :=
  (inRun_run hrun hrst).trans (if_pos hvalid)

/-- WORD.INT ends the run on exhaustion. -/
theorem exec_wordInt_end (l r : NodeAddr) (hvalid : s.din.bitValid = false) (heof : s.din.bitEof = true) :
    exec (.wordInt l r) s = .next (s.endDec (if s.dec.mid then stTruncated else stEndNoEos)) :=
  (inRun_run hrun hrst).trans (by rw [if_neg (by simp [hvalid]), if_pos heof])

/-- WORD.INT waits for a bit. -/
theorem exec_wordInt_wait (l r : NodeAddr) (hvalid : s.din.bitValid = false) (heof : s.din.bitEof = false) :
    exec (.wordInt l r) s = .next s :=
  (inRun_run hrun hrst).trans (by rw [if_neg (by simp [hvalid]), if_neg (by simp [heof])])

/-- WORD.SYM puts its byte out and goes to the root. -/
theorem exec_wordSym_out (b : Byte) (hready : s.din.outReady = true) :
    exec (.wordSym b) s = .next ((s.putDecByte b).goRoot) :=
  (inRun_run hrun hrst).trans (if_pos hready)

/-- WORD.SYM waits for the sink. -/
theorem exec_wordSym_wait (b : Byte) (hready : s.din.outReady = false) : exec (.wordSym b) s = .next s :=
  (inRun_run hrun hrst).trans (if_neg (by simp [hready]))

/-- WORD.EOS ends the run with `OK`. -/
theorem exec_wordEos : exec .wordEos s = .next (s.endDec stOk) := inRun_run hrun hrst

/-- WORD.BAD ends the run with `BAD_NODE`. -/
theorem exec_wordBad (x : BitVec 11) (v : Val) : exec (.wordBad x v) s = .next (s.endDec stBadNode) := inRun_run hrun hrst

/-- The word at `node` does what the selected move does. -/
theorem DecMove.exec_decodeNode {t : State} {i : Instr} (hm : DecMove s i t) :
    exec (decodeNode s.nodeWord) s = .next t := by
  cases hm with
  | reset hhigh => simp [hrst] at hhigh
  | start _ hrest | hold _ hrest => simp [hrun] at hrest
  | bit0 _ _ hk hvalid hbit | bit1 _ _ hk hvalid hbit =>
    simp only [decodeNode, hk]
    rw [exec_wordInt_bit hrst hrun _ _ hvalid, hbit]
    rfl
  | end0 _ _ hk hvalid heof hmid | end1 _ _ hk hvalid heof hmid =>
    simp only [decodeNode, hk]
    rw [exec_wordInt_end hrst hrun _ _ hvalid heof, hmid]
    rfl
  | intWait _ _ hk hvalid heof => simp only [decodeNode, hk]; exact exec_wordInt_wait hrst hrun _ _ hvalid heof
  | symOut _ _ hk hready => simp only [decodeNode, hk]; exact exec_wordSym_out hrst hrun _ hready
  | symWait _ _ hk hready => simp only [decodeNode, hk]; exact exec_wordSym_wait hrst hrun _ hready
  | eos _ _ hk => simp only [decodeNode, hk]; exact exec_wordEos hrst hrun
  | bad _ _ hk => simp only [decodeNode, hk]; exact exec_wordBad hrst hrun _ _

end NodeWords

/-- Settles O26, by what each word does on the pins of each clause. -/
theorem nodeWordsExecute : Obligations.NodeWordsExecute := by
  unfold Obligations.NodeWordsExecute
  intro s hrst hrun
  refine ⟨fun l r => ⟨?bit0, ?bit1, ?exhausted, ?wait⟩, fun b => ⟨?out, ?sinkWait⟩, exec_wordEos hrst hrun,
    exec_wordBad hrst hrun⟩
  case bit0 => intro hvalid hbit; rw [exec_wordInt_bit hrst hrun l r hvalid, hbit]; rfl
  case bit1 => intro hvalid hbit; rw [exec_wordInt_bit hrst hrun l r hvalid, hbit]; rfl
  case exhausted => exact exec_wordInt_end hrst hrun l r
  case wait => exact exec_wordInt_wait hrst hrun l r
  case out => exact exec_wordSym_out hrst hrun b
  case sinkWait => exact exec_wordSym_wait hrst hrun b

/-! ## Code entries in FETCH (R172 to R176) -/

section Lookup

variable {s : State} (hin : s.encIn .fetch) (found : Val → State → State)
include hin

/-- A symbol offered is accepted and looked up. -/
theorem lookup_symbol (hvalid : s.ein.inValid = true) :
    lookup s found = .next (found (symIndex s.ein.inData) (s.takeSym s.ein.inData)) := by
  obtain ⟨hrst, hfetch⟩ := hin
  exact (inFetch_fetch hfetch hrst).trans (if_pos hvalid)

/-- On exhaustion the sentinel is looked up. -/
theorem lookup_sentinel (hvalid : s.ein.inValid = false) (heof : s.ein.inEof = true) :
    lookup s found = .next (found Config.eosVal s) := by
  obtain ⟨hrst, hfetch⟩ := hin
  exact (inFetch_fetch hfetch hrst).trans (by rw [if_neg (by simp [hvalid]), if_pos heof])

/-- With neither nothing is looked up. -/
theorem lookup_nothing (hvalid : s.ein.inValid = false) (heof : s.ein.inEof = false) : lookup s found = .next s := by
  obtain ⟨hrst, hfetch⟩ := hin
  exact (inFetch_fetch hfetch hrst).trans (by rw [if_neg (by simp [hvalid]), if_neg (by simp [heof])])

end Lookup

/-- Settles O27: each entry is a lookup, which goes by the pins. -/
theorem codeEntriesExecute : Obligations.CodeEntriesExecute := by
  unfold Obligations.CodeEntriesExecute
  intro s len code hin
  refine ⟨fun hvalid => ?symbol, fun hvalid heof => ?sentinel, fun hvalid heof => ?nothing⟩
  case symbol =>
    simp only [exec, execCNone, execCCode, execCCode256, execCBad, lookup_symbol hin _ hvalid]
    exact ⟨rfl, rfl, rfl, rfl⟩
  case sentinel =>
    simp only [exec, execCNone, execCCode, execCCode256, execCBad, lookup_sentinel hin _ hvalid heof]
    exact ⟨rfl, rfl, rfl, rfl⟩
  case nothing =>
    simp only [exec, execCNone, execCCode, execCCode256, execCBad, lookup_nothing hin _ hvalid heof]
    exact ⟨trivial, trivial, trivial, trivial⟩

/-- What a lookup does with the entry it finds, by the kind of the entry (R172 to R176). -/
def entryFound (e : Entry) (v : Val) (t : State) : State :=
  match classifyEntry e with
  | .none => t.raiseEnc stUnencodable v
  | .code => t.loadCode v (entryLen e)
  | .bad => t.raiseEnc stBadEntry v

/-- Every entry is a lookup with the effect of its kind. -/
theorem exec_decodeEntry (e : Entry) (s : State) : exec (decodeEntry e) s = lookup s (entryFound e) := by
  unfold decodeEntry entryFound
  cases classifyEntry e with
  | none | bad => rfl
  | code =>
    dsimp only
    split_ifs with h256
    · rw [show entryLen e = 256 from BitVec.eq_of_toNat_eq h256]
      rfl
    · rfl

section Entries

variable {s : State} (hin : s.encIn .fetch) {i : Instr} {o : Host.Outcome State Fault Refusal} (hm : EncMove s i o)
include hin hm

/-- The entry of the symbol offered does what the selected move does. -/
theorem EncMove.exec_symEntry (hvalid : s.ein.inValid = true) :
    exec (decodeEntry (s.codeAt (symIndex s.ein.inData))) s = o := by
  have ⟨hrst, hfetch⟩ := hin
  rw [exec_decodeEntry, lookup_symbol hin _ hvalid, entryFound]
  cases hm with
  | symOk _ _ _ hk | symMissing _ _ _ hk | symBadlen _ _ _ hk => rw [hk]
  | reset h => simp [hrst] at h
  | start _ h | hold _ h => simp [hfetch] at h
  | endOk _ _ h | endMissing _ _ h | endBadlen _ _ h | fetchWait _ _ h => simp [hvalid] at h
  | shiftBit _ h | shiftByte _ h | shiftWait _ h | shiftNext _ h | shiftLast _ h | flushByte _ h | flushNone _ h
  | flushWait _ h => simp [hfetch] at h

/-- Where no symbol is offered the sentinel's entry does what the selected move does. -/
theorem EncMove.exec_eosEntry (hvalid : s.ein.inValid = false) : exec (decodeEntry (s.codeAt Config.eosVal)) s = o := by
  have ⟨hrst, hfetch⟩ := hin
  rw [exec_decodeEntry]
  cases hm with
  | endOk _ _ _ heof hk | endMissing _ _ _ heof hk | endBadlen _ _ _ heof hk =>
    rw [lookup_sentinel hin _ hvalid heof, entryFound, hk]
  | fetchWait _ _ _ heof => exact lookup_nothing hin _ hvalid heof
  | reset h => simp [hrst] at h
  | start _ h | hold _ h => simp [hfetch] at h
  | symOk _ _ h | symMissing _ _ h | symBadlen _ _ h => simp [hvalid] at h
  | shiftBit _ h | shiftByte _ h | shiftWait _ h | shiftNext _ h | shiftLast _ h | flushByte _ h | flushNone _ h
  | flushWait _ h => simp [hfetch] at h

end Entries

/-- Settles O30: the step is the selected move, and the word or the entry does what that move does. -/
theorem stepRunsTheDecodedWord : Obligations.StepRunsTheDecodedWord := by
  unfold Obligations.StepRunsTheDecodedWord
  refine fun s => ⟨?node, ?symbol, ?sentinel⟩
  case node =>
    intro p hev hrst hrun
    obtain ⟨t, ht, hm⟩ := exec_selectDec (s.advance.driveDec p)
    exact (step_decClock hev).trans (ht.trans (DecMove.exec_decodeNode (s := s.advance.driveDec p) hrst hrun hm).symm)
  case symbol =>
    intro p hev hrst hfetch hvalid
    have hin : (s.advance.driveEnc p).encIn .fetch := ⟨hrst, hfetch⟩
    exact (step_encClock hev).trans ((exec_selectEnc _).exec_symEntry hin hvalid).symm
  case sentinel =>
    intro p hev hrst hfetch hvalid
    have hin : (s.advance.driveEnc p).encIn .fetch := ⟨hrst, hfetch⟩
    exact (step_encClock hev).trans ((exec_selectEnc _).exec_eosEntry hin hvalid).symm

end Sys2Proof.Machine
end

section
/-! PROOF of O25, O28, O29 and O31. A guard refuses exactly where its step is not selected, because the effect behind it never does; the
fault of an absent code bit and the duties of a host write are those of `fetchBit` and of the write. -/

namespace Sys2Proof.Machine

/-! ## The steps that are refused (log 6) -/

/-- A code bit written or absent is no refusal. -/
theorem withBit_ne_refused (s : State) (k : Bool → State) (r : Refusal) : withBit s k ≠ .refused r := by
  unfold withBit
  split <;> exact nofun

/-- A move of the encoder is no refusal. -/
theorem EncMove.ne_refused {s : State} {i : Instr} {o : Host.Outcome State Fault Refusal} (hm : EncMove s i o) (r : Refusal) :
    o ≠ .refused r := by
  cases hm with
  | shiftBit | shiftByte => exact withBit_ne_refused _ _ _
  | _ => exact nofun

/-- A guarded decoder step is refused exactly where it is not selected. -/
theorem exec_refused_iff_of_onDecLine {i : Instr} {s : State} {o : Host.Outcome State Fault Refusal}
    (h : exec i s = onDecLine i s o) : exec i s = .refused .stepNotSelected ↔ selectDec s.decView ≠ i := by
  refine ⟨?selected, fun hsel => h.trans (onDecLine_unselected hsel)⟩
  rintro hrefused rfl
  obtain ⟨t, ht, -⟩ := exec_selectDec s
  rw [ht] at hrefused
  cases hrefused

/-- A guarded encoder step is refused exactly where it is not selected. -/
theorem exec_refused_iff_of_onEncLine {i : Instr} {s : State} {o : Host.Outcome State Fault Refusal}
    (h : exec i s = onEncLine i s o) : exec i s = .refused .stepNotSelected ↔ selectEnc s.encView ≠ i := by
  refine ⟨?selected, fun hsel => h.trans (onEncLine_unselected hsel)⟩
  rintro hrefused rfl
  exact (exec_selectEnc s).ne_refused _ hrefused

/-- A node word is executed under the guard of RUN, and answers there. -/
theorem exec_decodeNode_eq_inRun (w : NodeWord) (s : State) : ∃ t, exec (decodeNode w) s = inRun s (.next t) := by
  unfold decodeNode
  cases classify w with
  | int =>
    simp only [exec, execWordInt]
    split_ifs <;> exact ⟨_, rfl⟩
  | sym =>
    simp only [exec, execWordSym]
    split_ifs <;> exact ⟨_, rfl⟩
  | eos | bad => exact ⟨_, rfl⟩

/-- A code entry is looked up under the guard of FETCH, and answers there. -/
theorem exec_decodeEntry_eq_inFetch (e : Entry) (s : State) : ∃ t, exec (decodeEntry e) s = inFetch s (.next t) := by
  rw [exec_decodeEntry]
  unfold lookup
  split_ifs <;> exact ⟨_, rfl⟩

/-- Settles O28: the steps by their guards, the words and entries by the guards of RUN and FETCH. -/
theorem unselectedStepsAreRefused : Obligations.UnselectedStepsAreRefused := by
  unfold Obligations.UnselectedStepsAreRefused
  refine fun s i => ⟨?decoder, ?encoder, ?word, ?entry⟩
  case decoder =>
    intro hi
    simp only [List.mem_cons, List.not_mem_nil, or_false] at hi
    rcases hi with rfl | rfl | rfl | rfl | rfl | rfl | rfl | rfl | rfl | rfl | rfl | rfl <;>
      exact exec_refused_iff_of_onDecLine rfl
  case encoder =>
    intro hi
    simp only [List.mem_cons, List.not_mem_nil, or_false] at hi
    rcases hi with rfl | rfl | rfl | rfl | rfl | rfl | rfl | rfl | rfl | rfl | rfl | rfl | rfl | rfl | rfl | rfl | rfl | rfl <;>
      exact exec_refused_iff_of_onEncLine rfl
  case word =>
    intro w
    obtain ⟨t, ht⟩ := exec_decodeNode_eq_inRun w s
    rw [ht, inRun, and_comm (a := s.din.rst = false)]
    split_ifs with hguard <;> simp [hguard]
  case entry =>
    intro e
    obtain ⟨t, ht⟩ := exec_decodeEntry_eq_inFetch e s
    rw [ht, inFetch, State.encIn, and_comm (a := s.ein.rst = false)]
    split_ifs with hguard <;> simp [hguard]

/-! ## The step selected -/

/-- Settles O29: the state of the edge is the one with the event off the list, the step counted and the pins driven. -/
theorem stepRunsTheSelectedStep : Obligations.StepRunsTheSelectedStep := by
  unfold Obligations.StepRunsTheSelectedStep
  exact fun s => ⟨fun p hev => step_decClock hev, fun p hev => step_encClock hev⟩

/-! ## A code bit that does not exist (log 4, log 5) -/

/-- A step that writes a code bit stops with the fault of a bit that does not exist. -/
theorem withBit_fault {s : State} {f : Fault} (h : s.fetchBit = .error f) (k : Bool → State) : withBit s k = .fault f := by
  rw [withBit, h]

/-- Settles O25, by the moves SHIFT.BIT and SHIFT.BYTE and what `fetchBit` finds missing. -/
theorem absentCodeBitFaults : Obligations.AbsentCodeBitFaults := by
  unfold Obligations.AbsentCodeBitFaults
  intro s ⟨hrst, hshift⟩ hrem
  have faults : ∀ f, s.fetchBit = .error f →
      (s.enc.cnt ≠ 7 → exec .shiftBit s = .fault f) ∧
      (s.enc.cnt = 7 → s.ein.outReady = true → exec .shiftByte s = .fault f) := fun f hf =>
    ⟨fun hcnt => (EncMove.shiftBit hrst hshift hrem hcnt).exec_eq.trans (withBit_fault hf _),
      fun hcnt hready => (EncMove.shiftByte hrst hshift hrem hcnt hready).exec_eq.trans (withBit_fault hf _)⟩
  refine ⟨fun hcur => faults _ ?noIndex, fun hcur hlen => faults _ ?noBit⟩
  case noIndex => exact if_pos hcur
  case noBit => exact (if_neg (by omega)).trans (if_pos hlen)

/-! ## The host's writes (R64) -/

/-- Settles O31: a write done is read back, and it is done exactly while the block is at rest, at an index that exists. -/
theorem hostWritesOnlyAtRest : Obligations.HostWritesOnlyAtRest := by
  unfold Obligations.HostWritesOnlyAtRest
  refine fun s => ⟨fun a w hev => ⟨?nodeBusy, ?nodeRest⟩, fun i e hev => ⟨?noIndex, ?codeBusy, ?codeRest⟩⟩
  case nodeBusy =>
    intro hrun
    have hbusy : s.decBusy = true := beq_iff_eq.mpr hrun
    rw [step_writeNode hev, if_pos hbusy]
  case nodeRest =>
    intro hrest
    have hbusy : ¬ s.decBusy = true := fun h => hrest (beq_iff_eq.mp h)
    refine ⟨s.advance.setNode a w, ?_, State.nodeAt_setNode_self _ a w, ?_, fun _ => rfl, rfl, rfl, rfl, rfl, rfl, rfl⟩
    · rw [step_writeNode hev, if_neg hbusy]
    · exact fun b hb => State.nodeAt_setNode_other s.advance a b w hb
  case noIndex =>
    intro hi
    rw [step_writeCode hev, if_pos hi]
  case codeBusy =>
    intro hi hbusy
    rw [step_writeCode hev, if_neg (by omega), if_pos hbusy]
  case codeRest =>
    intro hi hrest
    refine ⟨s.advance.setCode i e, ?_, State.codeAt_setCode_self _ i e, ?_, fun _ => rfl, rfl, rfl, rfl, rfl, rfl, rfl⟩
    · rw [step_writeCode hev, if_neg (by omega), if_neg (by simp [hrest])]
    · exact fun j hj => State.codeAt_setCode_other s.advance i j e hj

end Sys2Proof.Machine
end

section
/-! PROOF of O43, O44, O49 and O57. Each move of R87 and R88 takes or puts out the item its handshake outputs name, holds what is offered
and not taken, and but for the waits and the idles changes a register or a stream. -/

namespace Sys2Proof.Machine

/-! ## The items a decoder move takes and puts out (R66, R146) -/

section DecItems

variable {s t : State} {i : Instr} (hm : DecMove s i t)
include hm

/-- In RUN a move takes one bit, or puts one byte out, or moves nothing (R146). -/
theorem DecMove.items_of_run (hrst : s.din.rst = false) (hrun : s.dec.dstate = .run) :
    (i ∈ [.intB0, .intB1] ∧ (∃ b, t.bitsIn = s.bitsIn ++ [b]) ∧ t.decOut = s.decOut) ∨
    (i = .symOut ∧ t.bitsIn = s.bitsIn ∧ ∃ v, t.decOut = s.decOut ++ [v]) ∨
    (i ∈ [.intEnd0, .intEnd1, .intWait, .symWait, .eos, .bad] ∧ t.bitsIn = s.bitsIn ∧ t.decOut = s.decOut) := by
  cases hm with
  | reset hhigh => simp [hrst] at hhigh
  | start _ hrest | hold _ hrest => simp [hrun] at hrest
  | bit0 | bit1 => exact .inl ⟨by decide, ⟨_, rfl⟩, rfl⟩
  | symOut => exact .inr (.inl ⟨rfl, rfl, _, rfl⟩)
  | end0 | end1 | intWait | symWait | eos | bad => exact .inr (.inr ⟨by decide, rfl, rfl⟩)

/-- Without reset a move takes a bit exactly when `bit_ready` and `bit_valid` are both 1, and it is the one on the wires. -/
theorem DecMove.bitsIn_eq (hrst : s.din.rst = false) :
    t.bitsIn = if s.bitReady && s.din.bitValid then s.bitsIn ++ [s.din.bitData] else s.bitsIn := by
  cases hm with
  | reset hhigh => simp [hrst] at hhigh
  | start _ hrest | hold _ hrest => simp [s.bitReady_of_decAtRest hrest, State.startDec]
  | bit0 _ hrun hk hvalid hbit | bit1 _ hrun hk hvalid hbit =>
    simp [s.bitReady_of_decRuns ⟨hrst, hrun, hk⟩, hvalid, hbit, State.goChild]
  | end0 _ hrun hk hvalid | end1 _ hrun hk hvalid | intWait _ hrun hk hvalid => simp [hvalid, State.endDec]
  | symOut _ hrun hk | symWait _ hrun hk | eos _ hrun hk | bad _ hrun hk =>
    simp [s.bitReady_of_decRuns ⟨hrst, hrun, hk⟩, State.goRoot, State.endDec]

/-- Without reset a move puts a byte out exactly when `out_valid` and `out_ready` are both 1, and it is the one on the wires. -/
theorem DecMove.decOut_eq (hrst : s.din.rst = false) :
    t.decOut = if s.decOutValid && s.din.outReady then s.decOut ++ [byteOf s.nodeWord] else s.decOut := by
  cases hm with
  | reset hhigh => simp [hrst] at hhigh
  | start _ hrest | hold _ hrest => simp [s.decOutValid_of_decAtRest hrest, State.startDec]
  | symOut _ hrun hk hready => simp [s.decOutValid_of_decRuns ⟨hrst, hrun, hk⟩, hready, State.goRoot]
  | symWait _ hrun hk hready => simp [hready]
  | bit0 _ hrun hk | bit1 _ hrun hk | end0 _ hrun hk | end1 _ hrun hk | intWait _ hrun hk | eos _ hrun hk | bad _ hrun hk =>
    simp [s.decOutValid_of_decRuns ⟨hrst, hrun, hk⟩, State.goChild, State.endDec]

/-- A byte offered and not taken is held: nothing changes. -/
theorem DecMove.eq_of_offer (hrst : s.din.rst = false) (hoffer : s.decOutValid = true) (hready : s.din.outReady = false) :
    t = s := by
  cases hm with
  | reset hhigh => simp [hrst] at hhigh
  | start _ hrest | hold _ hrest => simp [s.decOutValid_of_decAtRest hrest] at hoffer
  | symOut _ _ _ h => simp [hready] at h
  | symWait => rfl
  | bit0 _ hrun hk | bit1 _ hrun hk | end0 _ hrun hk | end1 _ hrun hk | intWait _ hrun hk | eos _ hrun hk | bad _ hrun hk =>
    simp [s.decOutValid_of_decRuns ⟨hrst, hrun, hk⟩] at hoffer

/-- But for the waits and the idle a move changes a register or moves an item (R261). -/
theorem DecMove.progress (hrst : s.din.rst = false) (hi : i ∉ [.decHold, .intWait, .symWait]) :
    t.dec ≠ s.dec ∨ t.bitsIn ≠ s.bitsIn ∨ t.decOut ≠ s.decOut := by
  cases hm with
  | reset hhigh => simp [hrst] at hhigh
  | start _ hrest =>
    refine .inl fun h => ?_
    have hrun : s.dec.dstate = .run := (congrArg DecRegs.dstate h).symm
    simp [hrun] at hrest
  | bit0 | bit1 => exact .inr (.inl (by simp [State.goChild]))
  | symOut => exact .inr (.inr (by simp [State.goRoot]))
  | end0 _ hrun | end1 _ hrun | eos _ hrun | bad _ hrun =>
    refine .inl fun h => ?_
    have hdone : s.dec.dstate = .done := (congrArg DecRegs.dstate h).symm
    simp [hrun] at hdone
  | hold | intWait | symWait => simp at hi

end DecItems

/-- Settles O43, by the move of the edge. -/
theorem oneItemMovesPerDecoderStep : Obligations.OneItemMovesPerDecoderStep := by
  unfold Obligations.OneItemMovesPerDecoderStep
  intro s t p hev hrst hrun h
  exact (decMove_of_step hev h).items_of_run hrst hrun

/-! ## The items an encoder move takes and puts out -/

/-- A byte offered does not depend on the step it is offered in (R31). -/
theorem State.encOutData_of_valid {s t : State} (hoffer : s.encOutValid = true) (henc : t.enc = s.enc)
    (hcode : t.codeMem = s.codeMem) : t.encOutData = s.encOutData := by
  have hbit : t.nextBit = s.nextBit := by simp [State.nextBit, henc, State.codeAt_congr hcode]
  have hshift : t.shiftFull = s.shiftFull := by simp [State.shiftFull, henc]
  have hflush : t.flushFull = s.flushFull := by simp [State.flushFull, henc]
  rw [State.encOutValid, Bool.or_eq_true] at hoffer
  rw [State.encOutData, State.encOutData, hbit, hshift, hflush, henc]
  rcases hoffer with h | h <;> simp [h]

section EncItems

variable {s t : State} {i : Instr} (hm : EncMove s i (.next t)) (hrst : s.ein.rst = false)
include hm hrst

/-- Without reset a move takes a symbol exactly when `in_ready` and `in_valid` are both 1, and it is the one on the wires. -/
theorem EncMove.symsIn_eq :
    t.symsIn = if s.inReady && s.ein.inValid then s.symsIn ++ [s.ein.inData] else s.symsIn := by
  -- The answer is made a variable: that of SHIFT.BIT and SHIFT.BYTE is no constructor.
  generalize ho : Host.Outcome.next t = o at hm
  cases hm with
  | reset hhigh => simp [hrst] at hhigh
  | start _ hrest | hold _ hrest => cases ho; simp [s.inReady_of_encAtRest hrest, State.startEnc]
  | symOk _ hst hvalid | symMissing _ hst hvalid | symBadlen _ hst hvalid =>
    cases ho
    simp [s.inReady_of_encIn ⟨hrst, hst⟩, hvalid, State.loadCode, State.raiseEnc]
  | endOk _ hst hvalid | endMissing _ hst hvalid | endBadlen _ hst hvalid | fetchWait _ hst hvalid =>
    cases ho
    simp [hvalid, State.loadCode, State.raiseEnc]
  | shiftBit _ hst | shiftByte _ hst =>
    obtain ⟨-, -, rfl⟩ := withBit_next ho.symm
    simp [s.inReady_of_encIn ⟨hrst, hst⟩, State.pushBit, State.byteDone]
  | shiftWait _ hst | shiftNext _ hst | shiftLast _ hst | flushByte _ hst | flushNone _ hst | flushWait _ hst =>
    cases ho
    simp [s.inReady_of_encIn ⟨hrst, hst⟩, State.goEnc, State.clearWriter, State.endEnc]

/-- Without reset a move puts a byte out exactly when `out_valid` and `out_ready` are both 1, and it is the one on the wires. -/
theorem EncMove.encOut_eq :
    t.encOut = if s.encOutValid && s.ein.outReady then s.encOut ++ [s.encOutData] else s.encOut := by
  generalize ho : Host.Outcome.next t = o at hm
  cases hm with
  | reset hhigh => simp [hrst] at hhigh
  | start _ hrest | hold _ hrest => cases ho; simp [s.encOutValid_of_encAtRest hrest, State.startEnc]
  | symOk _ hst | symMissing _ hst | symBadlen _ hst | endOk _ hst | endMissing _ hst | endBadlen _ hst | fetchWait _ hst =>
    cases ho
    simp [s.encOutValid_of_fetch ⟨hrst, hst⟩, State.loadCode, State.raiseEnc]
  | shiftBit _ hst hrem hcnt =>
    obtain ⟨-, -, rfl⟩ := withBit_next ho.symm
    rw [s.encOutValid_of_shift ⟨hrst, hst⟩, beq_false_of_ne hcnt]
    simp [State.pushBit]
  | shiftByte _ hst hrem hcnt hready =>
    obtain ⟨-, -, rfl⟩ := withBit_next ho.symm
    obtain ⟨hoffer, hdata⟩ := s.encOut_of_shift ⟨hrst, hst⟩ hrem hcnt
    simp [hoffer, hdata, hready, State.byteDone]
  | shiftNext _ hst hrem | shiftLast _ hst hrem =>
    cases ho
    simp [s.encOutValid_of_shift ⟨hrst, hst⟩, hrem, State.goEnc]
  | flushByte _ hst hcnt hready =>
    cases ho
    obtain ⟨hoffer, hdata⟩ := s.encOut_of_flush ⟨hrst, hst⟩ hcnt
    simp [hoffer, hdata, hready, State.clearWriter, State.endEnc]
  | flushNone _ hst hcnt => cases ho; simp [s.encOutValid_of_flush ⟨hrst, hst⟩, hcnt, State.endEnc]
  | shiftWait _ _ _ _ hready | flushWait _ _ _ hready => cases ho; simp [hready]

/-- A byte offered and not taken is held: nothing changes. -/
theorem EncMove.eq_of_offer (hoffer : s.encOutValid = true) (hready : s.ein.outReady = false) : t = s := by
  generalize ho : Host.Outcome.next t = o at hm
  cases hm with
  | reset hhigh => simp [hrst] at hhigh
  | start _ hrest => simp [s.encOutValid_of_encAtRest hrest] at hoffer
  | symOk _ hst | symMissing _ hst | symBadlen _ hst | endOk _ hst | endMissing _ hst | endBadlen _ hst =>
    simp [s.encOutValid_of_fetch ⟨hrst, hst⟩] at hoffer
  | shiftBit _ hst _ hcnt =>
    rw [s.encOutValid_of_shift ⟨hrst, hst⟩, beq_false_of_ne hcnt] at hoffer
    simp at hoffer
  | shiftNext _ hst hrem | shiftLast _ hst hrem => simp [s.encOutValid_of_shift ⟨hrst, hst⟩, hrem] at hoffer
  | flushNone _ hst hcnt => simp [s.encOutValid_of_flush ⟨hrst, hst⟩, hcnt] at hoffer
  | shiftByte _ _ _ _ h | flushByte _ _ _ h => simp [hready] at h
  | hold | fetchWait | shiftWait | flushWait => cases ho; rfl

/-- But for the waits and the idle a move changes a register (R261). -/
theorem EncMove.progress (hi : i ∉ [.encHold, .fetchWait, .shiftWait, .flushWait]) : t.enc ≠ s.enc := by
  generalize ho : Host.Outcome.next t = o at hm
  intro h
  cases hm with
  | reset hhigh => simp [hrst] at hhigh
  | start _ hrest =>
    cases ho
    have hfetch : s.enc.estate = .fetch := (congrArg EncRegs.estate h).symm
    simp [hfetch] at hrest
  | symOk _ hst | symMissing _ hst | symBadlen _ hst | endOk _ hst | endMissing _ hst | endBadlen _ hst | shiftNext _ hst
  | shiftLast _ hst | flushByte _ hst | flushNone _ hst =>
    cases ho
    have hstate := congrArg EncRegs.estate h
    simp [hst, State.loadCode, State.raiseEnc, State.goEnc, State.endEnc] at hstate
  | shiftBit =>
    obtain ⟨-, -, rfl⟩ := withBit_next ho.symm
    have hcnt : s.enc.cnt + 1 = s.enc.cnt := congrArg EncRegs.cnt h
    simp at hcnt
  | shiftByte _ _ _ hcnt =>
    obtain ⟨-, -, rfl⟩ := withBit_next ho.symm
    have hzero : 0 = s.enc.cnt := congrArg EncRegs.cnt h
    simp [hcnt] at hzero
  | hold | fetchWait | shiftWait | flushWait => simp at hi

end EncItems

/-- Settles O44: the outputs do not look at the pins, and each move takes and puts out what they name. -/
theorem handshakeMovesAndHolds : Obligations.HandshakeMovesAndHolds := by
  unfold Obligations.HandshakeMovesAndHolds
  refine ⟨fun _ _ => ⟨rfl, rfl, rfl⟩, fun _ _ => ⟨rfl, rfl, rfl⟩, ?decoder, ?encoder⟩
  case decoder =>
    intro s t p hev hrst h
    have hm := decMove_of_step hev h
    refine ⟨hm.bitsIn_eq hrst, ?put, ?held⟩
    case put =>
      rw [hm.decOut_eq hrst]
      by_cases hoffer : s.decOutValid = true
      · rw [State.decOutData_of_valid hoffer]
        rfl
      · have hnone : (s.advance.driveDec p).decOutValid = false := eq_false_of_ne_true hoffer
        simp [hoffer, hnone]
    case held =>
      intro hoffer hready
      obtain rfl := hm.eq_of_offer hrst hoffer hready
      refine ⟨rfl, hoffer, ?_⟩
      rw [State.decOutData_of_valid hoffer]
      exact State.decOutData_of_valid (s := s.advance.driveDec p) hoffer
  case encoder =>
    intro s t p hev hrst h
    have hm := encMove_of_step hev h
    have hdata : s.encOutValid = true → (s.advance.driveEnc p).encOutData = s.encOutData :=
      fun hoffer => State.encOutData_of_valid hoffer rfl rfl
    refine ⟨hm.symsIn_eq hrst, ?put, ?held⟩
    case put =>
      rw [hm.encOut_eq hrst]
      by_cases hoffer : s.encOutValid = true
      · rw [hdata hoffer]
        rfl
      · have hnone : (s.advance.driveEnc p).encOutValid = false := eq_false_of_ne_true hoffer
        simp [hoffer, hnone]
    case held =>
      intro hoffer hready
      obtain rfl := hm.eq_of_offer hrst hoffer hready
      exact ⟨rfl, hoffer, hdata hoffer⟩

/-- Settles O49, by the move of the edge. -/
theorem edgesMakeProgress : Obligations.EdgesMakeProgress := by
  unfold Obligations.EdgesMakeProgress
  exact ⟨fun s t p hev hrst h hi => (decMove_of_step hev h).progress hrst hi,
    fun s t p hev hrst h hi => (encMove_of_step hev h).progress hrst hi⟩

/-! ## Trees of one node (R144) -/

/-- A decoder edge makes the move whose conditions hold on its pins. -/
theorem step_of_decMove {s t : State} {p : DecPins} {i : Instr} (hev : s.nextEvent = .decClock p)
    (hm : DecMove (s.advance.driveDec p) i t) : step s = .next t := by
  rw [step_decClock hev, hm.selected]
  exact hm.exec_eq

/-- Settles O57: at a leaf in ROOT the move is EOS, SYM.OUT or SYM.WAIT. -/
theorem rootLeafRuns : Obligations.RootLeafRuns := by
  unfold Obligations.RootLeafRuns
  intro s t p hev hrst hrun hnode h
  have hword : (s.advance.driveDec p).nodeWord = s.nodeAt 0 := congrArg s.nodeAt hnode
  refine ⟨fun heos => ?sentinel, fun b hsym => ?symbol⟩
  case sentinel =>
    have hk : classify (s.advance.driveDec p).nodeWord = .eos := by rw [hword, heos]; decide
    have hs := h.symm.trans (step_of_decMove hev (.eos hrst hrun hk))
    cases hs
    exact ⟨rfl, rfl, rfl, rfl⟩
  case symbol =>
    have hk : classify (s.advance.driveDec p).nodeWord = .sym := by rw [hword, hsym, classify_leafWord]
    cases hready : p.outReady with
    | true =>
      have hs := h.symm.trans (step_of_decMove hev (.symOut hrst hrun hk hready))
      cases hs
      refine ⟨hrun, rfl, rfl, rfl, ?_⟩
      show s.decOut ++ [byteOf _] = s.decOut ++ [b]
      rw [hword, hsym, byteOf_leafWord]
    | false =>
      have hs := h.symm.trans (step_of_decMove hev (.symWait hrst hrun hk hready))
      cases hs
      exact ⟨hrun, hnode, rfl, rfl, rfl⟩

end Sys2Proof.Machine
end

section
/-! PROOF of O56. Where a tree is represented, the word is that of its root, and its sub-trees are represented at the children. So a
decoder on the image of a tree stands at a sub-tree of it, and a bit taken leads to a sub-tree of that. -/

namespace Sys2Proof.Machine

/-! ## The word at a represented tree -/

section Represents

variable {M : NodeAddr → NodeWord} {a : NodeAddr}

/-- The word of a represented leaf is the leaf's. -/
theorem Represents.leaf_word {v : LeafValue} (h : Represents M a (.leaf v)) : M a = leafWord v := h

/-- The word of a represented Internal node is an Internal word. -/
theorem Represents.internal_word {l r : Tree} (h : Represents M a (.internal l r)) : classify (M a) = .int := classify_int h.1

/-- The sub-tree a bit leads to is represented at the child the bit names (R83). -/
theorem Represents.child {l r : Tree} (h : Represents M a (.internal l r)) (b : Bool) :
    Represents M (child (M a) b) (if b then r else l) := by
  obtain ⟨-, hl, hr⟩ := h
  cases b
  · exact hl
  · exact hr

/-- The word at a represented tree is not reserved. -/
theorem Represents.word_ne_bad {t : Tree} (h : Represents M a t) : classify (M a) ≠ .bad := by
  cases t with
  | leaf v =>
    rw [h.leaf_word, classify_leafWord]
    cases v <;> exact nofun
  | internal l r =>
    rw [h.internal_word]
    exact nofun

/-- A tree whose word is Internal is an Internal node. -/
theorem Represents.exists_internal {t : Tree} (h : Represents M a t) (hk : classify (M a) = .int) :
    ∃ l r, t = .internal l r := by
  cases t with
  | leaf v =>
    rw [h.leaf_word, classify_leafWord] at hk
    cases v <;> cases hk
  | internal l r => exact ⟨l, r, rfl⟩

end Represents

/-! ## Sub-trees -/

/-- A sub-tree other than the tree itself is smaller. -/
theorem Tree.Below.size_lt {u t : Tree} (h : u.Below t) : u.size < t.size := by
  induction t with
  | leaf => exact h.elim
  | internal l r ihl ihr =>
    rw [Tree.size]
    rcases h with rfl | rfl | h | h
    · omega
    · omega
    · have := ihl h
      omega
    · have := ihr h
      omega

/-- The children of a node below a tree are below it. -/
theorem Tree.Below.child {l r t : Tree} (h : (Tree.internal l r).Below t) (b : Bool) :
    (if b then r else l : Tree).Below t := by
  have hchild : (if b then r else l : Tree).Below (.internal l r) := by cases b <;> simp [Tree.Below]
  induction t with
  | leaf => exact h.elim
  | internal l' r' ihl ihr =>
    rcases h with rfl | rfl | h | h
    · exact .inr (.inr (.inl hchild))
    · exact .inr (.inr (.inr hchild))
    · exact .inr (.inr (.inl (ihl h)))
    · exact .inr (.inr (.inr (ihr h)))

/-! ## The walk (R119) -/

/-- On the image in RUN the decoder stands at the tree itself with no bit taken, or at a sub-tree with some. -/
theorem State.OnImage.subtree {s : State} {t : Tree} (h : s.OnImage t) (hrun : s.dec.dstate = .run) :
    ∃ u, Represents s.nodes s.dec.node u ∧ (s.dec.mid = false ∧ u = t ∨ s.dec.mid = true ∧ u.Below t) := by
  rcases h.place hrun with ⟨hmid, hnode⟩ | ⟨hmid, u, hbelow, hu⟩
  · exact ⟨t, by rw [hnode]; exact h.image, .inl ⟨hmid, rfl⟩⟩
  · exact ⟨u, hu, .inr ⟨hmid, hbelow⟩⟩

/-- A bit taken on the image leads to a sub-tree. -/
theorem State.OnImage.child {s : State} {t : Tree} (h : s.OnImage t) (hrun : s.dec.dstate = .run)
    (hk : classify s.nodeWord = .int) (b : Bool) : ∃ u, u.Below t ∧ Represents s.nodes (child s.nodeWord b) u := by
  obtain ⟨u, hu, hplace⟩ := h.subtree hrun
  obtain ⟨l, r, rfl⟩ := hu.exists_internal hk
  refine ⟨_, ?_, hu.child b⟩
  rcases hplace with ⟨-, rfl⟩ | ⟨-, hbelow⟩
  · cases b <;> simp [Tree.Below]
  · exact hbelow.child b

/-- A decoder move keeps on the image. -/
theorem DecMove.onImage {s s' : State} {t : Tree} {i : Instr} (hm : DecMove s i s') (h : s.OnImage t) : s'.OnImage t := by
  cases hm with
  | reset => exact ⟨h.image, nofun, nofun⟩
  | start => exact ⟨h.image, nofun, fun _ => .inl ⟨rfl, rfl⟩⟩
  | bit0 _ hrun hk => exact ⟨h.image, h.status, fun _ => .inr ⟨rfl, h.child hrun hk false⟩⟩
  | bit1 _ hrun hk => exact ⟨h.image, h.status, fun _ => .inr ⟨rfl, h.child hrun hk true⟩⟩
  | symOut => exact ⟨h.image, h.status, fun _ => .inl ⟨rfl, rfl⟩⟩
  | end0 | end1 | eos => exact ⟨h.image, nofun, nofun⟩
  | bad _ hrun hk =>
    obtain ⟨u, hu, -⟩ := h.subtree hrun
    exact absurd hk hu.word_ne_bad
  | hold | intWait | symWait => exact h

/-- Settles O56: a clock edge is a decoder move, which keeps on the image, or leaves the decoder and `NODE` alone. -/
theorem wellFormedImageIsWalked : Obligations.WellFormedImageIsWalked := by
  unfold Obligations.WellFormedImageIsWalked
  refine ⟨?start, ?step, ?stands⟩
  case start =>
    intro s s' t himage h
    obtain rfl : s' = s.startDec := eq_of_onDecLine_next h
    exact ⟨himage, nofun, fun _ => .inl ⟨rfl, rfl⟩⟩
  case step =>
    intro s s' t h hclocked hstep
    rcases hclocked with ⟨p, hev⟩ | ⟨p, hev⟩
    · exact (decMove_of_step hev hstep).onImage ⟨h.image, h.status, h.place⟩
    · obtain ⟨hdec, hnodes, -⟩ := (encMove_of_step hev hstep).frame rfl
      have hM : s'.nodes = s.nodes := funext (State.nodeAt_congr hnodes)
      exact ⟨hM ▸ h.image, hdec ▸ h.status, by rw [hdec, hM]; exact h.place⟩
  case stands =>
    intro s t h hrun
    obtain ⟨u, hu, hplace⟩ := h.subtree hrun
    refine ⟨⟨fun hroot => ?noBit, fun hmid => ?atRoot⟩, hu.word_ne_bad⟩
    case noBit =>
      rcases hplace with ⟨hmid, -⟩ | ⟨-, hbelow⟩
      · exact hmid
      · rw [hroot] at hu
        obtain rfl : u = t := hu.unique h.image
        exact absurd hbelow.size_lt (lt_irrefl _)
    case atRoot =>
      rcases h.place hrun with ⟨-, hnode⟩ | ⟨hmid', -⟩
      · exact hnode
      · simp [hmid] at hmid'

end Sys2Proof.Machine
end

section
/-! PROOF of O50, O51 and O53. The codes of an Internal node are the codes of its sub-trees behind a first bit, 0 on the left and 1 on the
right; so codes on the two sides differ in that bit, and codes on one side differ further down. The walk that builds the table
appends exactly the codes, until it meets a value that stands on a leaf before. -/

namespace Sys2Proof.Machine

/-! ## The codes of a tree (R111, R112) -/

/-- The codes from a path are the codes of the tree behind that path. -/
theorem Tree.codesFrom_eq_map (t : Tree) (p : List Bool) : t.codesFrom p = t.codes.map (fun x => (x.1, p ++ x.2)) := by
  induction t generalizing p with
  | leaf v => simp [Tree.codes, Tree.codesFrom]
  | internal l r ihl ihr =>
    simp only [Tree.codes, Tree.codesFrom, List.nil_append]
    rw [ihl (p ++ [false]), ihr (p ++ [true]), ihl [false], ihr [true]]
    simp [Function.comp_def]

@[simp] theorem Tree.codes_leaf (v : LeafValue) : (Tree.leaf v).codes = [(v, [])] := rfl

/-- The codes of an Internal node begin with 0 on the left and with 1 on the right. -/
theorem Tree.codes_internal (l r : Tree) :
    (Tree.internal l r).codes = l.codes.map (fun x => (x.1, false :: x.2)) ++ r.codes.map (fun x => (x.1, true :: x.2)) := by
  show l.codesFrom [false] ++ r.codesFrom [true] = _
  rw [Tree.codesFrom_eq_map, Tree.codesFrom_eq_map]
  rfl

/-- Settles O50, by induction on the tree: the first bit tells the two sides apart, and below it the sub-trees do. -/
theorem codesArePrefixFree : Obligations.CodesArePrefixFree := by
  unfold Obligations.CodesArePrefixFree
  intro t
  induction t with
  | leaf v => exact List.pairwise_singleton _ _
  | internal l r ihl ihr =>
    rw [Tree.codes_internal, List.pairwise_append, List.pairwise_map, List.pairwise_map]
    refine ⟨by simpa using ihl, by simpa using ihr, ?sides⟩
    case sides =>
      intro x hx y hy
      obtain ⟨x', -, rfl⟩ := List.mem_map.mp hx
      obtain ⟨y', -, rfl⟩ := List.mem_map.mp hy
      simp

/-! ## The bounds of a tree (R116) -/

theorem Tree.internals_add_one (t : Tree) : t.internals + 1 = t.leaves.length := by
  induction t with
  | leaf => rfl
  | internal l r ihl ihr =>
    rw [Tree.internals, Tree.leaves, List.length_append]
    omega

theorem Tree.size_add_one (t : Tree) : t.size + 1 = 2 * t.leaves.length := by
  induction t with
  | leaf => rfl
  | internal l r ihl ihr =>
    rw [Tree.size, Tree.leaves, List.length_append]
    omega

/-- A code has at most one bit for each Internal node. -/
theorem Tree.code_length_le (t : Tree) : ∀ x ∈ t.codes, x.2.length ≤ t.internals := by
  induction t with
  | leaf v => simp [Tree.internals]
  | internal l r ihl ihr =>
    intro x hx
    rw [Tree.codes_internal, List.mem_append, List.mem_map, List.mem_map] at hx
    rw [Tree.internals]
    rcases hx with ⟨y, hy, rfl⟩ | ⟨y, hy, rfl⟩
    · have := ihl y hy
      simp only [List.length_cons]
      omega
    · have := ihr y hy
      simp only [List.length_cons]
      omega

/-- The index of a leaf value is at most 256 (R6). -/
theorem LeafValue.val_le (v : LeafValue) : v.val.toNat ≤ 256 := by
  cases v with
  | sym b => exact symIndex_le b
  | eos => decide

/-- A byte's index is the byte. -/
theorem symIndex_toNat (b : Byte) : (symIndex b).toNat = b.toNat := by
  have := b.isLt
  simp [symIndex]
  omega

/-- The leaf value with the index of a leaf value is that value (R6). -/
@[simp] theorem leafOfIndex_val (v : LeafValue) : leafOfIndex v.val.toNat = some v := by
  cases v with
  | sym b =>
    have := b.isLt
    rw [LeafValue.val, symIndex_toNat, leafOfIndex, if_pos (by omega), BitVec.ofNat_toNat, BitVec.setWidth_eq]
  | eos => decide

/-- The index says which leaf value it is. -/
theorem LeafValue.val_injective {v w : LeafValue} (h : v.val.toNat = w.val.toNat) : v = w := by
  have hv := leafOfIndex_val v
  rw [h, leafOfIndex_val] at hv
  exact (Option.some.inj hv).symm

/-- There are 257 leaf values. -/
theorem Tree.leaves_length_le {t : Tree} (h : t.DistinctLeaves) : t.leaves.length ≤ 257 := by
  have hnodup : (t.leaves.map (fun v => v.val.toNat)).Nodup := h.map fun _ _ => LeafValue.val_injective
  have hsub : t.leaves.map (fun v => v.val.toNat) ⊆ List.range 257 := by
    intro i hi
    obtain ⟨v, -, rfl⟩ := List.mem_map.mp hi
    exact List.mem_range.mpr (Nat.lt_succ_of_le v.val_le)
  simpa using (List.subperm_of_subset hnodup hsub).length_le

/-- Settles O51: the counts by induction on the tree, the bounds by the number of leaf values. -/
theorem treeBounds : Obligations.TreeBounds := by
  unfold Obligations.TreeBounds Config.nNodesMax Config.maxLen
  intro t
  have hinternals := t.internals_add_one
  have hsize := t.size_add_one
  refine ⟨hinternals, hsize, fun hdistinct => ?_⟩
  have hleaves := Tree.leaves_length_le hdistinct
  refine ⟨hleaves, by omega, by omega, fun x hx => ?_⟩
  have := t.code_length_le x hx
  omega

/-! ## The encoding table (R160, R162) -/

/-- A table has a code for a value exactly where it lists the value. -/
theorem CodeTable.find_isSome_iff (T : CodeTable) (v : LeafValue) : (T.find v).isSome = true ↔ v ∈ T.map (fun e => e.1) := by
  simp [CodeTable.find]

/-- In a table without repeated values the code of a value is the one listed with it. -/
theorem CodeTable.find_eq_some_iff {T : CodeTable} (h : (T.map (fun e => e.1)).Nodup) (v : LeafValue) (p : List Bool) :
    T.find v = some p ↔ (v, p) ∈ T := by
  induction T with
  | nil => simp [CodeTable.find]
  | cons e T ih =>
    obtain ⟨w, q⟩ := e
    obtain ⟨hw, hT⟩ := List.nodup_cons.mp h
    by_cases hvw : v = w
    · subst hvw
      have hnot : (v, p) ∉ T := fun hmem => hw (List.mem_map_of_mem (f := fun e => e.1) hmem)
      simp [CodeTable.find, List.lookup, hnot, eq_comm]
    · simpa [CodeTable.find, List.lookup, hvw, beq_false_of_ne hvw] using ih hT

/-- The walk of a tree without repeated values, and none of the table's, appends its codes. -/
theorem walkTable_eq_ok {t : Tree} {p : List Bool} {T : CodeTable} (h : (T.map (fun e => e.1) ++ t.leaves).Nodup) :
    walkTable p T t = .ok (T ++ t.codesFrom p) := by
  induction t generalizing p T with
  | leaf v =>
    have hnew : ¬ (T.find v).isSome = true := by
      rw [CodeTable.find_isSome_iff]
      exact fun hmem => List.disjoint_of_nodup_append h hmem (List.mem_singleton_self v)
    exact if_neg hnew
  | internal l r ihl ihr =>
    rw [Tree.leaves, ← List.append_assoc] at h
    have hright : ((T ++ l.codesFrom (p ++ [false])).map (fun e => e.1) ++ r.leaves).Nodup := by
      rwa [List.map_append, Tree.codesFrom_leaves]
    simp only [walkTable, ihl h.of_append_left, ihr hright, Tree.codesFrom, List.append_assoc]

/-- The walk of a tree that repeats a value, of its own or of the table's, is refused with such a value. -/
theorem walkTable_eq_error {t : Tree} {p : List Bool} {T : CodeTable} (hT : (T.map (fun e => e.1)).Nodup)
    (h : ¬ (T.map (fun e => e.1) ++ t.leaves).Nodup) :
    ∃ v, walkTable p T t = .error v ∧ 2 ≤ (T.map (fun e => e.1) ++ t.leaves).count v := by
  induction t generalizing p T with
  | leaf v =>
    have hmem : v ∈ T.map (fun e => e.1) := by
      by_contra hnot
      exact h (hT.append (List.nodup_singleton v) (List.disjoint_singleton.mpr hnot))
    refine ⟨v, if_pos ((T.find_isSome_iff v).mpr hmem), ?_⟩
    have := List.count_pos_iff.mpr hmem
    simp only [Tree.leaves, List.count_append, List.count_singleton_self]
    omega
  | internal l r ihl ihr =>
    rw [Tree.leaves, ← List.append_assoc] at h ⊢
    by_cases hl : (T.map (fun e => e.1) ++ l.leaves).Nodup
    · have hkeys : (T ++ l.codesFrom (p ++ [false])).map (fun e => e.1) = T.map (fun e => e.1) ++ l.leaves := by
        rw [List.map_append, Tree.codesFrom_leaves]
      obtain ⟨v, hv, hcount⟩ := ihr (p := p ++ [true]) (T := T ++ l.codesFrom (p ++ [false])) (hkeys ▸ hl) (hkeys ▸ h)
      rw [hkeys] at hcount
      exact ⟨v, by simp only [walkTable, walkTable_eq_ok hl, hv], hcount⟩
    · obtain ⟨v, hv, hcount⟩ := ihl (p := p ++ [false]) hT hl
      refine ⟨v, by simp only [walkTable, hv], ?_⟩
      rw [List.count_append]
      omega

/-- The table of a tree with distinct leaf values lists its codes. -/
theorem buildTable_eq_codes {t : Tree} (h : t.DistinctLeaves) : buildTable t = .ok t.codes := walkTable_eq_ok h

/-- In the table of a tree with distinct leaf values a leaf value has its code. -/
theorem Tree.find_codes_iff {t : Tree} (h : t.DistinctLeaves) (v : LeafValue) (p : List Bool) :
    CodeTable.find t.codes v = some p ↔ (v, p) ∈ t.codes :=
  CodeTable.find_eq_some_iff (by rwa [Tree.codes, Tree.codesFrom_leaves]) v p

/-- Settles O53: the walk appends the codes, or is refused with a repeated value. -/
theorem buildTableRecordsTheCodes : Obligations.BuildTableRecordsTheCodes := by
  unfold Obligations.BuildTableRecordsTheCodes
  exact fun t => ⟨fun h => ⟨t.codes, buildTable_eq_codes h, Tree.find_codes_iff h⟩,
    fun h => walkTable_eq_error List.nodup_nil h⟩

end Sys2Proof.Machine
end

section
/-! PROOF of O52 and O54. The addresses of a canonical memory rise strictly, so the host's writes, one after another, leave it to be read
as it is listed. The canonical image lists consecutive addresses with the children where their words say, and the code memory
the entry of every index. -/

namespace Sys2Proof.Machine

/-! ## Memories with consecutive addresses -/

/-- A memory whose addresses are consecutive and within the depth is canonical. -/
theorem Memory.risingFrom_of_range' {n depth lo : Nat} {m : Memory n} (hkeys : m.map (fun c => c.1) = List.range' lo m.length)
    (hdepth : lo + m.length ≤ depth) : Memory.risingFrom depth lo m = true := by
  induction m generalizing lo with
  | nil => rfl
  | cons c rest ih =>
    obtain ⟨k, w⟩ := c
    rw [List.map_cons, List.length_cons, List.range'_succ, List.cons.injEq] at hkeys
    obtain ⟨rfl, hrest⟩ := hkeys
    rw [List.length_cons] at hdepth
    simp [Memory.risingFrom, ih hrest (by omega)]
    omega

/-- A canonical memory reads at a listed address as listed. -/
theorem Memory.get?_of_mem {n depth lo : Nat} {m : Memory n} (hm : Memory.risingFrom depth lo m = true) {a : Nat} {w : BitVec n}
    (h : (a, w) ∈ m) : Memory.get? m a = some w := by
  induction m generalizing lo with
  | nil => simp at h
  | cons c rest ih =>
    obtain ⟨k, x⟩ := c
    simp only [Memory.risingFrom, Bool.and_eq_true, Nat.ble_eq, Nat.blt_eq] at hm
    obtain ⟨-, hrest⟩ := hm
    rw [Memory.get?_cons]
    split_ifs with hk
    · rcases List.mem_cons.mp h with heq | hmem
      · cases heq
        rfl
      · have hbelow := Memory.get?_below depth (k + 1) rest hrest a (by omega)
        rw [ih hrest hmem] at hbelow
        cases hbelow
    · rcases List.mem_cons.mp h with heq | hmem
      · cases heq
        exact absurd rfl hk
      · exact ih hrest hmem

/-! ## The host loads a memory (R253) -/

/-- A decoder at rest is not busy. -/
theorem State.decBusy_of_decAtRest {s : State} (h : s.decAtRest) : s.decBusy = false := by
  rcases h with h | h <;> simp [State.decBusy, h]

/-- An encoder at rest is not busy. -/
theorem State.encBusy_of_encAtRest {s : State} (h : s.encAtRest) : s.encBusy = false := by
  rcases h with h | h <;> simp [State.encBusy, h]

/-- Node words loaded while the decoder is at rest are read where they are listed, every other word and register is as before. -/
theorem loadNodes_spec {m : Memory 21} {lo : Nat} {s : State} (hm : Memory.risingFrom Config.nodeDepth lo m = true)
    (hrest : s.decAtRest) :
    ∃ s', loadNodes s m = some s' ∧ s'.dec = s.dec ∧ s'.enc = s.enc ∧ s'.codeMem = s.codeMem ∧
      ∀ b, s'.nodeAt b = (Memory.get? m b.toNat).getD (s.nodeAt b) := by
  induction m generalizing lo s with
  | nil => exact ⟨s, rfl, rfl, rfl, rfl, fun _ => rfl⟩
  | cons c rest ih =>
    obtain ⟨k, w⟩ := c
    simp only [Memory.risingFrom, Bool.and_eq_true, Nat.ble_eq, Nat.blt_eq] at hm
    obtain ⟨⟨-, hk⟩, hrising⟩ := hm
    have hkey : (BitVec.ofNat 10 k).toNat = k := Nat.mod_eq_of_lt hk
    have hstep : step (s.before (.writeNode (BitVec.ofNat 10 k) w)) =
        .next ((s.before (.writeNode (BitVec.ofNat 10 k) w)).advance.setNode (BitVec.ofNat 10 k) w) := by
      rw [step_writeNode rfl, if_neg (by simp [State.decBusy_of_decAtRest (s := s.before _) hrest])]
    obtain ⟨s', hload, hdec, henc, hcode, hread⟩ :=
      ih (s := (s.before (.writeNode (BitVec.ofNat 10 k) w)).advance.setNode (BitVec.ofNat 10 k) w) hrising hrest
    refine ⟨s', by rw [loadNodes, hstep]; exact hload, hdec, henc, hcode, fun b => ?_⟩
    rw [hread b, Memory.get?_cons]
    split_ifs with hkb
    · rw [Memory.get?_below Config.nodeDepth (k + 1) rest hrising b.toNat (by omega)]
      have hb : b = BitVec.ofNat 10 k := BitVec.eq_of_toNat_eq (by omega)
      rw [hb]
      exact State.nodeAt_setNode_self _ _ _
    · have hb : b ≠ BitVec.ofNat 10 k := fun h => hkb (by rw [h, hkey])
      rw [State.nodeAt_setNode_other _ _ _ _ hb]
      rfl

/-- Code entries loaded while the encoder is at rest are read where they are listed, every other entry and register is as before. -/
theorem loadCodes_spec {m : Memory 266} {lo : Nat} {s : State} (hm : Memory.risingFrom Config.codeN lo m = true)
    (hrest : s.encAtRest) :
    ∃ s', loadCodes s m = some s' ∧ s'.dec = s.dec ∧ s'.enc = s.enc ∧ s'.nodeMem = s.nodeMem ∧
      ∀ j, s'.codeAt j = (Memory.get? m j.toNat).getD (s.codeAt j) := by
  induction m generalizing lo s with
  | nil => exact ⟨s, rfl, rfl, rfl, rfl, fun _ => rfl⟩
  | cons c rest ih =>
    obtain ⟨k, e⟩ := c
    simp only [Memory.risingFrom, Bool.and_eq_true, Nat.ble_eq, Nat.blt_eq, Config.codeN] at hm
    obtain ⟨⟨-, hk⟩, hrising⟩ := hm
    have hkey : (BitVec.ofNat 9 k).toNat = k := Nat.mod_eq_of_lt (by omega)
    have hstep : step (s.before (.writeCode (BitVec.ofNat 9 k) e)) =
        .next ((s.before (.writeCode (BitVec.ofNat 9 k) e)).advance.setCode (BitVec.ofNat 9 k) e) := by
      rw [step_writeCode rfl, if_neg (by omega), if_neg (by simp [State.encBusy_of_encAtRest (s := s.before _) hrest])]
    obtain ⟨s', hload, hdec, henc, hnode, hread⟩ :=
      ih (s := (s.before (.writeCode (BitVec.ofNat 9 k) e)).advance.setCode (BitVec.ofNat 9 k) e) hrising hrest
    refine ⟨s', by rw [loadCodes, hstep]; exact hload, hdec, henc, hnode, fun j => ?_⟩
    rw [hread j, Memory.get?_cons]
    split_ifs with hkj
    · rw [Memory.get?_below Config.codeN (k + 1) rest hrising j.toNat (by omega)]
      have hj : j = BitVec.ofNat 9 k := BitVec.eq_of_toNat_eq (by omega)
      rw [hj]
      exact State.codeAt_setCode_self _ _ _
    · have hj : j ≠ BitVec.ofNat 9 k := fun h => hkj (by rw [h, hkey])
      rw [State.codeAt_setCode_other _ _ _ _ hj]
      rfl

/-! ## The canonical image (R115) -/

@[simp] theorem placeTree_length (next : Nat) (t : Tree) : (placeTree next t).length = t.size := by
  induction t generalizing next with
  | leaf => rfl
  | internal l r ihl ihr =>
    simp only [placeTree, List.length_cons, List.length_append, ihl, ihr, Tree.size]
    omega

/-- The image fills consecutive addresses. -/
theorem placeTree_keys (next : Nat) (t : Tree) : (placeTree next t).map (fun c => c.1) = List.range' next t.size := by
  induction t generalizing next with
  | leaf => rfl
  | internal l r ihl ihr =>
    rw [placeTree, List.map_cons, List.map_append, ihl, ihr, List.range'_append_1, Tree.size,
      show 1 + l.size + r.size = l.size + r.size + 1 by omega, List.range'_succ]

/-- The image of a tree that fits is canonical. -/
theorem placeTree_risingFrom {next : Nat} {t : Tree} (h : next + t.size ≤ Config.nodeDepth) :
    Memory.risingFrom Config.nodeDepth next (placeTree next t) = true :=
  Memory.risingFrom_of_range' (by rw [placeTree_keys, placeTree_length]) (by rwa [placeTree_length])

theorem Tree.size_pos (t : Tree) : 0 < t.size := by
  cases t <;> simp only [Tree.size] <;> omega

/-- The left child of an Internal node of the image stands at the next address. -/
theorem placeTree_left {next : Nat} {t : Tree} (hfits : next + t.size ≤ Config.nodeDepth) {a : Nat} {w : NodeWord}
    (h : (a, w) ∈ placeTree next t) (hint : leafFlag w = false) : (leftOf w).toNat = a + 1 := by
  induction t generalizing next with
  | leaf v =>
    obtain ⟨-, rfl⟩ := Prod.mk.inj (List.mem_singleton.mp h)
    simp at hint
  | internal l r ihl ihr =>
    rw [Tree.size, Config.nodeDepth] at hfits
    rw [placeTree, List.mem_cons, List.mem_append] at h
    rcases h with h | h | h
    · obtain ⟨rfl, rfl⟩ := Prod.mk.inj h
      have := l.size_pos
      rw [leftOf_internalWord]
      exact Nat.mod_eq_of_lt (by omega)
    · exact ihl (by rw [Config.nodeDepth]; omega) h
    · exact ihr (by rw [Config.nodeDepth]; omega) h

/-- A memory that reads as the image lists represents the tree (R114). -/
theorem represents_of_placeTree {M : NodeAddr → NodeWord} {next : Nat} {t : Tree}
    (h : ∀ a w, (a, w) ∈ placeTree next t → M (BitVec.ofNat 10 a) = w) : Represents M (BitVec.ofNat 10 next) t := by
  induction t generalizing next with
  | leaf v => exact h next _ (List.mem_singleton_self _)
  | internal l r ihl ihr =>
    have hroot := h next _ List.mem_cons_self
    have hl : Represents M (BitVec.ofNat 10 (next + 1)) l :=
      ihl fun a w hmem => h a w (List.mem_cons_of_mem _ (List.mem_append_left _ hmem))
    have hr : Represents M (BitVec.ofNat 10 (next + 1 + l.size)) r :=
      ihr fun a w hmem => h a w (List.mem_cons_of_mem _ (List.mem_append_right _ hmem))
    rw [Represents, hroot, leafFlag_internalWord, leftOf_internalWord, rightOf_internalWord]
    exact ⟨rfl, hl, hr⟩

/-- A tree of at most 1024 nodes is loaded as its image while the decoder is at rest. -/
theorem loadNodes_placeTree {t : Tree} (hfits : t.size ≤ Config.nodeDepth) {s : State} (hrest : s.decAtRest) :
    ∃ s', loadNodes s (placeTree 0 t) = some s' ∧ Image s'.nodes t ∧ s'.dec = s.dec ∧ s'.enc = s.enc ∧
      s'.codeMem = s.codeMem := by
  have hrising : Memory.risingFrom Config.nodeDepth 0 (placeTree 0 t) = true := placeTree_risingFrom (by omega)
  obtain ⟨s', hload, hdec, henc, hcode, hread⟩ := loadNodes_spec hrising hrest
  refine ⟨s', hload, represents_of_placeTree fun a w hmem => ?_, hdec, henc, hcode⟩
  have hkey : a ∈ List.range' 0 t.size := placeTree_keys 0 t ▸ List.mem_map_of_mem (f := fun c => c.1) hmem
  rw [List.mem_range'_1] at hkey
  rw [Config.nodeDepth] at hfits
  have ha : (BitVec.ofNat 10 a).toNat = a := Nat.mod_eq_of_lt (by omega)
  show s'.nodeAt (BitVec.ofNat 10 a) = w
  rw [hread, ha, Memory.get?_of_mem hrising hmem]
  rfl

/-- Settles O52: what the image lists, and what loading it gives. -/
theorem buildImageIsAnImage : Obligations.BuildImageIsAnImage := by
  unfold Obligations.BuildImageIsAnImage buildImage
  intro t
  by_cases hfits : t.size ≤ Config.nodeDepth
  · rw [if_pos hfits]
    refine ⟨iff_of_true rfl hfits, ?_⟩
    rintro m ⟨⟩
    refine ⟨placeTree_risingFrom (by omega), ?keys, fun a w => placeTree_left (by omega), fun s => loadNodes_placeTree hfits⟩
    case keys => rw [placeTree_keys, List.range_eq_range']
  · rw [if_neg hfits]
    exact ⟨iff_of_false nofun hfits, nofun⟩

/-! ## The bits of an entry (R163) -/

/-- The code read as a number: a bit more at the end doubles it. -/
theorem valueOfBits_append (p : List Bool) (b : Bool) : valueOfBits (p ++ [b]) = 2 * valueOfBits p + b.toNat := by
  simp [valueOfBits]

/-- The bits of the number are the code's, the last one least significant. -/
theorem valueOfBits_testBit (p : List Bool) (i : Nat) : (valueOfBits p).testBit i = p.reverse.getD i false := by
  induction p using List.reverseRecOn generalizing i with
  | nil => simp [valueOfBits]
  | append_singleton p b ih =>
    rw [valueOfBits_append, List.reverse_append]
    cases i with
    | zero => cases b <;> simp [Nat.testBit_zero]
    | succ i =>
      have hhalf : (2 * valueOfBits p + b.toNat) / 2 = valueOfBits p := by cases b <;> simp; omega
      rw [Nat.testBit_succ, hhalf, ih i]
      rfl

section Entry

variable {p : List Bool} (hp : p.length ≤ 256)
include hp

theorem entryLen_entryOfCode : (entryLen (entryOfCode p)).toNat = p.length := by
  rw [entryOfCode, entryLen_encodeEntry]
  exact Nat.mod_eq_of_lt (by omega)

theorem classifyEntry_entryOfCode : classifyEntry (entryOfCode p) = .code :=
  classifyEntry_code (entryValid_encodeEntry _ _ _) (by rwa [entryLen_entryOfCode hp])

omit hp in
/-- A bit of the code field is the bit of the code with so many behind it, or 0 above the code. -/
theorem entryOfCode_getLsbD {i : Nat} (hi : i < 256) : (entryOfCode p).getLsbD i = p.reverse.getD i false := by
  rw [entryOfCode, encodeEntry, three_parts_getLsbD, if_pos hi, BitVec.getLsbD_ofNat, valueOfBits_testBit]
  simp [hi]

/-- The bits of the entry of a code are the code (R86, R163). -/
theorem codeBits_entryOfCode : codeBits (entryOfCode p) = p := by
  apply List.ext_getElem
  · rw [codeBits_length, entryLen_entryOfCode hp]
  · intro j hj hjp
    have hlast : p.length - 1 - (p.length - 1 - j) = j := by omega
    simp only [codeBits, List.getElem_map, List.getElem_range, entryLen_entryOfCode hp]
    rw [entryOfCode_getLsbD (by omega), List.getD_eq_getElem _ _ (by rw [List.length_reverse]; omega), List.getElem_reverse]
    simp only [hlast]

end Entry

/-! ## The code memory (R163) -/

/-- The code memory of a table lists every index from 0 to 256. -/
theorem buildCodeMem_keys {T : CodeTable} {m : Memory 266} (h : buildCodeMem T = some m) :
    (∀ e ∈ T, e.2.length ≤ 256) ∧ m = (List.range Config.codeN).map (fun i => (i, tableEntry T i)) := by
  unfold buildCodeMem at h
  split_ifs at h with hall
  simp only [List.all_eq_true, Nat.ble_eq] at hall
  exact ⟨hall, (Option.some.inj h).symm⟩

/-- So it is canonical. -/
theorem codeMem_risingFrom (T : CodeTable) :
    Memory.risingFrom Config.codeN 0 ((List.range Config.codeN).map (fun i => (i, tableEntry T i))) = true :=
  Memory.risingFrom_of_range' (by simp [Function.comp_def, List.range_eq_range']) (by simp)

/-- Loaded while the encoder is at rest, it holds the entry of every leaf value. -/
theorem loadCodes_codeMem (T : CodeTable) {s : State} (hrest : s.encAtRest) :
    ∃ s', loadCodes s ((List.range Config.codeN).map (fun i => (i, tableEntry T i))) = some s' ∧ s'.dec = s.dec ∧
      s'.enc = s.enc ∧ s'.nodeMem = s.nodeMem ∧
      ∀ v : LeafValue, s'.codeAt v.val = ((CodeTable.find T v).map entryOfCode).getD 0 := by
  obtain ⟨s', hload, hdec, henc, hnode, hread⟩ := loadCodes_spec (codeMem_risingFrom T) hrest
  refine ⟨s', hload, hdec, henc, hnode, fun v => ?_⟩
  have hmem : (v.val.toNat, tableEntry T v.val.toNat) ∈ (List.range Config.codeN).map (fun i => (i, tableEntry T i)) :=
    List.mem_map_of_mem (List.mem_range.mpr (Nat.lt_succ_of_le v.val_le))
  rw [hread, Memory.get?_of_mem (codeMem_risingFrom T) hmem, Option.getD_some, tableEntry, leafOfIndex_val, Option.bind_some]
  cases CodeTable.find T v <;> rfl

/-- Settles O54: the entries listed are read back, and each is the entry of its code, or 0. -/
theorem buildCodeMemHoldsTheTable : Obligations.BuildCodeMemHoldsTheTable := by
  unfold Obligations.BuildCodeMemHoldsTheTable
  intro T m s hbuild hrest
  obtain ⟨hlength, rfl⟩ := buildCodeMem_keys hbuild
  obtain ⟨s', hload, hdec, henc, hnode, hread⟩ := loadCodes_codeMem T hrest
  refine ⟨codeMem_risingFrom T, s', hload, henc, hdec, hnode, fun v => ⟨fun p hfind => ?entry, fun hfind => ?none⟩⟩
  case entry =>
    have hp : p.length ≤ 256 := by
      obtain ⟨before, behind, rfl, -⟩ := List.lookup_eq_some_iff.mp hfind
      exact hlength (v, p) (by simp)
    have he : s'.codeAt v.val = entryOfCode p := by rw [hread, hfind]; rfl
    rw [he]
    refine ⟨entryValid_encodeEntry _ _ _, entryLen_entryOfCode hp, codeBits_entryOfCode hp, fun j hj hj256 => ?_⟩
    rw [entryOfCode_getLsbD hj256]
    exact List.getD_eq_default _ _ (by rwa [List.length_reverse])
  case none => rw [hread, hfind]; rfl

end Sys2Proof.Machine
end

section
/-! Runs of a block against its source, as steps one after another: what is reached, what stays once it holds, and what a fair
environment brings about. For the proofs of O58, O59 and O60. -/

namespace Sys2Proof.Machine

section Reaches

variable {ρ : Type} {f : Nat → ρ → Option ρ}

/-- The steps `n` to `m - 1` lead from `r` to `r'`. -/
inductive Reaches (f : Nat → ρ → Option ρ) : Nat → ρ → Nat → ρ → Prop where
  | refl (n : Nat) (r : ρ) : Reaches f n r n r
  | step {n m : Nat} {r q r' : ρ} : f n r = some q → Reaches f (n + 1) q m r' → Reaches f n r m r'

theorem Reaches.trans {n m k : Nat} {r q r' : ρ} (h : Reaches f n r m q) (h' : Reaches f m q k r') : Reaches f n r k r' := by
  induction h with
  | refl => exact h'
  | step hstep _ ih => exact .step hstep (ih h')

theorem Reaches.le {n m : Nat} {r r' : ρ} (h : Reaches f n r m r') : n ≤ m := by
  induction h with
  | refl => exact Nat.le_refl _
  | step _ _ ih => exact Nat.le_of_succ_le ih

/-- The steps lead to one place only. -/
theorem Reaches.unique {n m : Nat} {r r' r'' : ρ} (h : Reaches f n r m r') (h' : Reaches f n r m r'') : r' = r'' := by
  induction h with
  | refl n r =>
    cases h' with
    | refl => rfl
    | step _ hrest => exact absurd hrest.le (Nat.not_succ_le_self _)
  | step hstep hrest ih =>
    cases h' with
    | refl => exact absurd hrest.le (Nat.not_succ_le_self _)
    | step hstep' hrest' =>
      obtain rfl := Option.some.inj (hstep.symm.trans hstep')
      exact ih hrest'

/-- On the way to step `m` every step before it is passed. -/
theorem Reaches.between {n m j : Nat} {r r' : ρ} (h : Reaches f n r m r') (hn : n ≤ j) (hm : j ≤ m) :
    ∃ q, Reaches f n r j q ∧ Reaches f j q m r' := by
  induction h with
  | refl n r =>
    obtain rfl : j = n := by omega
    exact ⟨r, .refl _ _, .refl _ _⟩
  | @step n m r q r' hstep hrest ih =>
    rcases Nat.eq_or_lt_of_le hn with rfl | hlt
    · exact ⟨r, .refl _ _, .step hstep hrest⟩
    · obtain ⟨p, hp, hp'⟩ := ih hlt hm
      exact ⟨p, .step hstep hp, hp'⟩

/-- What every step keeps holds at every later step. -/
theorem Reaches.persists {P : ρ → Prop} (hstep : ∀ n r, P r → ∃ q, f n r = some q ∧ P q) {n m : Nat} {r : ρ} (hr : P r)
    (hle : n ≤ m) : ∃ r', Reaches f n r m r' ∧ P r' := by
  induction m, hle using Nat.le_induction with
  | base => exact ⟨r, .refl _ _, hr⟩
  | succ m _ ih =>
    obtain ⟨q, hq, hPq⟩ := ih
    obtain ⟨r', hr', hPr'⟩ := hstep m q hPq
    exact ⟨r', hq.trans (.step hr' (.refl _ _)), hPr'⟩

/-- Where every step leads from `P` to `Q`, or stays in `P` while the environment stalls, a fair environment brings `Q` about. -/
theorem Reaches.eventually {P Q : ρ → Prop} {answers : Nat → Bool} (hfair : ∀ n, ∃ m, n ≤ m ∧ answers m = true)
    (hstep : ∀ n r, P r → ∃ q, f n r = some q ∧ (Q q ∨ answers n = false ∧ P q)) {n : Nat} {r : ρ} (hr : P r) :
    ∃ m r', n < m ∧ Reaches f n r m r' ∧ Q r' := by
  obtain ⟨m, hle, hm⟩ := hfair n
  obtain ⟨d, rfl⟩ := Nat.exists_eq_add_of_le hle
  induction d generalizing n r with
  | zero =>
    obtain ⟨q, hq, hQ | ⟨hstall, -⟩⟩ := hstep n r hr
    · exact ⟨n + 1, q, Nat.lt_succ_self n, .step hq (.refl _ _), hQ⟩
    · rw [Nat.add_zero, hstall] at hm
      cases hm
  | succ d ih =>
    obtain ⟨q, hq, hQ | ⟨-, hP⟩⟩ := hstep n r hr
    · exact ⟨n + 1, q, Nat.lt_succ_self n, .step hq (.refl _ _), hQ⟩
    · obtain ⟨m, r', hlt, hreach, hQ⟩ := ih hP (Nat.le_add_right _ _) (by rwa [show n + 1 + d = n + (d + 1) by omega])
      exact ⟨m, r', by omega, .step hq hreach, hQ⟩

end Reaches

/-- In a fair environment a source that is asked answers again and again (R261). -/
theorem Stalls.Fair.answers_again {e : Stalls} (h : e.Fair) : ∀ n, ∃ m, n ≤ m ∧ e.answers m = true := h.1

/-- In a fair environment the sink becomes ready again and again (R261). -/
theorem Stalls.Fair.ready_again {e : Stalls} (h : e.Fair) : ∀ n, ∃ m, n ≤ m ∧ e.ready m = true := h.2

/-- A run of the decoder goes on from where it is. -/
theorem feedDec_of_reaches {e : Stalls} {n m : Nat} {r₀ r r' : Running Bool} (hr : feedDec e n r₀ = some r)
    (h : Reaches (feedDecStep e) n r m r') : feedDec e m r₀ = some r' := by
  induction h with
  | refl => exact hr
  | step hstep _ ih => exact ih (by rw [feedDec, hr, Option.bind_some, hstep])

/-- A run of the encoder goes on from where it is. -/
theorem feedEnc_of_reaches {e : Stalls} {n m : Nat} {r₀ r r' : Running Byte} (hr : feedEnc e n r₀ = some r)
    (h : Reaches (feedEncStep e) n r m r') : feedEnc e m r₀ = some r' := by
  induction h with
  | refl => exact hr
  | step hstep _ ih => exact ih (by rw [feedEnc, hr, Option.bind_some, hstep])

end Sys2Proof.Machine
end

section
/-! PROOF of O58. A decoder in RUN at a sub-tree either takes the next bit to the child it names, or ends on exhaustion, or puts the
leaf's byte out and goes back to the root, or ends at the sentinel: the clauses of DecodeOne and of DecodeAll, one for one. A fair
environment lets it go on; where DecodeAll does not end, each of its calls brings another byte. -/

namespace Sys2Proof.Machine

/-! ## Where the decoder is in a run -/

/-- The decoder is in RUN at the sub-tree `u` of the image in `M`: `bits` are left in the source, `taken` have been taken and `out`
put out. -/
structure DecodingAt (M : NodeAddr → NodeWord) (u : Tree) (mid : Bool) (bits taken : List Bool) (out : List Byte)
    (r : Running Bool) : Prop where
  run : r.state.dec.dstate = .run
  nodes : r.state.nodes = M
  subtree : Represents M r.state.dec.node u
  mid_eq : r.state.dec.mid = mid
  src : r.src = bits
  bitsIn : r.state.bitsIn = taken
  decOut : r.state.decOut = out

/-- The decoder's run has ended with this status. -/
structure DecodingEnded (status : StatusCode) (bits taken : List Bool) (out : List Byte) (r : Running Bool) : Prop where
  done : r.state.dec.dstate = .done
  status_eq : r.state.dec.dstatus = status
  src : r.src = bits
  bitsIn : r.state.bitsIn = taken
  decOut : r.state.decOut = out

/-- The state a decoder edge meets. -/
abbrev State.edgeDec (p : DecPins) (s : State) : State := ((s.before (.decClock p)).advance).driveDec p

/-- A step against the source is the move whose conditions hold on the pins of the source. -/
theorem feedDecStep_of_move {e : Stalls} {n : Nat} {r : Running Bool} {t : State} {i : Instr}
    (hm : DecMove (r.state.edgeDec (sourcePinsDec e n r)) i t) :
    feedDecStep e n r = some (r.after e n r.state.bitReady t) := by
  rw [feedDecStep, decEdge, step_of_decMove rfl hm]

section Steps

variable {M : NodeAddr → NodeWord} {u₀ u₁ : Tree} {mid : Bool} {bits taken : List Bool} {out : List Byte} {e : Stalls} {n : Nat}
  {r : Running Bool}

/-- At an Internal node the decoder waits for a bit, and asks for it. -/
theorem DecodingAt.internal (h : DecodingAt M (.internal u₀ u₁) mid bits taken out r) :
    classify r.state.nodeWord = .int ∧ r.state.bitReady = true := by
  have hk : classify r.state.nodeWord = .int := by
    have := h.subtree.internal_word
    rwa [← h.nodes] at this
  exact ⟨hk, by simp [State.bitReady, h.run, hk]⟩

/-- At a leaf the word is the leaf's, and the decoder asks for no bit. -/
theorem DecodingAt.leaf {v : LeafValue} (h : DecodingAt M (.leaf v) mid bits taken out r) :
    r.state.nodeWord = leafWord v ∧ r.state.bitReady = false := by
  have hword : r.state.nodeWord = leafWord v := by
    have := h.subtree.leaf_word
    rwa [← h.nodes] at this
  refine ⟨hword, ?_⟩
  cases v <;> simp [State.bitReady, hword, classify_leafWord]

/-- A bit offered is taken to the child it names. -/
theorem DecodingAt.step_bit {b : Bool} (h : DecodingAt M (.internal u₀ u₁) mid (b :: bits) taken out r)
    (hanswers : e.answers n = true) :
    ∃ q, feedDecStep e n r = some q ∧ DecodingAt M (if b then u₁ else u₀) true bits (taken ++ [b]) out q := by
  obtain ⟨hk, hready⟩ := h.internal
  have hoffer : r.offers e n = true := by simp [Running.offers, hanswers, h.src]
  have hbit : (sourcePinsDec e n r).bitData = b := by simp [sourcePinsDec, h.src]
  have hsrc : ∀ t, (r.after e n r.state.bitReady t).src = bits := fun t => by
    rw [Running.after_src, hready, hoffer, h.src]
    rfl
  have hchild : Represents M (child r.state.nodeWord b) (if b then u₁ else u₀) := by
    have := h.subtree.child b
    rwa [← h.nodes] at this ⊢
  cases b with
  | false =>
    have hm := DecMove.bit0 (s := r.state.edgeDec (sourcePinsDec e n r)) rfl h.run hk hoffer hbit
    exact ⟨_, feedDecStep_of_move hm, h.run, h.nodes, hchild, rfl, hsrc _, congrArg (· ++ [false]) h.bitsIn, h.decOut⟩
  | true =>
    have hm := DecMove.bit1 (s := r.state.edgeDec (sourcePinsDec e n r)) rfl h.run hk hoffer hbit
    exact ⟨_, feedDecStep_of_move hm, h.run, h.nodes, hchild, rfl, hsrc _, congrArg (· ++ [true]) h.bitsIn, h.decOut⟩

/-- Without a bit and without exhaustion the decoder waits. -/
theorem DecodingAt.step_wait (h : DecodingAt M (.internal u₀ u₁) mid bits taken out r)
    (hoffer : r.offers e n = false) (hexhausted : r.exhausted e n = false) :
    ∃ q, feedDecStep e n r = some q ∧ DecodingAt M (.internal u₀ u₁) mid bits taken out q := by
  obtain ⟨hk, -⟩ := h.internal
  have hm := DecMove.intWait (s := r.state.edgeDec (sourcePinsDec e n r)) rfl h.run hk hoffer hexhausted
  refine ⟨_, feedDecStep_of_move hm, h.run, h.nodes, h.subtree, h.mid_eq, ?_, h.bitsIn, h.decOut⟩
  rw [Running.after_src, hoffer, Bool.and_false]
  exact h.src

/-- Exhaustion ends the run. -/
theorem DecodingAt.step_end (h : DecodingAt M (.internal u₀ u₁) mid [] taken out r) (hexhausted : r.exhausted e n = true) :
    ∃ q, feedDecStep e n r = some q ∧ DecodingEnded (if mid then stTruncated else stEndNoEos) [] taken out q := by
  obtain ⟨hk, -⟩ := h.internal
  have hoffer : r.offers e n = false := by simp [Running.offers, h.src]
  have hsrc : ∀ t, (r.after e n r.state.bitReady t).src = [] := fun t => by
    rw [Running.after_src, hoffer, Bool.and_false]
    exact h.src
  cases mid with
  | false =>
    have hm := DecMove.end0 (s := r.state.edgeDec (sourcePinsDec e n r)) rfl h.run hk hoffer hexhausted h.mid_eq
    exact ⟨_, feedDecStep_of_move hm, rfl, rfl, hsrc _, h.bitsIn, h.decOut⟩
  | true =>
    have hm := DecMove.end1 (s := r.state.edgeDec (sourcePinsDec e n r)) rfl h.run hk hoffer hexhausted h.mid_eq
    exact ⟨_, feedDecStep_of_move hm, rfl, rfl, hsrc _, h.bitsIn, h.decOut⟩

/-- A ready sink takes the byte of a leaf, and the decoder goes back to the root. -/
theorem DecodingAt.step_out {t : Tree} (himage : Image M t) {b : Byte}
    (h : DecodingAt M (.leaf (.sym b)) mid bits taken out r) (hready : e.ready n = true) :
    ∃ q, feedDecStep e n r = some q ∧ DecodingAt M t false bits taken (out ++ [b]) q := by
  obtain ⟨hword, hnoBit⟩ := h.leaf
  have hk : classify r.state.nodeWord = .sym := by rw [hword, classify_leafWord]
  have hm := DecMove.symOut (s := r.state.edgeDec (sourcePinsDec e n r)) rfl h.run hk hready
  rw [show (r.state.edgeDec (sourcePinsDec e n r)).nodeWord = leafWord (.sym b) from hword, byteOf_leafWord] at hm
  refine ⟨_, feedDecStep_of_move hm, h.run, h.nodes, himage, rfl, ?_, h.bitsIn, congrArg (· ++ [b]) h.decOut⟩
  rw [hnoBit]
  exact h.src

/-- While the sink is not ready the decoder holds the byte of a leaf. -/
theorem DecodingAt.step_hold {b : Byte} (h : DecodingAt M (.leaf (.sym b)) mid bits taken out r) (hready : e.ready n = false) :
    ∃ q, feedDecStep e n r = some q ∧ DecodingAt M (.leaf (.sym b)) mid bits taken out q := by
  obtain ⟨hword, hnoBit⟩ := h.leaf
  have hk : classify r.state.nodeWord = .sym := by rw [hword, classify_leafWord]
  have hm := DecMove.symWait (s := r.state.edgeDec (sourcePinsDec e n r)) rfl h.run hk hready
  refine ⟨_, feedDecStep_of_move hm, h.run, h.nodes, h.subtree, h.mid_eq, ?_, h.bitsIn, h.decOut⟩
  rw [hnoBit]
  exact h.src

/-- The sentinel ends the run. -/
theorem DecodingAt.step_eos (h : DecodingAt M (.leaf .eos) mid bits taken out r) :
    ∃ q, feedDecStep e n r = some q ∧ DecodingEnded stOk bits taken out q := by
  obtain ⟨hword, hnoBit⟩ := h.leaf
  have hk : classify r.state.nodeWord = .eos := by rw [hword, classify_leafWord]
  have hm := DecMove.eos (s := r.state.edgeDec (sourcePinsDec e n r)) rfl h.run hk
  refine ⟨_, feedDecStep_of_move hm, rfl, rfl, ?_, h.bitsIn, h.decOut⟩
  rw [hnoBit]
  exact h.src

/-- A decoder that is not in RUN stays so: nothing asserts `start` or reset. -/
theorem feedDecStep_hold (hrest : r.state.decAtRest) :
    feedDecStep e n r = some (r.after e n false (r.state.edgeDec (sourcePinsDec e n r))) := by
  have hm := DecMove.hold (s := r.state.edgeDec (sourcePinsDec e n r)) rfl hrest rfl
  rw [feedDecStep_of_move hm, r.state.bitReady_of_decAtRest hrest]

/-- A run that has ended stays so. -/
theorem DecodingEnded.step {status : StatusCode} (h : DecodingEnded status bits taken out r) :
    ∃ q, feedDecStep e n r = some q ∧ DecodingEnded status bits taken out q :=
  ⟨_, feedDecStep_hold (.inr h.done), h.done, h.status_eq, h.src, h.bitsIn, h.decOut⟩

end Steps

/-! ## A fair environment lets the decoder go on -/

section Fair

variable {M : NodeAddr → NodeWord} {u₀ u₁ : Tree} {mid : Bool} {bits taken : List Bool} {out : List Byte} {e : Stalls} {n : Nat}
  {r : Running Bool} (hfair : e.Fair)
include hfair

/-- A bit left in the source is taken in the end. -/
theorem DecodingAt.takes_bit {b : Bool} (h : DecodingAt M (.internal u₀ u₁) mid (b :: bits) taken out r) :
    ∃ m q, n < m ∧ Reaches (feedDecStep e) n r m q ∧
      DecodingAt M (if b then u₁ else u₀) true bits (taken ++ [b]) out q := by
  refine Reaches.eventually hfair.answers_again (fun n r h => ?_) h
  cases hanswers : e.answers n with
  | true =>
    obtain ⟨q, hq, hnext⟩ := DecodingAt.step_bit h hanswers
    exact ⟨q, hq, .inl hnext⟩
  | false =>
    have hoffer : r.offers e n = false := by simp [Running.offers, hanswers]
    have hexhausted : r.exhausted e n = false := by simp [Running.exhausted, h.src]
    obtain ⟨q, hq, hwaits⟩ := DecodingAt.step_wait h hoffer hexhausted
    exact ⟨q, hq, .inr ⟨rfl, hwaits⟩⟩

/-- An empty source ends the run in the end. -/
theorem DecodingAt.ends_exhausted (h : DecodingAt M (.internal u₀ u₁) mid [] taken out r) :
    ∃ m q, n < m ∧ Reaches (feedDecStep e) n r m q ∧
      DecodingEnded (if mid then stTruncated else stEndNoEos) [] taken out q := by
  refine Reaches.eventually hfair.answers_again (fun n r h => ?_) h
  cases hexhausted : r.exhausted e n with
  | true =>
    obtain ⟨q, hq, hend⟩ := DecodingAt.step_end h hexhausted
    exact ⟨q, hq, .inl hend⟩
  | false =>
    have hoffer : r.offers e n = false := by simp [Running.offers, h.src]
    have hanswers : e.answers n = false := by
      simp only [Running.exhausted, h.src, List.isEmpty_nil, Bool.true_and, Bool.or_eq_false_iff] at hexhausted
      exact hexhausted.2
    obtain ⟨q, hq, hwaits⟩ := DecodingAt.step_wait h hoffer hexhausted
    exact ⟨q, hq, .inr ⟨hanswers, hwaits⟩⟩

/-- The byte of a leaf is put out in the end. -/
theorem DecodingAt.puts_byte {t : Tree} (himage : Image M t) {b : Byte}
    (h : DecodingAt M (.leaf (.sym b)) mid bits taken out r) :
    ∃ m q, n < m ∧ Reaches (feedDecStep e) n r m q ∧ DecodingAt M t false bits taken (out ++ [b]) q := by
  refine Reaches.eventually hfair.ready_again (fun n r h => ?_) h
  cases hready : e.ready n with
  | true =>
    obtain ⟨q, hq, hnext⟩ := DecodingAt.step_out himage h hready
    exact ⟨q, hq, .inl hnext⟩
  | false =>
    obtain ⟨q, hq, hholds⟩ := DecodingAt.step_hold h hready
    exact ⟨q, hq, .inr ⟨rfl, hholds⟩⟩

/-! ## DecodeOne and DecodeAll (R130) -/

/-- What the decoder has come to when DecodeOne, called on `bits`, has given its result. -/
def DecodedOne (M : NodeAddr → NodeWord) (bits taken : List Bool) (out : List Byte) (r : Running Bool) : OneResult → Prop
  | .value v rest => ∃ used mid, bits = used ++ rest ∧ DecodingAt M (.leaf v) mid rest (taken ++ used) out r
  | .endAtBoundary => DecodingEnded stEndNoEos [] (taken ++ bits) out r
  | .truncated => DecodingEnded stTruncated [] (taken ++ bits) out r

omit hfair in
/-- A bit taken before DecodeOne goes on is one of the bits taken. -/
theorem DecodedOne.cons {b : Bool} {res : OneResult} (h : DecodedOne M bits (taken ++ [b]) out r res) :
    DecodedOne M (b :: bits) taken out r res := by
  cases res with
  | value v rest =>
    obtain ⟨used, mid, hbits, hleaf⟩ := h
    exact ⟨b :: used, mid, by rw [hbits]; rfl, by rwa [List.append_assoc] at hleaf⟩
  | endAtBoundary | truncated => simpa [DecodedOne] using h

/-- The decoder does what DecodeOne does from the sub-tree it stands at. -/
theorem DecodingAt.decodes_one {u : Tree} {k : Nat} (h : DecodingAt M u (k != 0) bits taken out r) :
    ∃ m q, Reaches (feedDecStep e) n r m q ∧ DecodedOne M bits taken out q (decodeOne u bits k) := by
  induction u generalizing bits taken k n r with
  | leaf v => exact ⟨n, r, .refl _ _, [], _, rfl, by rwa [List.append_nil]⟩
  | internal u₀ u₁ ih₀ ih₁ =>
    cases bits with
    | nil =>
      obtain ⟨m, q, -, hreach, hend⟩ := h.ends_exhausted hfair (n := n)
      refine ⟨m, q, hreach, ?_⟩
      cases k <;> simpa [decodeOne, DecodedOne] using hend
    | cons b bits =>
      obtain ⟨m, q, -, hreach, hnext⟩ := h.takes_bit hfair (n := n)
      cases b with
      | false =>
        obtain ⟨m', q', hreach', hone⟩ := ih₀ (k := k + 1) (n := m) hnext
        exact ⟨m', q', hreach.trans hreach', hone.cons⟩
      | true =>
        obtain ⟨m', q', hreach', hone⟩ := ih₁ (k := k + 1) (n := m) hnext
        exact ⟨m', q', hreach.trans hreach', hone.cons⟩

variable {t : Tree} (himage : Image M t)
include himage

/-- Where DecodeAll ends, the decoder ends with its status, its bytes and the bits it leaves. -/
theorem DecodingAt.decodes_all {fuel : Nat} {outBefore : List Byte} {before : List Byte} {res : DecodeResult}
    (hres : decodeAll fuel t bits outBefore = some res) (h : DecodingAt M t false bits taken (before ++ outBefore) r) :
    ∃ m q used, Reaches (feedDecStep e) n r m q ∧ bits = used ++ res.rest ∧
      DecodingEnded res.status res.rest (taken ++ used) (before ++ res.out) q := by
  induction fuel generalizing bits taken outBefore n r with
  | zero => cases hres
  | succ fuel ih =>
    obtain ⟨m, q, hreach, hone⟩ := DecodingAt.decodes_one hfair (k := 0) (n := n) h
    rw [decodeAll] at hres
    cases hdecode : decodeOne t bits 0 with
    | value v rest =>
      rw [hdecode] at hres hone
      obtain ⟨used, mid, hbits, hleaf⟩ := hone
      cases v with
      | sym b =>
        obtain ⟨m', q', -, hreach', hroot⟩ := hleaf.puts_byte hfair himage (n := m)
        rw [List.append_assoc] at hroot
        obtain ⟨m'', q'', used', hreach'', hrest, hend⟩ := ih hres hroot (n := m')
        exact ⟨m'', q'', used ++ used', (hreach.trans hreach').trans hreach'', by rw [hbits, hrest, List.append_assoc],
          by rwa [← List.append_assoc]⟩
      | eos =>
        cases hres
        obtain ⟨q', hq', hend⟩ := hleaf.step_eos (e := e) (n := m)
        exact ⟨m + 1, q', used, hreach.trans (.step hq' (.refl _ _)), hbits, hend⟩
    | endAtBoundary =>
      rw [hdecode] at hres hone
      cases hres
      exact ⟨m, q, bits, hreach, (List.append_nil _).symm, hone⟩
    | truncated =>
      rw [hdecode] at hres hone
      cases hres
      exact ⟨m, q, bits, hreach, (List.append_nil _).symm, hone⟩

/-- Where `k` calls have not ended DecodeAll, the decoder comes back to the root with `k` more bytes put out. -/
theorem DecodingAt.decodes_on {k : Nat} {outBefore : List Byte} (hnone : decodeAll k t bits outBefore = none)
    (h : DecodingAt M t false bits taken out r) :
    ∃ m q, n + k ≤ m ∧ Reaches (feedDecStep e) n r m q ∧ q.state.dec.dstate = .run ∧
      out.length + k ≤ q.state.decOut.length := by
  induction k generalizing bits taken out outBefore n r with
  | zero => exact ⟨n, r, Nat.le_refl _, .refl _ _, h.run, by rw [h.decOut]; exact Nat.le_refl _⟩
  | succ k ih =>
    obtain ⟨m, q, hreach, hone⟩ := DecodingAt.decodes_one hfair (k := 0) (n := n) h
    rw [decodeAll] at hnone
    cases hdecode : decodeOne t bits 0 with
    | value v rest =>
      rw [hdecode] at hnone hone
      obtain ⟨used, mid, -, hleaf⟩ := hone
      cases v with
      | sym b =>
        obtain ⟨m', q', hlt, hreach', hroot⟩ := hleaf.puts_byte hfair himage (n := m)
        obtain ⟨m'', q'', hle, hreach'', hrun, hlength⟩ := ih hnone hroot (n := m')
        have := hreach.le
        rw [List.length_append, List.length_singleton] at hlength
        exact ⟨m'', q'', by omega, (hreach.trans hreach').trans hreach'', hrun, by omega⟩
      | eos => cases hnone
    | endAtBoundary | truncated =>
      rw [hdecode] at hnone
      cases hnone

end Fair

/-! ## A whole run -/

/-- A run against a source begins at the root with the source full, and goes on as its steps do. -/
theorem runDec_start {s : State} (hrest : s.decAtRest) {t : Tree} (himage : Image s.nodes t) (bits : List Bool) :
    ∃ r, DecodingAt s.nodes t false bits s.bitsIn s.decOut r ∧
      ∀ (e : Stalls) (m : Nat) (q : Running Bool), Reaches (feedDecStep e) 0 r m q → runDec e m bits s = some q := by
  have hm := DecMove.start (s := s.edgeDec startPinsDec) rfl hrest rfl
  have hstart : decEdge startPinsDec s = .next (s.edgeDec startPinsDec).startDec := step_of_decMove rfl hm
  refine ⟨{ src := bits, shown := false, state := (s.edgeDec startPinsDec).startDec },
    ⟨rfl, rfl, himage, rfl, rfl, rfl, rfl⟩, fun e m q hreach => ?_⟩
  rw [runDec, hstart]
  exact feedDec_of_reaches rfl hreach

/-- In a fair environment a run has ended as DecodeAll says from some number of steps on. -/
theorem runDec_decodes {s : State} (hrest : s.decAtRest) {t : Tree} (himage : Image s.nodes t) {bits : List Bool} {e : Stalls}
    (hfair : e.Fair) {res : DecodeResult} (hres : DecodesTo t bits res) :
    ∃ n used, bits = used ++ res.rest ∧ ∀ m, n ≤ m → ∃ q, runDec e m bits s = some q ∧
      DecodingEnded res.status res.rest (s.bitsIn ++ used) (s.decOut ++ res.out) q := by
  obtain ⟨fuel, hfuel⟩ := hres
  obtain ⟨r, hr, hrun⟩ := runDec_start hrest himage bits
  obtain ⟨n, q, used, hreach, hbits, hend⟩ :=
    DecodingAt.decodes_all hfair himage hfuel (before := s.decOut) (by rwa [List.append_nil]) (n := 0)
  refine ⟨n, used, hbits, fun m hm => ?_⟩
  obtain ⟨q', hreach', hend'⟩ := Reaches.persists (fun _ _ h => DecodingEnded.step h) hend hm
  exact ⟨q', hrun e m q' (hreach.trans hreach'), hend'⟩

/-- Settles O58: the decoder follows DecodeAll call by call; out of RUN it would stay, so it is in RUN at every step before the one
that puts another byte out. -/
theorem decoderRefinesDecodeAll : Obligations.DecoderRefinesDecodeAll := by
  unfold Obligations.DecoderRefinesDecodeAll
  intro s t bits e hrest himage hfair
  refine ⟨fun res hres => ?ends, fun hnever => ?never⟩
  case ends =>
    obtain ⟨n, used, hbits, hn⟩ := runDec_decodes hrest himage hfair hres
    obtain ⟨q, hrun, hend⟩ := hn n (Nat.le_refl n)
    exact ⟨n, q, used, hrun, hend.done, hend.status_eq, hend.decOut, hend.src, hbits, hend.bitsIn⟩
  case never =>
    obtain ⟨r, hr, hrun⟩ := runDec_start hrest himage bits
    have hnone : ∀ k, decodeAll k t bits [] = none := fun k =>
      Option.eq_none_iff_forall_ne_some.mpr fun res hres => hnever ⟨res, k, hres⟩
    refine ⟨fun n => ?inRun, fun k => ?bytes⟩
    case inRun =>
      obtain ⟨m, q, hle, hreach, hq, -⟩ := DecodingAt.decodes_on hfair himage (hnone n) hr (n := 0)
      obtain ⟨q', hbefore, hafter⟩ := hreach.between (Nat.zero_le n) (by omega)
      refine ⟨q', hrun e n q' hbefore, by_contra fun hnot => ?_⟩
      have hstays : ∀ j (p : Running Bool), p.state.dec.dstate ≠ .run →
          ∃ p', feedDecStep e j p = some p' ∧ p'.state.dec.dstate ≠ .run := fun j p hp => by
        have hp' : p.state.decAtRest := by
          cases hd : p.state.dec.dstate with
          | run => exact absurd hd hp
          | idle => exact .inl hd
          | done => exact .inr hd
        exact ⟨_, feedDecStep_hold hp', hp⟩
      obtain ⟨q'', hreach'', hq''⟩ := Reaches.persists hstays hnot hafter.le
      exact hq'' (hreach''.unique hafter ▸ hq)
    case bytes =>
      obtain ⟨m, q, -, hreach, -, hlength⟩ := DecodingAt.decodes_on hfair himage (hnone k) hr (n := 0)
      exact ⟨m, q, hrun e m q hreach, hlength⟩

end Sys2Proof.Machine
end

section
/-! PROOF of O59. After any number of code bits the bit writer has put out the whole bytes of their packing and holds the last, begun
one in the accumulator. With that, a run goes symbol by symbol as EncodeBits does, and the flush puts out what is left of Pack. -/

namespace Sys2Proof.Machine

/-! ## Packing bit by bit (R58, R178, R179) -/

/-- The whole bytes of a packing: what has been put out before the flush. -/
def wholeBytes (bits : List Bool) : List Byte := (pack bits).take (bits.length / 8)

theorem wholeBytes_eq_map (bits : List Bool) : wholeBytes bits = (List.range (bits.length / 8)).map (packByte bits) := by
  rw [wholeBytes, pack, ← List.map_take, List.take_range, Nat.min_eq_left (by omega)]

/-- The bytes of a packing are its whole bytes and, where bits are left, one more. -/
theorem pack_eq_wholeBytes (bits : List Bool) :
    pack bits = wholeBytes bits ++ if bits.length % 8 = 0 then [] else [packByte bits (bits.length / 8)] := by
  rw [wholeBytes_eq_map, pack]
  split_ifs with h
  · rw [show (bits.length + 7) / 8 = bits.length / 8 by omega, List.append_nil]
  · rw [show (bits.length + 7) / 8 = bits.length / 8 + 1 by omega, List.range_succ, List.map_append]
    rfl

theorem getD_append_singleton (bits : List Bool) (b : Bool) (i : Nat) :
    (bits ++ [b]).getD i false = if i = bits.length then b else bits.getD i false := by
  rcases Nat.lt_trichotomy i bits.length with h | rfl | h
  · rw [if_neg h.ne, List.getD_append _ _ _ _ h]
  · simp
  · rw [if_neg h.ne', List.getD_eq_default _ _ (by simp; omega), List.getD_eq_default _ _ h.le]

/-- A byte with the bits of a packed byte is that byte. -/
theorem eq_packByte {x : Byte} {bits : List Bool} {k : Nat}
    (h : ∀ j, j < 8 → x.getLsbD (7 - j) = bits.getD (8 * k + j) false) : x = packByte bits k := by
  apply BitVec.eq_of_getLsbD_eq
  intro i hi
  have hj := h (7 - i) (by omega)
  rw [← packByte_getLsbD bits k (by omega), show 7 - (7 - i) = i by omega] at hj
  exact hj

/-- A bit more at the end leaves the whole bytes alone. -/
theorem packByte_append_of_whole (bits : List Bool) (b : Bool) {k : Nat} (hk : k < bits.length / 8) :
    packByte (bits ++ [b]) k = packByte bits k :=
  eq_packByte fun j hj => by rw [packByte_getLsbD _ _ hj, getD_append_singleton, if_neg (by omega)]

/-- The byte begun takes the bit at its next place (R178). -/
theorem accWith_packByte (bits : List Bool) (b : Bool) {cnt : BitVec 3} (hcnt : cnt.toNat = bits.length % 8) :
    accWith (packByte bits (bits.length / 8)) cnt b = packByte (bits ++ [b]) (bits.length / 8) :=
  eq_packByte fun j hj => by
    rw [accWith_getLsbD, packByte_getLsbD _ _ hj, getD_append_singleton, hcnt]
    congr 1
    rw [eq_iff_iff]
    omega

/-- Completing a byte is writing its last bit (R179). -/
theorem accByte_eq_accWith (acc : Byte) (b : Bool) : accByte acc b = accWith acc 7 b := by
  apply BitVec.eq_of_getLsbD_eq
  intro i _
  rw [accByte_getLsbD, accWith_getLsbD]
  rfl

/-- Where no byte is completed no whole byte is added. -/
theorem wholeBytes_append_of_begun {bits : List Bool} (b : Bool) (h : bits.length % 8 ≠ 7) :
    wholeBytes (bits ++ [b]) = wholeBytes bits := by
  rw [wholeBytes_eq_map, wholeBytes_eq_map, List.length_append, List.length_singleton,
    show (bits.length + 1) / 8 = bits.length / 8 by omega]
  exact List.map_congr_left fun k hk => packByte_append_of_whole bits b (List.mem_range.mp hk)

/-- The bit that completes a byte adds it. -/
theorem wholeBytes_append_of_full {bits : List Bool} (b : Bool) (h : bits.length % 8 = 7) :
    wholeBytes (bits ++ [b]) = wholeBytes bits ++ [accByte (packByte bits (bits.length / 8)) b] := by
  rw [wholeBytes_eq_map, wholeBytes_eq_map, List.length_append, List.length_singleton,
    show (bits.length + 1) / 8 = bits.length / 8 + 1 by omega, List.range_succ, List.map_append, accByte_eq_accWith,
    accWith_packByte bits b (cnt := 7) h.symm]
  congr 1
  exact List.map_congr_left fun k hk => packByte_append_of_whole bits b (List.mem_range.mp hk)

/-- No bit of the byte after a whole number of bytes is there. -/
theorem packByte_of_none {bits : List Bool} (h : bits.length % 8 = 0) : packByte bits (bits.length / 8) = 0 :=
  (eq_packByte fun j hj => by
    rw [List.getD_eq_default _ _ (by omega)]
    exact BitVec.getLsbD_zero).symm

/-! ## The bits of a code left to write (R86) -/

/-- The last `k` bits of an entry's code field, first one most significant. -/
def codeTail (e : Entry) (k : Nat) : List Bool := (List.range k).map (fun j => e.getLsbD (k - 1 - j))

theorem codeBits_eq_codeTail (e : Entry) : codeBits e = codeTail e (entryLen e).toNat := rfl

@[simp] theorem codeTail_zero (e : Entry) : codeTail e 0 = [] := rfl

theorem codeTail_succ (e : Entry) (k : Nat) : codeTail e (k + 1) = e.getLsbD k :: codeTail e k := by
  rw [codeTail, List.range_succ_eq_map, List.map_cons, List.map_map]
  congr 1
  refine List.map_congr_left fun j _ => ?_
  show e.getLsbD (k + 1 - 1 - (j + 1)) = _
  congr 1
  omega

/-! ## Where the encoder is in a run -/

/-- The bit writer after `bits`: the byte begun in `acc`, the number of its bits in `cnt`, the whole bytes put out behind `before`. -/
structure WriterAfter (before : List Byte) (bits : List Bool) (s : State) : Prop where
  acc_eq : s.enc.acc = packByte bits (bits.length / 8)
  cnt_eq : s.enc.cnt.toNat = bits.length % 8
  encOut : s.encOut = before ++ wholeBytes bits

/-- The encoder is in a busy state: the code memory reads as `code`, `bits` have been written, `rest` is left in the source and
`taken` has been taken. -/
structure EncodingIn (code : Val → Entry) (before : List Byte) (bits : List Bool) (rest taken : List Byte) (st : EState)
    (r : Running Byte) : Prop where
  state : r.state.enc.estate = st
  codes : r.state.codeFn = code
  writer : WriterAfter before bits r.state
  errSym : r.state.enc.errSym = 0
  src : r.src = rest
  symsIn : r.state.symsIn = taken

/-- The encoder is in SHIFT with `k` bits of the entry of `v` left to write. -/
structure ShiftingAt (code : Val → Entry) (before : List Byte) (bits : List Bool) (rest taken : List Byte) (v : Val) (k : Nat)
    (r : Running Byte) : Prop extends EncodingIn code before bits rest taken .shift r where
  cur_eq : r.state.enc.cur = v
  rem_eq : r.state.enc.rem.toNat = k
  cur_le : v.toNat ≤ 256
  rem_le : k ≤ 256

/-- The encoder's run has ended. -/
structure EncodingEnded (status : StatusCode) (errSym : Val) (out rest taken : List Byte) (r : Running Byte) : Prop where
  done : r.state.enc.estate = .done
  status_eq : r.state.enc.estatus = status
  errSym_eq : r.state.enc.errSym = errSym
  encOut : r.state.encOut = out
  src : r.src = rest
  symsIn : r.state.symsIn = taken

/-- An encoder edge makes the move whose conditions hold on its pins. -/
theorem step_of_encMove {s t : State} {p : EncPins} {i : Instr} (hev : s.nextEvent = .encClock p)
    (hm : EncMove (s.advance.driveEnc p) i (.next t)) : step s = .next t := by
  rw [step_encClock hev, hm.selected]
  exact hm.exec_eq

/-- The state an encoder edge meets. -/
abbrev State.edgeEnc (p : EncPins) (s : State) : State := ((s.before (.encClock p)).advance).driveEnc p

section Steps

variable {code : Val → Entry} {before : List Byte} {bits : List Bool} {rest taken : List Byte} {st : EState} {e : Stalls} {n : Nat}
  {r : Running Byte}

/-- A step against the source is the move whose conditions hold on the pins of the source. -/
theorem feedEncStep_of_move {t : State} {i : Instr} (hm : EncMove (r.state.edgeEnc (sourcePinsEnc e n r)) i (.next t)) :
    feedEncStep e n r = some (r.after e n r.state.inReady t) := by
  rw [feedEncStep, encEdge, step_of_encMove rfl hm]

/-- Outside FETCH no symbol leaves the source. -/
theorem feedEncStep_of_move_not_fetch {t : State} {i : Instr} (hst : r.state.enc.estate ≠ .fetch)
    (hm : EncMove (r.state.edgeEnc (sourcePinsEnc e n r)) i (.next t)) :
    feedEncStep e n r = some (r.after e n false t) := by
  have hready : r.state.inReady = false := beq_false_of_ne hst
  rw [feedEncStep_of_move hm, hready]

/-! ### SHIFT -/

/-- Seven bits are pending exactly where the number of bits says so. -/
theorem WriterAfter.cnt_eq_seven_iff {s : State} (h : WriterAfter before bits s) : s.enc.cnt = 7 ↔ bits.length % 8 = 7 := by
  rw [← h.cnt_eq, ← BitVec.toNat_inj]
  rfl

/-- No bit is pending exactly where the number of bits says so. -/
theorem WriterAfter.cnt_eq_zero_iff {s : State} (h : WriterAfter before bits s) : s.enc.cnt = 0 ↔ bits.length % 8 = 0 := by
  rw [← h.cnt_eq, ← BitVec.toNat_inj]
  rfl

/-- A bit written that completes no byte goes into the accumulator. -/
theorem WriterAfter.pushBit {s : State} (h : WriterAfter before bits s) (hcnt : s.enc.cnt ≠ 7) (b : Bool) :
    WriterAfter before (bits ++ [b]) (s.pushBit b) := by
  have hbegun : bits.length % 8 ≠ 7 := fun h7 => hcnt (h.cnt_eq_seven_iff.mpr h7)
  have hbyte : (bits ++ [b]).length / 8 = bits.length / 8 := by simp; omega
  have hnext : (s.enc.cnt + 1).toNat = (bits ++ [b]).length % 8 := by
    rw [BitVec.toNat_add, h.cnt_eq, List.length_append, List.length_singleton]
    simp
  refine ⟨?_, hnext, by rw [wholeBytes_append_of_begun b hbegun]; exact h.encOut⟩
  rw [hbyte, ← accWith_packByte bits b h.cnt_eq, ← h.acc_eq]
  rfl

/-- A bit written that completes a byte puts it out. -/
theorem WriterAfter.byteDone {s : State} (h : WriterAfter before bits s) (hcnt : s.enc.cnt = 7) (b : Bool) :
    WriterAfter before (bits ++ [b]) ((s.putEncByte (accByte s.enc.acc b)).byteDone) := by
  have hfull : bits.length % 8 = 7 := h.cnt_eq_seven_iff.mp hcnt
  have hnone : (bits ++ [b]).length % 8 = 0 := by simp; omega
  refine ⟨(packByte_of_none hnone).symm, hnone.symm, ?_⟩
  show s.encOut ++ [accByte s.enc.acc b] = _
  rw [wholeBytes_append_of_full b hfull, h.encOut, h.acc_eq, List.append_assoc]

variable {v : Val} {k : Nat}

/-- The next code bit, with one more left to write. -/
theorem ShiftingAt.nextBit (h : ShiftingAt code before bits rest taken v (k + 1) r) : r.state.nextBit = (code v).getLsbD k := by
  rw [State.nextBit, h.rem_eq, h.cur_eq, ← h.codes]
  rfl

theorem ShiftingAt.rem_ne_zero (h : ShiftingAt code before bits rest taken v (k + 1) r) : r.state.enc.rem ≠ 0 := by
  intro h0
  have hrem := h.rem_eq
  rw [h0] at hrem
  cases hrem

/-- A code bit written leaves one less. -/
theorem ShiftingAt.rem_sub_one (h : ShiftingAt code before bits rest taken v (k + 1) r) :
    (r.state.enc.rem - 1).toNat = k := by
  have hrem := h.rem_eq
  have hle := h.rem_le
  rw [BitVec.toNat_sub, hrem]
  simp
  omega

/-- The next code bit is written, but where it completes a byte and the sink is not ready. -/
theorem ShiftingAt.step_bit (h : ShiftingAt code before bits rest taken v (k + 1) r) :
    ∃ q, feedEncStep e n r = some q ∧
      (ShiftingAt code before (bits ++ [(code v).getLsbD k]) rest taken v k q ∨
        e.ready n = false ∧ ShiftingAt code before bits rest taken v (k + 1) q) := by
  have hst : r.state.enc.estate ≠ .fetch := by rw [h.state]; exact nofun
  have hcur : r.state.enc.cur.toNat ≤ 256 := by rw [h.cur_eq]; exact h.cur_le
  have hrem : r.state.enc.rem.toNat ≤ 256 := by rw [h.rem_eq]; exact h.rem_le
  have hle : k ≤ 256 := Nat.le_of_succ_le h.rem_le
  by_cases hcnt : r.state.enc.cnt = 7
  · cases hready : e.ready n with
    | true =>
      have hm := EncMove.shiftByte (s := r.state.edgeEnc (sourcePinsEnc e n r)) rfl h.state h.rem_ne_zero hcnt hready
      rw [withBit_ok (s := r.state.edgeEnc (sourcePinsEnc e n r)) hcur hrem] at hm
      refine ⟨_, feedEncStep_of_move_not_fetch hst hm, .inl ?_⟩
      rw [← h.nextBit]
      exact { h with writer := { h.writer.byteDone hcnt r.state.nextBit with }, rem_eq := h.rem_sub_one, rem_le := hle }
    | false =>
      have hm := EncMove.shiftWait (s := r.state.edgeEnc (sourcePinsEnc e n r)) rfl h.state h.rem_ne_zero hcnt hready
      exact ⟨_, feedEncStep_of_move_not_fetch hst hm, .inr ⟨rfl, { h with writer := { h.writer with } }⟩⟩
  · have hm := EncMove.shiftBit (s := r.state.edgeEnc (sourcePinsEnc e n r)) rfl h.state h.rem_ne_zero hcnt
    rw [withBit_ok (s := r.state.edgeEnc (sourcePinsEnc e n r)) hcur hrem] at hm
    refine ⟨_, feedEncStep_of_move_not_fetch hst hm, .inl ?_⟩
    rw [← h.nextBit]
    exact { h with writer := { h.writer.pushBit hcnt r.state.nextBit with }, rem_eq := h.rem_sub_one, rem_le := hle }

/-- A finished code goes on to FLUSH after the sentinel and back to FETCH elsewhere (R181). -/
theorem ShiftingAt.step_done (h : ShiftingAt code before bits rest taken v 0 r) :
    ∃ q, feedEncStep e n r = some q ∧
      EncodingIn code before bits rest taken (if v = Config.eosVal then .flush else .fetch) q := by
  have hst : r.state.enc.estate ≠ .fetch := by rw [h.state]; exact nofun
  have hrem : r.state.enc.rem = 0 := BitVec.eq_of_toNat_eq h.rem_eq
  split_ifs with hv
  · have hcur : r.state.enc.cur = Config.eosVal := h.cur_eq.trans hv
    have hm := EncMove.shiftLast (s := r.state.edgeEnc (sourcePinsEnc e n r)) rfl h.state hrem hcur
    exact ⟨_, feedEncStep_of_move_not_fetch hst hm, { h with state := rfl, writer := { h.writer with } }⟩
  · have hcur : r.state.enc.cur ≠ Config.eosVal := by rwa [h.cur_eq]
    have hm := EncMove.shiftNext (s := r.state.edgeEnc (sourcePinsEnc e n r)) rfl h.state hrem hcur
    exact ⟨_, feedEncStep_of_move_not_fetch hst hm, { h with state := rfl, writer := { h.writer with } }⟩

/-! ### FETCH -/

/-- What the encoder comes to when it looks up the entry of `v`: the code in SHIFT, or the end of the run with a condition. -/
def LookedUp (code : Val → Entry) (before : List Byte) (bits : List Bool) (rest taken : List Byte) (v : Val) (r : Running Byte) :
    Prop :=
  match classifyEntry (code v) with
  | .none => EncodingEnded stUnencodable v (before ++ wholeBytes bits) rest taken r
  | .code => ShiftingAt code before bits rest taken v (entryLen (code v)).toNat r
  | .bad => EncodingEnded stBadEntry v (before ++ wholeBytes bits) rest taken r

/-- A symbol offered in FETCH is taken and looked up (R172, R173, R174). -/
theorem EncodingIn.step_symbol {b : Byte} (h : EncodingIn code before bits (b :: rest) taken .fetch r)
    (hanswers : e.answers n = true) :
    ∃ q, feedEncStep e n r = some q ∧ LookedUp code before bits rest (taken ++ [b]) (symIndex b) q := by
  have hoffer : r.offers e n = true := by simp [Running.offers, hanswers, h.src]
  have hready : r.state.inReady = true := beq_iff_eq.mpr h.state
  have hdata : (sourcePinsEnc e n r).inData = b := by simp [sourcePinsEnc, h.src]
  have hsrc : ∀ t, (r.after e n r.state.inReady t).src = rest := fun t => by
    rw [Running.after_src, hready, hoffer, h.src]
    rfl
  have hsyms : r.state.symsIn ++ [b] = taken ++ [b] := by rw [h.symsIn]
  have hentry : (r.state.edgeEnc (sourcePinsEnc e n r)).codeAt (symIndex b) = code (symIndex b) := by rw [← h.codes]; rfl
  unfold LookedUp
  cases hk : classifyEntry (code (symIndex b)) with
  | none =>
    have hm := EncMove.symMissing (s := r.state.edgeEnc (sourcePinsEnc e n r)) rfl h.state hoffer
      (by rw [State.driveEnc_ein, hdata, hentry, hk])
    rw [State.driveEnc_ein, hdata] at hm
    exact ⟨_, feedEncStep_of_move hm, rfl, rfl, rfl, h.writer.encOut, hsrc _, hsyms⟩
  | bad =>
    have hm := EncMove.symBadlen (s := r.state.edgeEnc (sourcePinsEnc e n r)) rfl h.state hoffer
      (by rw [State.driveEnc_ein, hdata, hentry, hk])
    rw [State.driveEnc_ein, hdata] at hm
    exact ⟨_, feedEncStep_of_move hm, rfl, rfl, rfl, h.writer.encOut, hsrc _, hsyms⟩
  | code =>
    have hm := EncMove.symOk (s := r.state.edgeEnc (sourcePinsEnc e n r)) rfl h.state hoffer
      (by rw [State.driveEnc_ein, hdata, hentry, hk])
    rw [State.driveEnc_ein, hdata, hentry] at hm
    exact ⟨_, feedEncStep_of_move hm,
      { h with state := rfl, writer := { h.writer with }, src := hsrc _, symsIn := hsyms, cur_eq := rfl, rem_eq := rfl,
               cur_le := symIndex_le b, rem_le := entryLen_of_code hk }⟩

/-- On exhaustion in FETCH the sentinel is looked up (R174, R175, R176). -/
theorem EncodingIn.step_sentinel (h : EncodingIn code before bits [] taken .fetch r) (hexhausted : r.exhausted e n = true) :
    ∃ q, feedEncStep e n r = some q ∧ LookedUp code before bits [] taken Config.eosVal q := by
  have hoffer : r.offers e n = false := by simp [Running.offers, h.src]
  have hsrc : ∀ t, (r.after e n r.state.inReady t).src = [] := fun t => by
    rw [Running.after_src, hoffer, Bool.and_false]
    exact h.src
  have hentry : (r.state.edgeEnc (sourcePinsEnc e n r)).codeAt Config.eosVal = code Config.eosVal := by rw [← h.codes]; rfl
  unfold LookedUp
  cases hk : classifyEntry (code Config.eosVal) with
  | none =>
    have hm := EncMove.endMissing (s := r.state.edgeEnc (sourcePinsEnc e n r)) rfl h.state hoffer hexhausted (by rw [hentry, hk])
    exact ⟨_, feedEncStep_of_move hm, rfl, rfl, rfl, h.writer.encOut, hsrc _, h.symsIn⟩
  | bad =>
    have hm := EncMove.endBadlen (s := r.state.edgeEnc (sourcePinsEnc e n r)) rfl h.state hoffer hexhausted (by rw [hentry, hk])
    exact ⟨_, feedEncStep_of_move hm, rfl, rfl, rfl, h.writer.encOut, hsrc _, h.symsIn⟩
  | code =>
    have hm := EncMove.endOk (s := r.state.edgeEnc (sourcePinsEnc e n r)) rfl h.state hoffer hexhausted (by rw [hentry, hk])
    rw [hentry] at hm
    exact ⟨_, feedEncStep_of_move hm,
      { h with state := rfl, writer := { h.writer with }, src := hsrc _, cur_eq := rfl, rem_eq := rfl, cur_le := by decide,
               rem_le := entryLen_of_code hk }⟩

/-- Without a symbol and without exhaustion the encoder waits in FETCH. -/
theorem EncodingIn.step_wait (h : EncodingIn code before bits rest taken .fetch r) (hoffer : r.offers e n = false)
    (hexhausted : r.exhausted e n = false) :
    ∃ q, feedEncStep e n r = some q ∧ EncodingIn code before bits rest taken .fetch q := by
  have hm := EncMove.fetchWait (s := r.state.edgeEnc (sourcePinsEnc e n r)) rfl h.state hoffer hexhausted
  have hsrc : ∀ t, (r.after e n r.state.inReady t).src = rest := fun t => by
    rw [Running.after_src, hoffer, Bool.and_false]
    exact h.src
  exact ⟨_, feedEncStep_of_move hm, { h with writer := { h.writer with }, src := hsrc _ }⟩

/-! ### FLUSH and DONE -/

/-- The flush puts out the byte begun, where there is one and the sink is ready, and ends the run (R182, R183, R184). -/
theorem EncodingIn.step_flush (h : EncodingIn code before bits rest taken .flush r) :
    ∃ q, feedEncStep e n r = some q ∧
      (EncodingEnded stOk 0 (before ++ pack bits) rest taken q ∨
        e.ready n = false ∧ EncodingIn code before bits rest taken .flush q) := by
  have hst : r.state.enc.estate ≠ .fetch := by rw [h.state]; exact nofun
  by_cases hcnt : r.state.enc.cnt = 0
  · have hm := EncMove.flushNone (s := r.state.edgeEnc (sourcePinsEnc e n r)) rfl h.state hcnt
    refine ⟨_, feedEncStep_of_move_not_fetch hst hm, .inl ⟨rfl, rfl, h.errSym, ?_, h.src, h.symsIn⟩⟩
    rw [pack_eq_wholeBytes, if_pos (h.writer.cnt_eq_zero_iff.mp hcnt), List.append_nil]
    exact h.writer.encOut
  · cases hready : e.ready n with
    | true =>
      have hm := EncMove.flushByte (s := r.state.edgeEnc (sourcePinsEnc e n r)) rfl h.state hcnt hready
      refine ⟨_, feedEncStep_of_move_not_fetch hst hm, .inl ⟨rfl, rfl, h.errSym, ?_, h.src, h.symsIn⟩⟩
      rw [pack_eq_wholeBytes, if_neg (fun h0 => hcnt (h.writer.cnt_eq_zero_iff.mpr h0)), ← List.append_assoc, ← h.writer.encOut,
        ← h.writer.acc_eq]
      rfl
    | false =>
      have hm := EncMove.flushWait (s := r.state.edgeEnc (sourcePinsEnc e n r)) rfl h.state hcnt hready
      exact ⟨_, feedEncStep_of_move_not_fetch hst hm, .inr ⟨rfl, { h with writer := { h.writer with } }⟩⟩

/-- A run that has ended stays so. -/
theorem EncodingEnded.step {status : StatusCode} {errSym : Val} {out : List Byte}
    (h : EncodingEnded status errSym out rest taken r) :
    ∃ q, feedEncStep e n r = some q ∧ EncodingEnded status errSym out rest taken q := by
  have hst : r.state.enc.estate ≠ .fetch := by rw [h.done]; exact nofun
  have hm := EncMove.hold (s := r.state.edgeEnc (sourcePinsEnc e n r)) rfl (.inr h.done) rfl
  exact ⟨_, feedEncStep_of_move_not_fetch hst hm, { h with }⟩

end Steps

/-! ## EncodeBits and EncodeAll (R170) -/

/-- EncodeAll of what EncodeBits gives. -/
def EncodeBitsResult.packed (res : EncodeBitsResult) : EncodeResult :=
  match res.failure with
  | none => { bytes := pack res.bits, status := stOk, errSym := 0, taken := res.taken }
  | some (c, v) => { bytes := wholeBytes res.bits, status := c, errSym := v, taken := res.taken }

theorem encodeAll_eq_packed (code : Val → Entry) (input : List Byte) : encodeAll code input = (encodeBits code input).packed := rfl

/-- EncodeAll has taken what EncodeBits has. -/
theorem EncodeBitsResult.packed_taken (res : EncodeBitsResult) : res.packed.taken = res.taken := by
  unfold EncodeBitsResult.packed
  split <;> rfl

/-! ## A fair environment lets the encoder go on -/

section Fair

variable {code : Val → Entry} {before : List Byte} {bits : List Bool} {rest taken : List Byte} {e : Stalls} {n : Nat}
  {r : Running Byte} (hfair : e.Fair)
include hfair

/-- The bits of a code are all written in the end. -/
theorem ShiftingAt.writes_code {v : Val} {k : Nat} (h : ShiftingAt code before bits rest taken v k r) :
    ∃ m q, Reaches (feedEncStep e) n r m q ∧
      EncodingIn code before (bits ++ codeTail (code v) k) rest taken (if v = Config.eosVal then .flush else .fetch) q := by
  induction k generalizing bits n r with
  | zero =>
    obtain ⟨q, hq, hdone⟩ := h.step_done (e := e) (n := n)
    exact ⟨n + 1, q, .step hq (.refl _ _), by rwa [codeTail_zero, List.append_nil]⟩
  | succ k ih =>
    obtain ⟨m, q, -, hreach, hnext⟩ := Reaches.eventually hfair.ready_again (fun n r h => ShiftingAt.step_bit h) h (n := n)
    obtain ⟨m', q', hreach', hdone⟩ := ih hnext (n := m)
    rw [List.append_assoc, List.singleton_append, ← codeTail_succ] at hdone
    exact ⟨m', q', hreach.trans hreach', hdone⟩

/-- A symbol left in the source is looked up in the end. -/
theorem EncodingIn.looks_up_symbol {b : Byte} (h : EncodingIn code before bits (b :: rest) taken .fetch r) :
    ∃ m q, n < m ∧ Reaches (feedEncStep e) n r m q ∧ LookedUp code before bits rest (taken ++ [b]) (symIndex b) q := by
  refine Reaches.eventually hfair.answers_again (fun n r h => ?_) h
  cases hanswers : e.answers n with
  | true =>
    obtain ⟨q, hq, hnext⟩ := EncodingIn.step_symbol h hanswers
    exact ⟨q, hq, .inl hnext⟩
  | false =>
    have hoffer : r.offers e n = false := by simp [Running.offers, hanswers]
    have hexhausted : r.exhausted e n = false := by simp [Running.exhausted, h.src]
    obtain ⟨q, hq, hwaits⟩ := EncodingIn.step_wait h hoffer hexhausted
    exact ⟨q, hq, .inr ⟨rfl, hwaits⟩⟩

/-- With an empty source the sentinel is looked up in the end. -/
theorem EncodingIn.looks_up_sentinel (h : EncodingIn code before bits [] taken .fetch r) :
    ∃ m q, n < m ∧ Reaches (feedEncStep e) n r m q ∧ LookedUp code before bits [] taken Config.eosVal q := by
  refine Reaches.eventually hfair.answers_again (fun n r h => ?_) h
  cases hexhausted : r.exhausted e n with
  | true =>
    obtain ⟨q, hq, hnext⟩ := EncodingIn.step_sentinel h hexhausted
    exact ⟨q, hq, .inl hnext⟩
  | false =>
    have hoffer : r.offers e n = false := by simp [Running.offers, h.src]
    have hanswers : e.answers n = false := by
      simp only [Running.exhausted, h.src, List.isEmpty_nil, Bool.true_and, Bool.or_eq_false_iff] at hexhausted
      exact hexhausted.2
    obtain ⟨q, hq, hwaits⟩ := EncodingIn.step_wait h hoffer hexhausted
    exact ⟨q, hq, .inr ⟨hanswers, hwaits⟩⟩

/-- From FETCH the encoder ends as EncodeBits says of the symbols left. -/
theorem EncodingIn.encodes (syms takenBefore : List Byte) (h : EncodingIn code before bits rest (syms ++ takenBefore) .fetch r) :
    ∃ m q used left, Reaches (feedEncStep e) n r m q ∧ (encodeFrom code bits takenBefore rest).taken = takenBefore ++ used ∧
      rest = used ++ left ∧
      EncodingEnded (encodeFrom code bits takenBefore rest).packed.status (encodeFrom code bits takenBefore rest).packed.errSym
        (before ++ (encodeFrom code bits takenBefore rest).packed.bytes) left (syms ++ (takenBefore ++ used)) q := by
  induction rest generalizing bits takenBefore n r with
  | nil =>
    obtain ⟨m, q, -, hreach, hfound⟩ := h.looks_up_sentinel hfair (n := n)
    rw [encodeFrom, encodeEnd]
    unfold LookedUp at hfound
    cases hk : classifyEntry (code Config.eosVal) with
    | none | bad =>
      rw [hk] at hfound
      exact ⟨m, q, [], [], hreach, (List.append_nil _).symm, rfl, by rwa [List.append_nil]⟩
    | code =>
      rw [hk] at hfound
      obtain ⟨m', q', hreach', hflush⟩ := ShiftingAt.writes_code hfair hfound (n := m)
      rw [if_pos rfl, ← codeBits_eq_codeTail] at hflush
      obtain ⟨m'', q'', -, hreach'', hend⟩ :=
        Reaches.eventually hfair.ready_again (fun n r h => EncodingIn.step_flush h) hflush (n := m')
      exact ⟨m'', q'', [], [], (hreach.trans hreach').trans hreach'', (List.append_nil _).symm, rfl, by rwa [List.append_nil]⟩
  | cons b rest ih =>
    obtain ⟨m, q, -, hreach, hfound⟩ := h.looks_up_symbol hfair (n := n)
    rw [encodeFrom]
    unfold LookedUp at hfound
    rw [List.append_assoc] at hfound
    cases hk : classifyEntry (code (symIndex b)) with
    | none | bad =>
      rw [hk] at hfound
      exact ⟨m, q, [b], rest, hreach, rfl, rfl, hfound⟩
    | code =>
      rw [hk] at hfound
      obtain ⟨m', q', hreach', hfetch⟩ := ShiftingAt.writes_code hfair hfound (n := m)
      have hsym : symIndex b ≠ Config.eosVal := fun heq => by
        have hval := congrArg BitVec.toNat heq
        have := b.isLt
        rw [symIndex_toNat, Config.eosVal] at hval
        simp at hval
        omega
      rw [if_neg hsym, ← codeBits_eq_codeTail] at hfetch
      obtain ⟨m'', q'', used, left, hreach'', htaken, hrest, hend⟩ := ih _ hfetch (n := m')
      refine ⟨m'', q'', b :: used, left, (hreach.trans hreach').trans hreach'', ?_, by rw [hrest]; rfl, ?_⟩
      · rw [htaken, List.append_assoc]
        rfl
      · rwa [List.append_assoc, List.singleton_append] at hend

end Fair

/-! ## A whole run -/

/-- A run against a source begins in FETCH with the source full and the writer empty, and goes on as its steps do. -/
theorem runEnc_start {s : State} (hrest : s.encAtRest) (input : List Byte) :
    ∃ r, EncodingIn s.codeFn s.encOut [] input s.symsIn .fetch r ∧
      ∀ (e : Stalls) (m : Nat) (q : Running Byte), Reaches (feedEncStep e) 0 r m q → runEnc e m input s = some q := by
  have hm := EncMove.start (s := s.edgeEnc startPinsEnc) rfl hrest rfl
  have hstart : encEdge startPinsEnc s = .next (s.edgeEnc startPinsEnc).startEnc := step_of_encMove rfl hm
  refine ⟨{ src := input, shown := false, state := (s.edgeEnc startPinsEnc).startEnc },
    ⟨rfl, rfl, ⟨rfl, rfl, (List.append_nil _).symm⟩, rfl, rfl, rfl⟩, fun e m q hreach => ?_⟩
  rw [runEnc, hstart]
  exact feedEnc_of_reaches rfl hreach

/-- In a fair environment a run has ended as EncodeAll says from some number of steps on. -/
theorem runEnc_encodes {s : State} (hrest : s.encAtRest) (input : List Byte) {e : Stalls} (hfair : e.Fair) :
    ∃ n, ∀ m, n ≤ m → ∃ q left, runEnc e m input s = some q ∧ input = (encodeAll s.codeFn input).taken ++ left ∧
      EncodingEnded (encodeAll s.codeFn input).status (encodeAll s.codeFn input).errSym
        (s.encOut ++ (encodeAll s.codeFn input).bytes) left (s.symsIn ++ (encodeAll s.codeFn input).taken) q := by
  obtain ⟨r, hr, hrun⟩ := runEnc_start hrest input
  obtain ⟨n, q, used, left, hreach, htaken, hinput, hend⟩ :=
    EncodingIn.encodes hfair s.symsIn [] (by rwa [List.append_nil]) (n := 0)
  refine ⟨n, fun m hm => ?_⟩
  obtain ⟨q', hreach', hend'⟩ := Reaches.persists (fun _ _ h => EncodingEnded.step h) hend hm
  have hall : (encodeAll s.codeFn input).taken = used := by
    rw [encodeAll_eq_packed, EncodeBitsResult.packed_taken]
    exact htaken
  rw [hall, encodeAll_eq_packed]
  exact ⟨q', left, hrun e m q' (hreach.trans hreach'), hinput, hend'⟩

/-- Settles O59, by the end of the run. -/
theorem encoderRefinesEncodeAll : Obligations.EncoderRefinesEncodeAll := by
  unfold Obligations.EncoderRefinesEncodeAll
  intro s input e hrest hfair
  obtain ⟨n, hn⟩ := runEnc_encodes hrest input hfair
  obtain ⟨q, left, hrun, hinput, hend⟩ := hn n (Nat.le_refl n)
  exact ⟨n, q, hrun, hend.done, hend.status_eq, hend.errSym_eq, hend.encOut, hend.symsIn, by rwa [hend.src]⟩

end Sys2Proof.Machine
end

section
/-! PROOF of O60. The codes of a tree, one behind the other, decode symbol by symbol because each leads from the root to its leaf; that is
all the round trip needs besides O52, O54, O58 and O59, the padding law of O55 and what an output stream stores. -/

namespace Sys2Proof.Machine

/-! ## What is written for an input, and what it decodes to -/

/-- The code of a leaf value (R111), or no bits where the tree has no such leaf. -/
def Tree.codeOf (t : Tree) (v : LeafValue) : List Bool := (CodeTable.find t.codes v).getD []

/-- The codes of the input's bytes, then the sentinel's (R170). -/
def Tree.payloadBits (t : Tree) (input : List Byte) : List Bool :=
  input.flatMap (fun b => t.codeOf (.sym b)) ++ t.codeOf .eos

theorem Tree.payloadBits_nil (t : Tree) : t.payloadBits [] = t.codeOf .eos := rfl

theorem Tree.payloadBits_cons (t : Tree) (b : Byte) (input : List Byte) :
    t.payloadBits (b :: input) = t.codeOf (.sym b) ++ t.payloadBits input := by
  simp [Tree.payloadBits]

/-- A leaf value of the tree has its code in the table. -/
theorem Tree.find_codes_of_mem {t : Tree} {v : LeafValue} (h : v ∈ t.leaves) :
    CodeTable.find t.codes v = some (t.codeOf v) := by
  have hsome : (CodeTable.find t.codes v).isSome = true := by
    rw [CodeTable.find_isSome_iff, Tree.codes, Tree.codesFrom_leaves]
    exact h
  obtain ⟨p, hp⟩ := Option.isSome_iff_exists.mp hsome
  rw [Tree.codeOf, hp, Option.getD_some]

/-- A code leads from the root to its leaf, whatever follows it. -/
theorem decodeOne_of_mem_codes {t : Tree} {v : LeafValue} {p : List Bool} (h : (v, p) ∈ t.codes) (rest : List Bool) (k : Nat) :
    decodeOne t (p ++ rest) k = .value v rest := by
  induction t generalizing p k with
  | leaf w =>
    obtain ⟨rfl, rfl⟩ := Prod.mk.inj (List.mem_singleton.mp h)
    rfl
  | internal l r ihl ihr =>
    rw [Tree.codes_internal, List.mem_append, List.mem_map, List.mem_map] at h
    rcases h with ⟨⟨w, q⟩, hmem, heq⟩ | ⟨⟨w, q⟩, hmem, heq⟩
    · obtain ⟨rfl, rfl⟩ := Prod.mk.inj heq
      exact ihl hmem (k + 1)
    · obtain ⟨rfl, rfl⟩ := Prod.mk.inj heq
      exact ihr hmem (k + 1)

section RoundTrip

variable {t : Tree} {input : List Byte} (hdistinct : t.DistinctLeaves) (heos : t.HasEos) (hcovers : t.Covers input)
include hdistinct

theorem Tree.codeOf_mem_codes {v : LeafValue} (h : v ∈ t.leaves) : (v, t.codeOf v) ∈ t.codes :=
  (Tree.find_codes_iff hdistinct v _).mp (Tree.find_codes_of_mem h)

/-- No code of a tree with distinct leaf values is longer than the code field (R116). -/
theorem Tree.codes_length_le : ∀ x ∈ t.codes, x.2.length ≤ 256 := by
  intro x hx
  have := t.code_length_le x hx
  have := t.internals_add_one
  have := Tree.leaves_length_le hdistinct
  omega

include heos hcovers

/-- What is written for an input decodes to the input and ends at the sentinel, before whatever follows. -/
theorem decodeAll_payloadBits (rest : List Bool) (out : List Byte) :
    decodeAll (input.length + 1) t (t.payloadBits input ++ rest) out =
      some { out := out ++ input, status := stOk, rest := rest } := by
  induction input generalizing out with
  | nil =>
    rw [Tree.payloadBits_nil, decodeAll, decodeOne_of_mem_codes (Tree.codeOf_mem_codes hdistinct heos), List.append_nil]
  | cons b input ih =>
    obtain ⟨hb, hinput⟩ := List.forall_mem_cons.mp hcovers
    rw [Tree.payloadBits_cons, List.append_assoc, decodeAll, decodeOne_of_mem_codes (Tree.codeOf_mem_codes hdistinct hb)]
    simp only [List.length_cons, ih hinput, List.append_assoc, List.singleton_append]

/-- Against a code memory that holds the codes, EncodeBits writes them and does not fail. -/
theorem encodeFrom_eq_payloadBits {code : Val → Entry} (hcode : ∀ v ∈ t.leaves, code v.val = entryOfCode (t.codeOf v))
    (bits : List Bool) (taken : List Byte) :
    encodeFrom code bits taken input =
      { bits := bits ++ t.payloadBits input, taken := taken ++ input, failure := none } := by
  have entry : ∀ v ∈ t.leaves, classifyEntry (code v.val) = .code ∧ codeBits (code v.val) = t.codeOf v := fun v hv => by
    have hlength : (t.codeOf v).length ≤ 256 := Tree.codes_length_le hdistinct _ (Tree.codeOf_mem_codes hdistinct hv)
    rw [hcode v hv]
    exact ⟨classifyEntry_entryOfCode hlength, codeBits_entryOfCode hlength⟩
  induction input generalizing bits taken with
  | nil =>
    obtain ⟨hk, hbits⟩ : classifyEntry (code Config.eosVal) = .code ∧ codeBits (code Config.eosVal) = t.codeOf .eos :=
      entry .eos heos
    simp only [encodeFrom, encodeEnd, hk, hbits, List.append_nil, Tree.payloadBits_nil]
  | cons b input ih =>
    obtain ⟨hb, hinput⟩ := List.forall_mem_cons.mp hcovers
    obtain ⟨hk, hbits⟩ : classifyEntry (code (symIndex b)) = .code ∧ codeBits (code (symIndex b)) = t.codeOf (.sym b) :=
      entry (.sym b) hb
    simp only [encodeFrom, hk, hbits, Tree.payloadBits_cons, ih hinput, List.append_assoc, List.singleton_append]

/-! ## Compress (R202) -/

/-- From some number of steps on compress comes to the end of a run that has put out the packed codes, if the description has been
written. -/
theorem compress_eq_compressEnd {s : State} {e : Stalls} (hrest : s.encAtRest) (hfair : e.Fair) :
    ∃ n, ∀ k, n ≤ k → ∃ s₁ s₂ : State, s₂.encDone = true ∧ s₂.encStatus = stOk ∧
      s₂.encOut.drop s₁.encOut.length = pack (t.payloadBits input) ∧
      ∀ (f : TreeFormat) (o : OutputStream), o.append [] (f.write t) = { bytes := f.write t, ok := true } →
        compress f o e k t input s = compressEnd o (f.write t) s₁ s₂ := by
  have hmem : buildCodeMem t.codes = some ((List.range Config.codeN).map (fun i => (i, tableEntry t.codes i))) :=
    if_pos (List.all_eq_true.mpr fun x hx => Nat.ble_eq.mpr (Tree.codes_length_le hdistinct x hx))
  obtain ⟨s₁, hload, -, henc, -, hread⟩ := loadCodes_codeMem t.codes hrest
  have hcode : ∀ v ∈ t.leaves, s₁.codeFn v.val = entryOfCode (t.codeOf v) := fun v hv => by
    show s₁.codeAt v.val = _
    rw [hread, Tree.find_codes_of_mem hv]
    rfl
  have hencode : encodeAll s₁.codeFn input =
      { bytes := pack (t.payloadBits input), status := stOk, errSym := 0, taken := input } := by
    rw [encodeAll_eq_packed, encodeBits, encodeFrom_eq_payloadBits hdistinct heos hcovers hcode]
    rfl
  obtain ⟨n, hn⟩ := runEnc_encodes (s := s₁) (by rwa [State.encAtRest, henc]) input hfair
  refine ⟨n, fun k hk => ?_⟩
  obtain ⟨q, left, hrun, -, hend⟩ := hn k hk
  rw [hencode] at hend
  refine ⟨s₁, q.state, beq_iff_eq.mpr hend.done, hend.status_eq, by rw [hend.encOut, List.drop_left], fun f o hwrite => ?_⟩
  simp only [compress, hwrite, Bool.true_eq_false, if_false, buildTable_eq_codes hdistinct, hmem, hload, hrun]

/-! ## Decompress (R203) -/

/-- From some number of steps on decompress of a container comes to the end of a run that has put out the input. -/
theorem decompress_eq_decompressEnd {s : State} {e : Stalls} (hrest : s.decAtRest) (hfair : e.Fair) :
    ∃ n, ∀ k, n ≤ k → ∃ s₁ s₂ : State, s₂.decDone = true ∧ s₂.decStatus = stOk ∧
      s₂.decOut.drop s₁.decOut.length = input ∧
      ∀ (f : TreeFormat) (o : OutputStream) (verdict : Bool), f.Contract →
        decompress f o verdict e k (f.write t ++ pack (t.payloadBits input)) s = decompressEnd o verdict s₁ s₂ := by
  have hfits : t.size ≤ Config.nodeDepth := by
    have := t.size_add_one
    have := Tree.leaves_length_le hdistinct
    rw [Config.nodeDepth]
    omega
  obtain ⟨s₁, hload, himage, hdec, -, -⟩ := loadNodes_placeTree hfits hrest
  have hdecodes : DecodesTo t (unpack (pack (t.payloadBits input))) _ :=
    ⟨input.length + 1, by rw [unpack_pack]; exact decodeAll_payloadBits hdistinct heos hcovers _ []⟩
  obtain ⟨n, used, -, hn⟩ := runDec_decodes (s := s₁) (by rwa [State.decAtRest, hdec]) himage hfair hdecodes
  refine ⟨n, fun k hk => ?_⟩
  obtain ⟨q, hrun, hend⟩ := hn k hk
  refine ⟨s₁, q.state, beq_iff_eq.mpr hend.done, hend.status_eq, by rw [hend.decOut, List.drop_left, List.nil_append],
    fun f o verdict hf => ?_⟩
  simp only [decompress, hf.read_write, buildImage, hfits, if_true, hload, hrun]

end RoundTrip

/-! ## The ends of compress and decompress -/

/-- A run that ended with `OK`, on an output that takes its bytes, gives a container. -/
theorem compressEnd_of_written {o : OutputStream} {written bytes : List Byte} {s₁ s₂ : State} (hdone : s₂.encDone = true)
    (hstatus : s₂.encStatus = stOk)
    (hwrite : o.append written (s₂.encOut.drop s₁.encOut.length) = { bytes := bytes, ok := true }) :
    compressEnd o written s₁ s₂ = { ending := .container, output := bytes } := by
  simp [compressEnd, hwrite, encRunResult, hdone, hstatus]

/-- On an output that does not take the bytes of the run compress fails. -/
theorem compressEnd_of_failed {o : OutputStream} {written bytes : List Byte} {s₁ s₂ : State}
    (hwrite : o.append written (s₂.encOut.drop s₁.encOut.length) = { bytes := bytes, ok := false }) :
    compressEnd o written s₁ s₂ = { ending := .writeFailed, output := bytes } := by
  simp [compressEnd, hwrite]

/-- A run that ended with `OK`, on an output that takes its bytes, gives complete data where the output can be finalized. -/
theorem decompressEnd_of_written {o : OutputStream} {verdict : Bool} {bytes : List Byte} {s₁ s₂ : State}
    (hdone : s₂.decDone = true) (hstatus : s₂.decStatus = stOk)
    (hwrite : o.append [] (s₂.decOut.drop s₁.decOut.length) = { bytes := bytes, ok := true }) :
    decompressEnd o verdict s₁ s₂ = { ending := if o.finalizes then .data else .finalizeFailed, output := bytes } := by
  cases hfinal : o.finalizes <;> simp [decompressEnd, hwrite, decRunResult, hdone, hstatus, decompressSucceeds, hfinal]

/-- Settles O60: the container is the description and the packed codes; each clause by what the output takes. -/
theorem compressThenDecompressIsIdentity : Obligations.CompressThenDecompressIsIdentity := by
  unfold Obligations.CompressThenDecompressIsIdentity
  intro f t input s s' e e' verdict hf hdistinct heos hcovers hrest hrest' hfair hfair'
  obtain ⟨n, hn⟩ := compress_eq_compressEnd hdistinct heos hcovers hrest hfair
  obtain ⟨n', hn'⟩ := decompress_eq_decompressEnd hdistinct heos hcovers hrest' hfair'
  refine ⟨f.write t ++ pack (t.payloadBits input), List.prefix_append _ _, fun o htakes => ?compressed,
    fun o j hj hfails htakes => ?compressFails, fun o htakes => ?decompressed, fun o j hj hfails htakes => ?decompressFails⟩
  case compressed =>
    refine ⟨n, fun k hk => ?_⟩
    obtain ⟨s₁, s₂, hdone, hstatus, hout, hcompress⟩ := hn k hk
    rw [List.length_append] at htakes
    rw [hcompress f o (OutputStream.append_taken [] _ fun i _ hi => htakes i (by rw [List.length_nil] at hi; omega))]
    apply compressEnd_of_written hdone hstatus
    rw [hout]
    exact OutputStream.append_taken _ _ fun i _ hi => htakes i hi
  case compressFails =>
    rw [List.length_append] at hj
    rcases Nat.lt_or_ge j (f.write t).length with hlt | hge
    · have hwrite := OutputStream.append_fails (o := o) [] (f.write t) j hlt
        (fun i _ hi => htakes i (by simpa using hi)) (by simpa using hfails)
      refine ⟨0, fun k _ => ?_⟩
      simp [compress, hwrite, List.take_append_of_le_length hlt.le]
    · refine ⟨n, fun k hk => ?_⟩
      obtain ⟨s₁, s₂, hdone, hstatus, hout, hcompress⟩ := hn k hk
      obtain ⟨d, rfl⟩ := Nat.exists_eq_add_of_le hge
      rw [hcompress f o (OutputStream.append_taken [] _ fun i _ hi => htakes i (by rw [List.length_nil] at hi; omega)),
        List.take_length_add_append]
      apply compressEnd_of_failed
      rw [hout]
      exact OutputStream.append_fails _ _ d (by omega) (fun i _ hi => htakes i hi) hfails
  case decompressed =>
    refine ⟨n', fun k hk => ?_⟩
    obtain ⟨s₁, s₂, hdone, hstatus, hout, hdecompress⟩ := hn' k hk
    rw [hdecompress f o verdict hf]
    apply decompressEnd_of_written hdone hstatus
    rw [hout]
    exact OutputStream.append_taken [] _ fun i _ hi => htakes i (by simpa using hi)
  case decompressFails =>
    refine ⟨n', fun k hk => ?_⟩
    obtain ⟨s₁, s₂, -, -, hout, hdecompress⟩ := hn' k hk
    rw [hdecompress f o verdict hf, decompressEnd_writeFailed (by rwa [hout]) htakes hfails, hout]

end Sys2Proof.Machine
end
